-- ==== Sys2Proof/Word.lean ====
section
/-!
DEFINITION. The byte type and byte sequences of the spec (00_scope.md R9 to R11).
A byte is 8 unsigned bits. A byte sequence is a list of bytes, in stream order. A word of the codec is a byte
sequence of length 8, with no numeric value of its own (20_memory.md R48).
-/

namespace Sys2Proof

/-- A byte, 0 to 255, never signed (R9). -/
abbrev Byte := BitVec 8

/-- `zeros n` is `n` bytes of `0x00` (R11). -/
def zeros (n : Nat) : List Byte := List.replicate n 0#8

end Sys2Proof
end

