-- ==== Sys2Proof/Config.lean ====
section
/-!
DEFINITION. What is fixed when PACKCODEC is built: the two open parameters of 00_scope.md R6, and the constants
of R8. The parameters are an argument of every command, as R6 asks; a state carries them (`State.params`, log 1).
-/

namespace Sys2Proof.Config

/-- The build parameters of R6. -/
structure Params where
  /-- `MAX_CAP`: the largest buffer capacity an INIT accepts, any unit. -/
  maxCap : Nat
  /-- `MAX_IN`: the largest chunk a SET accepts, any unit. -/
  maxIn : Nat
  deriving DecidableEq, Repr

/-- The constraints R6 puts on the parameters. -/
abbrev Params.Legal (p : Params) : Prop :=
  (2048 ≤ p.maxCap ∧ p.maxCap ≤ 2 ^ 24 - 1) ∧ (8 ≤ p.maxIn ∧ p.maxIn ≤ 2 ^ 24 - 1)

/-- The reference values of R6, used by every example of the spec. -/
def reference : Params := { maxCap := 2 ^ 24 - 1, maxIn := 2 ^ 24 - 1 }

/-- `WORD`: bytes per word (R8). -/
abbrev WORD : Nat := 8
/-- `TAG_ZERO`: the tag of an all-zero word; it starts a zero range (R8). -/
abbrev TAG_ZERO : Byte := 0x00#8
/-- `TAG_VERB`: the tag of an all-nonzero word; it starts a verbatim range (R8). -/
abbrev TAG_VERB : Byte := 0xff#8
/-- `MAX_EXTRA`: the largest number of extra bytes in one range, 255 words (R8). -/
abbrev MAX_EXTRA : Nat := 2040
/-- `MAX_COUNT`: the largest count byte (R8). -/
abbrev MAX_COUNT : Nat := 255
/-- `VERB_MIN_POP`: the smallest population count with which a peeked word joins a verbatim range (R8). -/
abbrev VERB_MIN_POP : Nat := 7
/-- `FAST_MARGIN`: the smallest number of chunk bytes with which the main phase takes a Start group (R8). -/
abbrev FAST_MARGIN : Nat := 10
/-- `REM_CAP`: the Remainder's capacity in bytes (R8). -/
abbrev REM_CAP : Nat := 10
/-- `ENC_MIN_CAP`: the smallest ENC output buffer (R8, R115). -/
abbrev ENC_MIN_CAP : Nat := 2048
/-- `DEC_MIN_CAP`: the smallest DEC or DOS buffer (R8). -/
abbrev DEC_MIN_CAP : Nat := 8

end Sys2Proof.Config
end

