-- ==== Sys2Proof/Syntax.lean ====
section
/-!
DEFINITION. The syntax of the commands: one constructor of `Instr` for each row of spec/opcode_table.json
(30_encoding.md R69), and the form in which a command crosses the command port (R67).
-/

namespace Sys2Proof

/-- A command of the host, with its operands assembled (R70).
`cap` is the capacity an INIT asks for, `chunk` the data of a SET (its ARG is the number of bytes, as in the
notation of R76), `code` the opaque upstream code of an ABORT. -/
inductive Instr where
  /-- `ENC.INIT cap`, opcode `0x10` (R124). -/
  | encInit (cap : BitVec 24)
  /-- `ENC.SET chunk`, opcode `0x11` (R125). -/
  | encSet (chunk : List Byte)
  /-- `ENC.NEXT`, opcode `0x12` (R126). -/
  | encNext
  /-- `ENC.FLUSH`, opcode `0x13` (R127). -/
  | encFlush
  /-- `ENC.ABORT code`, opcode `0x1d` (R134). -/
  | encAbort (code : BitVec 24)
  /-- `ENC.STATUS`, opcode `0x1e` (R133). -/
  | encStatus
  /-- `DEC.INIT cap`, opcode `0x20` (R108). -/
  | decInit (cap : BitVec 24)
  /-- `DEC.SET chunk`, opcode `0x21` (R109). -/
  | decSet (chunk : List Byte)
  /-- `DEC.NEXT`, opcode `0x22` (R110). -/
  | decNext
  /-- `DEC.FLUSH`, opcode `0x23` (R111). -/
  | decFlush
  /-- `DEC.ABORT code`, opcode `0x2d` (R134). -/
  | decAbort (code : BitVec 24)
  /-- `DEC.STATUS`, opcode `0x2e` (R133). -/
  | decStatus
  /-- `DOS.INIT cap`, opcode `0x30` (R112). -/
  | dosInit (cap : BitVec 24)
  /-- `DOS.SET chunk`, opcode `0x31` (R113). -/
  | dosSet (chunk : List Byte)
  /-- `DOS.FINISH`, opcode `0x33` (R114). -/
  | dosFinish
  /-- `DOS.ABORT code`, opcode `0x3d` (R134). -/
  | dosAbort (code : BitVec 24)
  /-- `DOS.STATUS`, opcode `0x3e` (R133). -/
  | dosStatus
  deriving DecidableEq, Repr

/-- A command as it crosses the command port: a 32-bit command word and the data bytes that come with it (R67). -/
structure Command where
  word : BitVec 32
  data : List Byte
  deriving DecidableEq, Repr

end Sys2Proof
end

