-- ==== Sys2Proof/Machine/State.lean ====
section
/-!
DEFINITION. The state of PACKCODEC (10_state.md), as plain data: the three units, the build parameters, and the
transactions of the command and response ports. No field is a function.

Lengths, offsets and counts are natural numbers (00_scope.md R9: no arithmetic wraps); the width of each register is
kept by the legal-state predicates of Safety.lean (log 9).
-/

namespace Sys2Proof.Machine

/-- A byte memory of a unit (20_memory.md R45), as the bytes that hold a value, addresses strictly rising.
An address that is not listed holds no value: its byte is unspecified (10_state.md R44, log 2). -/
abbrev Mem := List Host.Cell

/-- The error codes of 60_exceptions.md R139 (code 0 means no error, 9 to 15 are never produced). -/
inductive ErrCode where
  /-- 1: an INIT with an illegal capacity, or a SET with an illegal length. Not fatal. -/
  | config
  /-- 2: DEC.FLUSH or DOS.FINISH at the end of a malformed stream. Fatal. -/
  | malformed
  /-- 3: a DOS decode unit needs target space beyond `DOS.CAP`. Fatal. -/
  | capacity
  /-- 4: an ABORT. Fatal. -/
  | upstream
  /-- 5: a command but INIT and STATUS on an unconfigured unit. -/
  | notcfg
  /-- 6: a SET while the unit's chunk is not fully consumed. -/
  | busy
  /-- 7: a command but INIT and STATUS on a failed unit. -/
  | failed
  /-- 8: an illegal command word. -/
  | illegal
  deriving DecidableEq, Repr

/-- The response kinds of 30_encoding.md R74, with the data or info they carry. The words that cross the response
port are `Response.word` and `Response.data` (Machine/Response.lean). -/
inductive Response where
  | ok
  | output (data : List Byte)
  | none
  | done
  | result (data : List Byte)
  | status (value : BitVec 64)
  | error (code : ErrCode) (info : BitVec 24)
  deriving DecidableEq, Repr

/-- `ENC.MAIN` (10_state.md R27). The value 3 is never held, and the type has no place for it (R41). -/
inductive EncMain where
  | start
  | zeroRangeWriting
  | verbatimRangeWriting
  deriving DecidableEq, Repr

/-- `ENC.CONT` (10_state.md R29). The value 3 is never held, and the type has no place for it (R41). -/
inductive EncCont where
  | none
  | initializing
  | continuing
  deriving DecidableEq, Repr

/-- `DEC.MAIN` and `DOS.MAIN` (10_state.md R33, R37). The value 3 is never held (R41). -/
inductive DecMain where
  | start
  | zeroRange
  | verbatimRange
  deriving DecidableEq, Repr

/-- The fields every unit has (10_state.md R19 to R25). -/
structure Common where
  /-- `U.CFG` (R19). -/
  cfg : Bool
  /-- `U.FAILED` (R20). -/
  failed : Bool
  /-- `U.ERR`, 4 bits (R21). -/
  err : BitVec 4
  /-- `U.CAP`, 24 bits (R22). -/
  cap : Nat
  /-- `U.IN`, a memory of `MAX_IN` bytes (R23). -/
  input : Mem
  /-- `U.INLEN`, 24 bits (R24). -/
  inlen : Nat
  /-- `U.INPTR`, 24 bits (R25). -/
  inptr : Nat
  deriving DecidableEq, Repr

/-- The encoder unit ENC (10_state.md R27 to R31). -/
structure Enc extends Common where
  /-- `ENC.MAIN` (R27). -/
  main : EncMain
  /-- `ENC.MCNT`, 12 bits (R28). -/
  mcnt : Nat
  /-- `ENC.CONT` (R29). -/
  cont : EncCont
  /-- `ENC.CEND`, 12 bits (R30). -/
  cend : Nat
  /-- `ENC.OUT`, a memory of `ENC.CAP` bytes (R31). -/
  out : Mem
  deriving DecidableEq, Repr

/-- The fields DEC and DOS share (10_state.md R33 to R37). For DEC this is the whole unit. -/
structure Decoder extends Common where
  /-- `U.MAIN` (R33). -/
  main : DecMain
  /-- `U.CNT`, 12 bits (R34). -/
  cnt : Nat
  /-- `U.REM`, a memory of 10 bytes (R35). -/
  rem : Mem
  /-- `U.REMLEN`, 4 bits (R35). -/
  remlen : Nat
  /-- The output memory of `U.CAP` bytes: `DEC.OUT` in DEC (R36), `DOS.TGT` in DOS (R38). -/
  outm : Mem
  deriving DecidableEq, Repr

/-- The one-shot decoder unit DOS (10_state.md R37, R38). -/
structure Dos extends Decoder where
  /-- `DOS.W`, 24 bits (R38). -/
  w : Nat
  deriving DecidableEq, Repr

/-- What the host can do to PACKCODEC: issue a command (30_encoding.md R67), or cause a reset event
(70_reset_and_hazards.md R154). -/
inductive HostEvent where
  | command (c : Command)
  | reset
  deriving DecidableEq, Repr

/-- The whole machine. -/
structure State where
  /-- The build parameters `MAX_CAP` and `MAX_IN` (00_scope.md R6, log 1). No command changes them. -/
  params : Config.Params
  /-- The encoder unit. -/
  enc : Enc
  /-- The streaming decoder unit. -/
  dec : Decoder
  /-- The one-shot decoder unit. -/
  dos : Dos
  /-- The MODEL's own field: what the host is going to do, next event first (log 5). -/
  pending : List HostEvent
  /-- The MODEL's own field: the responses the host has been given, oldest first (log 6). Nothing reads it. -/
  delivered : List Response
  deriving DecidableEq, Repr

/-- Why the machine stops. The spec has no such stop: each is the model's, is SAFE (the model stops where the hardware
would go on), and is raised only from a state the rules say never occurs (Safety.lean). -/
inductive Fault where
  /-- An access outside `[0, size)` of a memory. Raised by `memRead` and `memWrite`. R12: it never happens (log 3). Safe. -/
  | outsideMemory
  /-- A read of a byte that nothing has written since reset or INIT. Raised by `memRead`. R44: no rule does it (log 2). Safe. -/
  | unwrittenByte
  /-- A loop of DecRun or EncRun passed the bound that every legal state keeps, or RunUnit was called in `ZeroRange`,
  which R92 says never happens (log 4). Raised by the decode and encode machines. Safe. -/
  | outsideRules
  deriving DecidableEq, Repr

/-- Why a step has no meaning. -/
inductive Refusal where
  /-- An instruction the model gives no meaning yet. Raised only by an arm of `exec`. Safe. -/
  | notModelled (mnemonic : String)
  /-- A legal command word that came with another number of data bytes than R67 says it carries: the host broke the
  port's protocol, and the spec says nothing of it (log 7). Raised by `step`. Safe. -/
  | portProtocol
  deriving DecidableEq, Repr

/-- The common fields at reset (10_state.md R44). -/
def Common.reset : Common :=
  { cfg := false, failed := false, err := 0#4, cap := 0, input := [], inlen := 0, inptr := 0 }

/-- ENC at reset (R44). -/
def Enc.reset : Enc :=
  { Common.reset with main := .start, mcnt := 0, cont := .none, cend := 0, out := [] }

/-- DEC at reset, and DOS's share of its fields (R44). -/
def Decoder.reset : Decoder :=
  { Common.reset with main := .start, cnt := 0, rem := [], remlen := 0, outm := [] }

/-- DOS at reset (R44). -/
def Dos.reset : Dos :=
  { Decoder.reset with w := 0 }

/-- PACKCODEC built with the parameters `p`, right after reset (70_reset_and_hazards.md R154). -/
def State.resetWith (p : Config.Params) : State :=
  { params := p, enc := Enc.reset, dec := Decoder.reset, dos := Dos.reset, pending := [], delivered := [] }

/-- The machine right after reset, built with the reference parameters (R6, R154). -/
def State.reset : State := State.resetWith Config.reference

end Sys2Proof.Machine
end

