-- ==== Sys2Proof/Machine/Response.lean ====
section
/-!
DEFINITION. What crosses the response port: the 32-bit response word and its data bytes
(30_encoding.md R73, R74; 20_memory.md R49; 60_exceptions.md R139).
-/

namespace Sys2Proof.Machine

/-- The code of an error (R139). -/
def ErrCode.code : ErrCode → BitVec 4
  | .config => 1#4
  | .malformed => 2#4
  | .capacity => 3#4
  | .upstream => 4#4
  | .notcfg => 5#4
  | .busy => 6#4
  | .failed => 7#4
  | .illegal => 8#4

/-- The KIND field (R74). -/
def Response.kind : Response → BitVec 4
  | .ok => 0#4
  | .output _ => 1#4
  | .none => 2#4
  | .done => 3#4
  | .result _ => 4#4
  | .status _ => 5#4
  | .error _ _ => 15#4

/-- The 8 data bytes of a STATUS response, least significant first: byte `k` is `STAT[8k+7:8k]` (R49). -/
def statusBytes (v : BitVec 64) : List Byte :=
  (List.range 8).map fun k => v.extractLsb' (8 * k) 8

/-- The data bytes of a response: only OUTPUT, RESULT and STATUS carry any (R67, R74). -/
def Response.data : Response → List Byte
  | .output d => d
  | .result d => d
  | .status v => statusBytes v
  | .ok => []
  | .none => []
  | .done => []
  | .error _ _ => []

/-- The LEN field: the number of data bytes of OUTPUT and RESULT, 8 for STATUS, the info of an ERROR, else 0 (R73). -/
def Response.len : Response → BitVec 24
  | .output d => BitVec.ofNat 24 d.length
  | .result d => BitVec.ofNat 24 d.length
  | .status _ => 8#24
  | .error _ info => info
  | .ok => 0#24
  | .none => 0#24
  | .done => 0#24

/-- The ERR field: the error code of an ERROR, else 0 (R73). -/
def Response.errField : Response → BitVec 4
  | .error e _ => e.code
  | .ok => 0#4
  | .output _ => 0#4
  | .none => 0#4
  | .done => 0#4
  | .result _ => 0#4
  | .status _ => 0#4

/-- The response word `{LEN, ERR, KIND}` (R73). -/
def Response.word (r : Response) : BitVec 32 := r.len ++ r.errField ++ r.kind

end Sys2Proof.Machine
end

