-- ==== Sys2Proof/Machine/Ops.lean ====
section
/-!
DEFINITION. The named operations every meaning is built from: reading and writing a unit's memories
(00_scope.md R12), the ways a procedure ends (R13), the checks before a command (60_exceptions.md R142),
raising and failing (R140, R141: the machine's exception entry), reset and INIT's way back (R144, R154, R155),
and handing a unit and its response back to the machine (30_encoding.md R72).
-/

namespace Sys2Proof.Machine

open Sys2Proof.Config

/-! ### Memory -/

/-- The byte at address `a`, if anything has written it (log 2). -/
def readByte? : Mem → Nat → Option Byte
  | [], _ => none
  | (k, b) :: m, a => if k = a then some b else readByte? m a

/-- The `n` bytes from address `a`, if all of them have been written. -/
def readBytes? (m : Mem) : Nat → Nat → Option (List Byte)
  | _, 0 => some []
  | a, n + 1 =>
    match readByte? m a, readBytes? m (a + 1) n with
    | some b, some bs => some (b :: bs)
    | _, _ => none

/-- The cells of the bytes `bs` laid out from address `a`. -/
def cellsAt : Nat → List Byte → Mem
  | _, [] => []
  | a, b :: bs => (a, b) :: cellsAt (a + 1) bs

/-- The memory with the bytes `bs` written from address `a`. -/
def writeBytes (m : Mem) (a : Nat) (bs : List Byte) : Mem :=
  m.filter (fun c => c.1 < a) ++ cellsAt a bs ++ m.filter (fun c => a + bs.length ≤ c.1)

/-- The canonical form of a memory: addresses strictly rising. -/
def memWf (m : Mem) : Bool := (m.map Prod.fst).Pairwise (· < ·)

/-- `MemRead(U.M, a, n)` on a memory of `size` bytes (R12). Outside the memory it faults (log 3); on a byte nothing has
written it faults (log 2). -/
def memRead (m : Mem) (size a n : Nat) : Except Fault (List Byte) :=
  if a + n ≤ size then
    match readBytes? m a n with
    | some bs => .ok bs
    | none => .error .unwrittenByte
  else .error .outsideMemory

/-- `MemWrite(U.M, a, n, s)` with `n = |s|` on a memory of `size` bytes (R12). Outside the memory it faults (log 3). -/
def memWrite (m : Mem) (size a : Nat) (bs : List Byte) : Except Fault Mem :=
  if a + bs.length ≤ size then .ok (writeBytes m a bs) else .error .outsideMemory

/-! ### How a procedure and a command end -/

/-- How a named procedure ends (00_scope.md R13): it gives its caller a value, or it ends the command early with `e`, or
the model stops. `u` is the unit as the procedure left it. -/
inductive Flow (σ ε α : Type) where
  | back (u : σ) (a : α)
  | ended (u : σ) (e : ε)
  | stop (f : Fault)
  deriving DecidableEq, Repr

/-- Go on with `k` when the procedure gave a value. -/
def Flow.bind {σ ε α β : Type} (x : Flow σ ε α) (k : σ → α → Flow σ ε β) : Flow σ ε β :=
  match x with
  | .back u a => k u a
  | .ended u e => .ended u e
  | .stop f => .stop f

/-- Go on with `k` when a memory access succeeded. -/
def Flow.access {σ ε α β : Type} (x : Except Fault α) (k : α → Flow σ ε β) : Flow σ ε β :=
  match x with
  | .ok a => k a
  | .error f => .stop f

/-- How a command ends: with exactly one response (R13, R72), or the model stops. -/
inductive CommandEnd (σ : Type) where
  | respond (u : σ) (r : Response)
  | stop (f : Fault)
  deriving DecidableEq, Repr

/-- Go on with `k` when a memory access succeeded. -/
def CommandEnd.access {σ α : Type} (x : Except Fault α) (k : α → CommandEnd σ) : CommandEnd σ :=
  match x with
  | .ok a => k a
  | .error f => .stop f

/-! ### Errors: raise, fail, and the checks before a command -/

/-- `raise E(info)`: the ERROR response; a raise changes no state itself (R140). -/
def raise (e : ErrCode) (info : BitVec 24 := 0#24) : Response := .error e info

/-- What `fail E` leaves in the unit: FAILED set and the code recorded, every other field kept (R141). This is the
machine's exception entry: nothing else is saved, no mode changes and there is no handler address (R143). -/
def failWith (e : ErrCode) (c : Common) : Common := { c with failed := true, err := e.code }

/-- `fail E(info)` in ENC (R141). -/
def failEnc (e : ErrCode) (info : BitVec 24) (u : Enc) : CommandEnd Enc :=
  .respond { u with toCommon := failWith e u.toCommon } (raise e info)

/-- `fail E(info)` in DEC, or in the fields DOS shares with it (R141). -/
def failDecoder (e : ErrCode) (u : Decoder) : Decoder := { u with toCommon := failWith e u.toCommon }

/-- `fail E(info)` in DEC (R141). -/
def failDec (e : ErrCode) (info : BitVec 24) (u : Decoder) : CommandEnd Decoder :=
  .respond (failDecoder e u) (raise e info)

/-- `fail E(info)` in DOS (R141). -/
def failDos (e : ErrCode) (info : BitVec 24) (u : Dos) : CommandEnd Dos :=
  .respond { u with toDecoder := failDecoder e u.toDecoder } (raise e info)

/-- Steps 2 and 3 of the order of checks: NOTCFG, then FAILED with the unit's ERR as info (R142). They apply to every
command but INIT and STATUS. -/
def precheck (c : Common) : Option Response :=
  if c.cfg = false then some (raise .notcfg)
  else if c.failed = true then some (raise .failed (c.err.setWidth 24))
  else none

/-- Steps 2 to 5 of the order of checks for a SET of `len` bytes: NOTCFG, FAILED, BUSY, then CONFIG for a chunk over
`MAX_IN`, or one that is not a whole number of words where `wholeWords` asks for it, as ENC does (R142). -/
def precheckSet (p : Params) (wholeWords : Bool) (len : Nat) (c : Common) : Option Response :=
  match precheck c with
  | some r => some r
  | none =>
    if c.inptr < c.inlen then some (raise .busy)
    else if p.maxIn < len then some (raise .config)
    else if wholeWords = true ∧ len % WORD ≠ 0 then some (raise .config)
    else none

/-- A command that a check may refuse: the refusal changes no state (R140, R142). -/
def checked {σ : Type} (refusal : Option Response) (u : σ) (go : CommandEnd σ) : CommandEnd σ :=
  match refusal with
  | some r => .respond u r
  | none => go

/-- What an accepted SET does to the common fields: the chunk is copied into `U.IN[0..len)`, `U.INLEN <- len` and
`U.INPTR <- 0` (20_memory.md R46). -/
def installChunk (p : Params) (s : List Byte) (c : Common) : Except Fault Common :=
  match memWrite c.input p.maxIn 0 s with
  | .ok m => .ok { c with input := m, inlen := s.length, inptr := 0 }
  | .error f => .error f

/-! ### The machine around a unit's command -/

/-- The response is delivered, after all the command's state changes (R72). -/
def State.deliver (s : State) (r : Response) : State := { s with delivered := s.delivered ++ [r] }

/-- Replace ENC. -/
def State.setEnc (s : State) (u : Enc) : State := { s with enc := u }

/-- Replace DEC. -/
def State.setDec (s : State) (u : Decoder) : State := { s with dec := u }

/-- Replace DOS. -/
def State.setDos (s : State) (u : Dos) : State := { s with dos := u }

/-- A command of ENC has ended: only ENC can have changed (44_control.md R132). -/
def State.closeEnc (s : State) (e : CommandEnd Enc) : Host.Outcome State Fault Refusal :=
  match e with
  | .respond u r => .next ((s.setEnc u).deliver r)
  | .stop f => .fault f

/-- A command of DEC has ended: only DEC can have changed (R132). -/
def State.closeDec (s : State) (e : CommandEnd Decoder) : Host.Outcome State Fault Refusal :=
  match e with
  | .respond u r => .next ((s.setDec u).deliver r)
  | .stop f => .fault f

/-- A command of DOS has ended: only DOS can have changed (R132). -/
def State.closeDos (s : State) (e : CommandEnd Dos) : Host.Outcome State Fault Refusal :=
  match e with
  | .respond u r => .next ((s.setDos u).deliver r)
  | .stop f => .fault f

/-- A reset event: every field of every unit takes its reset value; no response is sent (70_reset_and_hazards.md
R154). The build parameters and the host's own records are no field of a unit, so they stay (log 10). -/
def State.resetUnits (s : State) : State :=
  { s with enc := Enc.reset, dec := Decoder.reset, dos := Dos.reset }

end Sys2Proof.Machine
end

