-- ==== Sys2Proof/Machine/Flags.lean ====
section
/-!
DEFINITION. The flags and the status registers (10_state.md R26, R39 to R42; 41_decode_machine.md R95, R104).
PACKCODEC has no condition codes (R42): its flags are CFG and FAILED, which are fields, and the derived flag
INPEND. The status registers are composed when they are read.
-/

namespace Sys2Proof.Machine

/-- `U.INPEND`: the current chunk still has unconsumed bytes (R26). -/
def Common.inpend (c : Common) : Bool := c.inptr < c.inlen

/-- INLEFT: the number of unconsumed chunk bytes (R39, R40). -/
def Common.inleft (c : Common) : Nat := c.inlen - c.inptr

/-- `isSynced(U)`: the Remainder is empty (R95). -/
def Decoder.isSynced (d : Decoder) : Bool := d.remlen = 0

/-- `quiescent(U)`: no range pending, nothing in the Remainder, the chunk consumed (R104). -/
def Decoder.quiescent (d : Decoder) : Bool := d.main = .start ∧ d.remlen = 0 ∧ d.inptr = d.inlen

/-- The encoding of `ENC.MAIN` (R27). -/
def EncMain.code : EncMain → BitVec 2
  | .start => 0#2
  | .zeroRangeWriting => 1#2
  | .verbatimRangeWriting => 2#2

/-- The encoding of `ENC.CONT` (R29). -/
def EncCont.code : EncCont → BitVec 2
  | .none => 0#2
  | .initializing => 1#2
  | .continuing => 2#2

/-- The encoding of `DEC.MAIN` and `DOS.MAIN` (R33). -/
def DecMain.code : DecMain → BitVec 2
  | .start => 0#2
  | .zeroRange => 1#2
  | .verbatimRange => 2#2

/-- `ENC.STAT` (R39): from bit 63 down, INLEFT, CEND, MCNT, 0, ERR, 0, INPEND, FAILED, CFG, CONT, MAIN. -/
def encStatus (u : Enc) : BitVec 64 :=
  BitVec.ofNat 24 u.inleft ++ BitVec.ofNat 12 u.cend ++ BitVec.ofNat 12 u.mcnt ++ 0#4 ++ u.err ++ 0#1 ++
    BitVec.ofBool u.inpend ++ BitVec.ofBool u.failed ++ BitVec.ofBool u.cfg ++ u.cont.code ++ u.main.code

/-- The common layout of `DEC.STAT` and `DOS.STAT` (R40): from bit 63 down, `top`, 0, CNT, REMLEN, ERR, 0, INPEND,
FAILED, CFG, 0, MAIN. -/
def decoderStatus (top : Nat) (d : Decoder) : BitVec 64 :=
  BitVec.ofNat 24 top ++ 0#12 ++ BitVec.ofNat 12 d.cnt ++ BitVec.ofNat 4 d.remlen ++ d.err ++ 0#1 ++
    BitVec.ofBool d.inpend ++ BitVec.ofBool d.failed ++ BitVec.ofBool d.cfg ++ 0#2 ++ d.main.code

/-- `DEC.STAT`: its top field is INLEFT (R40). -/
def decStatus (d : Decoder) : BitVec 64 := decoderStatus d.inleft d

/-- `DOS.STAT`: its top field is `DOS.W` (R40). -/
def dosStatus (d : Dos) : BitVec 64 := decoderStatus d.w d.toDecoder

end Sys2Proof.Machine
end

