-- ==== Sys2Proof/Machine/Operands.lean ====
section
/-!
DEFINITION. The operand forms (30_encoding.md R70): a capacity, a chunk, an upstream code. A chunk's length is
checked by `precheckSet` (Machine/Ops.lean); a code is opaque and forwarded unchanged.
-/

namespace Sys2Proof.Machine

open Sys2Proof.Config

/-- The legal capacities of ENC: any size from 2048 to `MAX_CAP` (00_scope.md R7). -/
abbrev encCapLegal (p : Params) (cap : Nat) : Prop := ENC_MIN_CAP ≤ cap ∧ cap ≤ p.maxCap

/-- The legal capacities of DEC and DOS: a multiple of 8 from 8 to `MAX_CAP` (R7). -/
abbrev decCapLegal (p : Params) (cap : Nat) : Prop := DEC_MIN_CAP ≤ cap ∧ cap % WORD = 0 ∧ cap ≤ p.maxCap

/-- The value of a capacity operand: ARG, zero-extended (R70). -/
def capOf (arg : BitVec 24) : Nat := arg.toNat

end Sys2Proof.Machine
end

