-- ==== Sys2Proof/Machine/Control.lean ====
section
/-!
DEFINITION. The control commands every unit has: STATUS and ABORT (44_control.md R133, R134), and the answer to an
illegal command word (R132).
-/

namespace Sys2Proof.Machine

/-- `ENC.STATUS`: accepted in every state; it changes nothing (R133). -/
def encStatusCommand (u : Enc) : CommandEnd Enc := .respond u (.status (encStatus u))

/-- `DEC.STATUS` (R133). -/
def decStatusCommand (u : Decoder) : CommandEnd Decoder := .respond u (.status (decStatus u))

/-- `DOS.STATUS` (R133). -/
def dosStatusCommand (u : Dos) : CommandEnd Dos := .respond u (.status (dosStatus u))

/-- `ENC.ABORT code`: fail with UPSTREAM, forwarding the code (R134). -/
def encAbortCommand (code : BitVec 24) (u : Enc) : CommandEnd Enc :=
  checked (precheck u.toCommon) u (failEnc .upstream code u)

/-- `DEC.ABORT code` (R134). -/
def decAbortCommand (code : BitVec 24) (u : Decoder) : CommandEnd Decoder :=
  checked (precheck u.toCommon) u (failDec .upstream code u)

/-- `DOS.ABORT code` (R134). -/
def dosAbortCommand (code : BitVec 24) (u : Dos) : CommandEnd Dos :=
  checked (precheck u.toCommon) u (failDos .upstream code u)

/-- `ENC.STATUS` (R133). -/
def execEncStatus (s : State) : Host.Outcome State Fault Refusal := s.closeEnc (encStatusCommand s.enc)

/-- `DEC.STATUS` (R133). -/
def execDecStatus (s : State) : Host.Outcome State Fault Refusal := s.closeDec (decStatusCommand s.dec)

/-- `DOS.STATUS` (R133). -/
def execDosStatus (s : State) : Host.Outcome State Fault Refusal := s.closeDos (dosStatusCommand s.dos)

/-- `ENC.ABORT` (R134). -/
def execEncAbort (code : BitVec 24) (s : State) : Host.Outcome State Fault Refusal :=
  s.closeEnc (encAbortCommand code s.enc)

/-- `DEC.ABORT` (R134). -/
def execDecAbort (code : BitVec 24) (s : State) : Host.Outcome State Fault Refusal :=
  s.closeDec (decAbortCommand code s.dec)

/-- `DOS.ABORT` (R134). -/
def execDosAbort (code : BitVec 24) (s : State) : Host.Outcome State Fault Refusal :=
  s.closeDos (dosAbortCommand code s.dos)

/-- The answer to an illegal command word: ERROR(ILLEGAL), and no state of any unit changes (R71, R132). -/
def State.refuseIllegal (s : State) : State := s.deliver (raise .illegal)

end Sys2Proof.Machine
end

