-- ==== Sys2Proof/Machine/Tag.lean ====
section
/-!
DEFINITION. Word and tag arithmetic (40_tag.md R78 to R83): pure functions that read and write no state and
raise no error. A word is a byte sequence of length 8.
-/

namespace Sys2Proof.Machine

open Sys2Proof.Config

/-- The bits of a tag, bit 0 first ("LSB first", 00_scope.md R10). -/
def tagBits (t : Byte) : List Bool := (List.range WORD).map fun i => t.getLsbD i

/-- `tag(w)`: bit `i` is 1 if and only if byte `i` of the word is non-zero (R78). -/
def tag (w : List Byte) : Byte :=
  ((List.range WORD).map fun i => if w.getD i 0#8 ≠ 0#8 then 1#8 <<< i else 0#8).sum

/-- `popcount(t)`: the number of 1 bits of a tag (R79). -/
def popcount (t : Byte) : Nat := ((tagBits t).map Bool.toNat).sum

/-- The three classes of tag (30_encoding.md R57). -/
inductive TagClass where
  | zero
  | verb
  | lit
  deriving DecidableEq, Repr

/-- `class(t)`, total over all 256 tags (R80). -/
def tagClass (t : Byte) : TagClass :=
  if t = TAG_ZERO then .zero else if t = TAG_VERB then .verb else .lit

/-- `head(t)`: the number of packed bytes of a group's head: tag, payload, and count byte if there is one (R81). -/
def head (t : Byte) : Nat :=
  1 + popcount t + (if t = TAG_ZERO ∨ t = TAG_VERB then 1 else 0)

/-- `packWord(w)`: the tag byte, then the non-zero bytes in order (R82). -/
def packWord (w : List Byte) : List Byte := tag w :: w.filter (· ≠ 0#8)

/-- Assembling a tagged word (30_encoding.md R58): for each bit of the tag, a 1 takes the next payload byte and a 0
writes `0x00`. Also answers the payload bytes left over. -/
def spreadPayload : List Bool → List Byte → List Byte × List Byte
  | [], s => ([], s)
  | false :: bits, s => (0#8 :: (spreadPayload bits s).1, (spreadPayload bits s).2)
  | true :: bits, s => (s.headD 0#8 :: (spreadPayload bits s.tail).1, (spreadPayload bits s.tail).2)

/-- What a Start group's head decodes to: a word, and the decode state it leaves (R83). -/
structure Head where
  word : List Byte
  main : DecMain
  cnt : Nat
  deriving DecidableEq, Repr

/-- The state a range with count byte `c` enters: `Start` for 0, else the range with `8 × c` bytes owed (R83). -/
def rangeState (m : DecMain) (c : Byte) (w : List Byte) : Head :=
  if 0 < c.toNat then { word := w, main := m, cnt := 8 * c.toNat } else { word := w, main := .start, cnt := 0 }

/-- `unpackHead(s)`: decode a Start group's head, given its `head(s[0])` bytes (R83). The count byte is the byte after
the payload. -/
def unpackHead (s : List Byte) : Head :=
  let t := s.headD 0#8
  let (w, rest) := spreadPayload (tagBits t) s.tail
  match tagClass t with
  | .zero => rangeState .zeroRange (rest.headD 0#8) w
  | .verb => rangeState .verbatimRange (rest.headD 0#8) w
  | .lit => { word := w, main := .start, cnt := 0 }

end Sys2Proof.Machine
end

