-- ==== Sys2Proof/Machine/DecodeMachine.lean ====
section
/-!
DEFINITION. The decode state machine DEC and DOS share (41_decode_machine.md R86 to R103). `OUTM` is the unit's output
memory: `DEC.OUT` or `DOS.TGT`.

`OutFull(U, o)` (R87) ends a procedure with the offset `o`; what the command then answers (`emit(o)` for DEC, the fatal
CAPACITY for DOS) is said by the commands. The rules set `DOS.W` to the offset each unit reaches; a DOS command
starts at `DOS.W` and writes the last offset back when the run ends (log 8).
-/

namespace Sys2Proof.Machine

open Sys2Proof.Config

/-- A decode procedure: it gives a value, or ends because the output is full at an offset (R87), or stops. -/
abbrev DecFlow (α : Type) := Flow Decoder Nat α

/-- `syncBytes(U, b0)`: the number of packed bytes the next unit needs (R86). -/
def syncBytes (d : Decoder) (b0 : Byte) : Nat :=
  match d.main with
  | .start => head b0
  | .verbatimRange => 8
  | .zeroRange => 0

/-- The state after `k` owed bytes have been paid: the range with what is left, or `Start` (R90, R91). -/
def payRange (d : Decoder) (k : Nat) : Decoder :=
  if d.cnt - k = 0 then { d with main := .start, cnt := 0 } else { d with cnt := d.cnt - k }

/-- `StartUnit(U, o, s)`: one Start group, whose head bytes are `s` (R89). -/
def startUnit (d : Decoder) (o : Nat) (s : List Byte) : DecFlow Nat :=
  if d.cap < o + 8 then .ended d o
  else .access (memWrite d.outm d.cap o (unpackHead s).word) fun m =>
    .back { d with outm := m, main := (unpackHead s).main, cnt := (unpackHead s).cnt } (o + 8)

/-- `VerbUnit(U, o, s)`: one word of a verbatim range, copied unchanged (R90). -/
def verbUnit (d : Decoder) (o : Nat) (s : List Byte) : DecFlow Nat :=
  if d.cap < o + 8 then .ended d o
  else .access (memWrite d.outm d.cap o s) fun m => .back (payRange { d with outm := m } 8) (o + 8)

/-- `ZeroUnit(U, o)`: zero words owed by a zero range, as many as there is space for (R91). -/
def zeroUnit (d : Decoder) (o : Nat) : DecFlow Nat :=
  if o = d.cap then .ended d o
  else
    let k := min d.cnt (d.cap - o)
    .access (memWrite d.outm d.cap o (zeros k)) fun m => .back (payRange { d with outm := m } k) (o + k)

/-- `RunUnit(U, o, s)`; it is never called in `ZeroRange` (R92, log 4). -/
def runUnit (d : Decoder) (o : Nat) (s : List Byte) : DecFlow Nat :=
  match d.main with
  | .start => startUnit d o s
  | .verbatimRange => verbUnit d o s
  | .zeroRange => .stop .outsideRules

/-- Read the Remainder. -/
def readRem (d : Decoder) (a n : Nat) : Except Fault (List Byte) := memRead d.rem REM_CAP a n

/-- Read the current chunk. -/
def readChunk (p : Params) (c : Common) (a n : Nat) : Except Fault (List Byte) := memRead c.input p.maxIn a n

/-- Take the first `t` bytes out of the Remainder: shift the rest down and shorten it (R100 step 3, R103). -/
def dropRem {α : Type} (d : Decoder) (t : Nat) (k : Decoder → DecFlow α) : DecFlow α :=
  .access (readRem d t (d.remlen - t)) fun rest =>
    .access (memWrite d.rem REM_CAP 0 rest) fun m => k { d with rem := m, remlen := d.remlen - t }

/-- Append the next `n` chunk bytes to the bytes of the Remainder, and take them out of the chunk (R100 steps 4 and 5,
R102). `REMLEN` is left to the caller. -/
def appendRem {α : Type} (p : Params) (d : Decoder) (n : Nat) (k : Decoder → DecFlow α) : DecFlow α :=
  .access (readChunk p d.toCommon d.inptr n) fun bs =>
    .access (memWrite d.rem REM_CAP d.remlen bs) fun m => k { d with rem := m, inptr := d.inptr + n }

/-- Phase 1, the Remainder synchronisation (R100). It gives the offset reached, and whether phases 2 and 3 follow: step 5
ends the run instead. `fuel` bounds the loop (log 4). -/
def syncPhase (p : Params) : Nat → Decoder → Nat → DecFlow (Nat × Bool)
  | 0, _, _ => .stop .outsideRules
  | fuel + 1, d, o =>
    if d.remlen = 0 then .back d (o, true)
    else if d.main = .zeroRange then (zeroUnit d o).bind fun d o => syncPhase p fuel d o
    else .access (readRem d 0 1) fun b0 =>
      let need := syncBytes d (b0.headD 0#8)
      if need ≤ d.remlen then
        .access (readRem d 0 need) fun s =>
          (runUnit d o s).bind fun d o => dropRem d need fun d => syncPhase p fuel d o
      else if need ≤ d.remlen + d.inleft then
        if d.cap < o + 8 then .ended d o
        else appendRem p d (need - d.remlen) fun d =>
          .access (readRem d 0 need) fun s =>
            (runUnit d o s).bind fun d o => syncPhase p fuel { d with remlen := 0 } o
      else appendRem p d d.inleft fun d' => .back { d' with remlen := d.remlen + d.inleft } (o, false)

/-- Phase 2, the main path, entered with an empty Remainder (R101). -/
def mainPhase (p : Params) : Nat → Decoder → Nat → DecFlow Nat
  | 0, _, _ => .stop .outsideRules
  | fuel + 1, d, o =>
    match d.main with
    | .zeroRange => (zeroUnit d o).bind fun d o => mainPhase p fuel d o
    | .verbatimRange =>
      if d.inleft < 8 then .back d o
      else .access (readChunk p d.toCommon d.inptr 8) fun s =>
        (verbUnit d o s).bind fun d o => mainPhase p fuel { d with inptr := d.inptr + 8 } o
    | .start =>
      if d.inleft < FAST_MARGIN then .back d o
      else .access (readChunk p d.toCommon d.inptr 1) fun b0 =>
        let need := head (b0.headD 0#8)
        .access (readChunk p d.toCommon d.inptr need) fun s =>
          (startUnit d o s).bind fun d o => mainPhase p fuel { d with inptr := d.inptr + need } o

/-- Phase 3, intern: the bytes left in the chunk go into the empty Remainder (R102). -/
def internPhase (p : Params) (d : Decoder) (o : Nat) : DecFlow Nat :=
  appendRem p { d with remlen := 0 } d.inleft fun d' => .back { d' with remlen := d.inleft } o

/-- The drain: no more input will come, so every unit whose bytes are all present runs (R103). -/
def drain (p : Params) : Nat → Decoder → Nat → DecFlow Nat
  | 0, _, _ => .stop .outsideRules
  | fuel + 1, d, o =>
    if d.main = .zeroRange then (zeroUnit d o).bind fun d o => drain p fuel d o
    else if d.remlen + d.inleft = 0 then .back d o
    else .access (if 0 < d.remlen then readRem d 0 1 else readChunk p d.toCommon d.inptr 1) fun b0 =>
      let need := syncBytes d (b0.headD 0#8)
      if d.remlen + d.inleft < need then .back d o
      else if d.cap < o + 8 then .ended d o
      else
        let t := min need d.remlen
        .access (readRem d 0 t) fun front =>
          .access (readChunk p d.toCommon d.inptr (need - t)) fun back =>
            dropRem d t fun d =>
              (runUnit { d with inptr := d.inptr + (need - t) } o (front ++ back)).bind fun d o => drain p fuel d o

/-- A bound on the passes of a decode loop: each unit but a zero run consumes at least one of the bytes left, and no two
zero runs follow one another (log 4). -/
def decodeFuel (d : Decoder) : Nat := d.remlen + d.inleft + 4

/-- `DecRun(U, final)` from the output offset `o` (R99): the drain when `final`, else phases 1, 2 and 3 in order. -/
def decRun (p : Params) (d : Decoder) (o : Nat) (final : Bool) : DecFlow Nat :=
  if final then drain p (decodeFuel d) d o
  else (syncPhase p (decodeFuel d) d o).bind fun d r =>
    if r.2 then (mainPhase p (decodeFuel d) d r.1).bind fun d o => internPhase p d o
    else .back d r.1

end Sys2Proof.Machine
end

