-- ==== Sys2Proof/Machine/DecCommands.lean ====
section
/-!
DEFINITION. The commands of the streaming decoder DEC (42_decode_engines.md R108 to R111).
-/

namespace Sys2Proof.Machine

open Sys2Proof.Config

/-- INIT of DEC, or of the fields DOS shares with it: every field takes its reset value, then an illegal capacity raises
CONFIG, and a legal one configures the unit (R108). -/
def initDecoder (p : Params) (cap : Nat) : Decoder × Response :=
  if decCapLegal p cap then ({ Decoder.reset with cap := cap, cfg := true }, .ok)
  else (Decoder.reset, raise .config)

/-- An OUTPUT of the first `o` bytes of the output memory (R88, R110). -/
def outputDec (d : Decoder) (o : Nat) : CommandEnd Decoder :=
  .access (memRead d.outm d.cap 0 o) fun bs => .respond d (.output bs)

/-- `emit(o)`: OUTPUT if anything was produced, else NONE (R88). -/
def emitDec (d : Decoder) (o : Nat) : CommandEnd Decoder :=
  if 0 < o then outputDec d o else .respond d .none

/-- `DEC.INIT cap` (R108). INIT is accepted in every state. -/
def decInitCommand (p : Params) (cap : Nat) : CommandEnd Decoder :=
  .respond (initDecoder p cap).1 (initDecoder p cap).2

/-- `DEC.SET s` (R109). -/
def decSetCommand (p : Params) (s : List Byte) (d : Decoder) : CommandEnd Decoder :=
  checked (precheckSet p false s.length d.toCommon) d <|
    .access (installChunk p s d.toCommon) fun c => .respond { d with toCommon := c } .ok

/-- `DEC.NEXT` (R110). The command ends with `emit(o)` whether the run returned or the output was full (R87). -/
def decNextCommand (p : Params) (d : Decoder) : CommandEnd Decoder :=
  checked (precheck d.toCommon) d <|
    match decRun p d 0 false with
    | .back d o => emitDec d o
    | .ended d o => emitDec d o
    | .stop f => .stop f

/-- `DEC.FLUSH` (R111): OUTPUT while the drain produces bytes, then DONE if the unit is quiescent, else the fatal
MALFORMED. -/
def decFlushCommand (p : Params) (d : Decoder) : CommandEnd Decoder :=
  checked (precheck d.toCommon) d <|
    match decRun p d 0 true with
    | .back d o =>
      if 0 < o then outputDec d o
      else if d.quiescent then .respond d .done
      else failDec .malformed 0#24 d
    | .ended d o => emitDec d o
    | .stop f => .stop f

/-- `DEC.INIT` (R108). -/
def execDecInit (cap : BitVec 24) (s : State) : Host.Outcome State Fault Refusal :=
  s.closeDec (decInitCommand s.params (capOf cap))

/-- `DEC.SET` (R109). -/
def execDecSet (chunk : List Byte) (s : State) : Host.Outcome State Fault Refusal :=
  s.closeDec (decSetCommand s.params chunk s.dec)

/-- `DEC.NEXT` (R110). -/
def execDecNext (s : State) : Host.Outcome State Fault Refusal :=
  s.closeDec (decNextCommand s.params s.dec)

/-- `DEC.FLUSH` (R111). -/
def execDecFlush (s : State) : Host.Outcome State Fault Refusal :=
  s.closeDec (decFlushCommand s.params s.dec)

end Sys2Proof.Machine
end

