-- ==== Sys2Proof/Machine/DosCommands.lean ====
section
/-!
DEFINITION. The commands of the one-shot decoder DOS (42_decode_engines.md R112 to R114).
-/

namespace Sys2Proof.Machine

open Sys2Proof.Config

/-- DOS after a run of the decode machine that ended at the output offset `o`: `DOS.W = o` (R89 to R91, log 8). -/
def dosAt (d : Decoder) (o : Nat) : Dos := { d with w := o }

/-- `OutFull` for DOS: the fatal CAPACITY; the units before it are counted by `DOS.W` (R87, R141). -/
def dosFull (d : Decoder) (o : Nat) : CommandEnd Dos := failDos .capacity 0#24 (dosAt d o)

/-- `DOS.INIT cap`: as `DEC.INIT`, and `DOS.W <- 0` (R112). -/
def dosInitCommand (p : Params) (cap : Nat) : CommandEnd Dos :=
  .respond (dosAt (initDecoder p cap).1 0) (initDecoder p cap).2

/-- `DOS.SET s`: install the chunk and decode it into the target at once (R113). -/
def dosSetCommand (p : Params) (s : List Byte) (u : Dos) : CommandEnd Dos :=
  checked (precheckSet p false s.length u.toCommon) u <|
    .access (installChunk p s u.toCommon) fun c =>
      match decRun p { u.toDecoder with toCommon := c } u.w false with
      | .back d o => .respond (dosAt d o) .ok
      | .ended d o => dosFull d o
      | .stop f => .stop f

/-- `DOS.FINISH`: drain the Remainder and return the decoded output (R114). -/
def dosFinishCommand (p : Params) (u : Dos) : CommandEnd Dos :=
  checked (precheck u.toCommon) u <|
    match decRun p u.toDecoder u.w true with
    | .back d o =>
      if d.quiescent then
        .access (memRead d.outm d.cap 0 o) fun bs => .respond (dosAt d 0) (.result bs)
      else failDos .malformed 0#24 (dosAt d o)
    | .ended d o => dosFull d o
    | .stop f => .stop f

/-- `DOS.INIT` (R112). -/
def execDosInit (cap : BitVec 24) (s : State) : Host.Outcome State Fault Refusal :=
  s.closeDos (dosInitCommand s.params (capOf cap))

/-- `DOS.SET` (R113). -/
def execDosSet (chunk : List Byte) (s : State) : Host.Outcome State Fault Refusal :=
  s.closeDos (dosSetCommand s.params chunk s.dos)

/-- `DOS.FINISH` (R114). -/
def execDosFinish (s : State) : Host.Outcome State Fault Refusal :=
  s.closeDos (dosFinishCommand s.params s.dos)

end Sys2Proof.Machine
end

