-- ==== Sys2Proof/Machine/EncodeMachine.lean ====
section
/-!
DEFINITION. The encode machine of ENC (43_encode.md R116 to R123).
-/

namespace Sys2Proof.Machine

open Sys2Proof.Config

/-- An encode procedure: it gives a value, or ends the command with a response, or stops. -/
abbrev EncFlow (α : Type) := Flow Enc Response α

/-- End the command with `emitE(o, final)` (R116): OUTPUT if anything was produced, else DONE for a FLUSH and NONE for a
NEXT. -/
def emitE {α : Type} (u : Enc) (o : Nat) (final : Bool) : EncFlow α :=
  if 0 < o then .access (memRead u.out u.cap 0 o) fun bs => .ended u (.output bs)
  else if final then .ended u .done
  else .ended u .none

/-- Write bytes into the output buffer, and go on with the unit that holds them. -/
def putOut {α : Type} (u : Enc) (a : Nat) (bs : List Byte) (k : Enc → EncFlow α) : EncFlow α :=
  .access (memWrite u.out u.cap a bs) fun m => k { u with out := m }

/-- Whether a word joins a verbatim range: a population count of at least 7 (R119, R121, R131). -/
def joinsVerbatim (w : List Byte) : Bool := VERB_MIN_POP ≤ popcount (tag w)

/-- A bound on the passes of a range scan: 255 extra words, and the pass that ends it (log 4). -/
abbrev scanFuel : Nat := MAX_COUNT + 1

/-- `ContEnter()`: reserve `ENC.OUT[0]` for the count byte (R118). -/
def contEnter (u : Enc) : Enc := { u with cont := .continuing, cend := 1 }

/-- The scan of a continuation, one word a pass; it gives the end offset `e` when the range's end is found, and ends the
command with NONE when the chunk runs out first (R119). -/
def contLoop (p : Params) (final : Bool) : Nat → Enc → Nat → EncFlow Nat
  | 0, _, _ => .stop .outsideRules
  | fuel + 1, u, e =>
    if e - 1 = MAX_EXTRA then .back u e
    else if u.inptr = u.inlen then
      if final then .back u e else .ended { u with cend := e } .none
    else .access (readChunk p u.toCommon u.inptr 8) fun w =>
      if joinsVerbatim w then
        putOut u e w fun u => contLoop p final fuel { u with inptr := u.inptr + 8, cend := e + 8 } (e + 8)
      else .back u e

/-- `ContScan(final)`: scan, then write the count into the reserved byte and clear the continuation (R119). -/
def contScan (p : Params) (u : Enc) (final : Bool) : EncFlow Nat :=
  (contLoop p final scanFuel u u.cend).bind fun u e =>
    putOut u 0 [BitVec.ofNat 8 ((e - 1) / 8)] fun u => .back { u with cont := .none, cend := 0 } e

/-- The peek of `StartVerb`: how many bytes `j` of words join the range, and where the peek stops (R121). -/
def peekVerb (p : Params) (c : Common) : Nat → Nat → Nat → Except Fault (Nat × Nat)
  | 0, _, _ => .error .outsideRules
  | fuel + 1, j, q =>
    if j < MAX_EXTRA ∧ q < c.inlen then
      match readChunk p c q 8 with
      | .ok w => if joinsVerbatim w then peekVerb p c fuel (j + 8) (q + 8) else .ok (j, q)
      | .error f => .error f
    else .ok (j, q)

/-- `StartVerb(o, final)`: open a verbatim range after a `0xff` word (R121). -/
def startVerb (p : Params) (u : Enc) (o : Nat) (final : Bool) : EncFlow Nat :=
  .access (peekVerb p u.toCommon scanFuel 0 u.inptr) fun jq =>
    if jq.1 = MAX_EXTRA ∨ jq.2 < u.inlen ∨ final = true then
      putOut u o [BitVec.ofNat 8 (jq.1 / 8)] fun u =>
        if 0 < jq.1 then .back { u with main := .verbatimRangeWriting, mcnt := jq.1 } (o + 1)
        else .back u (o + 1)
    else emitE { u with cont := .initializing } o final

/-- `StartWord(o, final)`: encode one word from `Start` (R120). -/
def startWord (p : Params) (u : Enc) (o : Nat) (final : Bool) : EncFlow Nat :=
  if u.inptr = u.inlen then emitE u o final
  else .access (readChunk p u.toCommon u.inptr 8) fun w =>
    if u.cap < o + head (tag w) then emitE u o final
    else putOut u o (packWord w) fun u =>
      let u := { u with inptr := u.inptr + 8 }
      let o := o + (packWord w).length
      match tagClass (tag w) with
      | .zero => .back { u with main := .zeroRangeWriting, mcnt := 0 } o
      | .verb => startVerb p u o final
      | .lit => .back u o

/-- The scan of a zero range, one word a pass, with the count `n` so far (R122). -/
def zLoop (p : Params) (o : Nat) (final : Bool) : Nat → Enc → Nat → EncFlow Nat
  | 0, _, _ => .stop .outsideRules
  | fuel + 1, u, n =>
    if n = MAX_EXTRA then .back u n
    else if u.inptr = u.inlen then
      if final then .back u n else emitE u o final
    else .access (readChunk p u.toCommon u.inptr 8) fun w =>
      if tag w ≠ TAG_ZERO then .back u n
      else zLoop p o final fuel { u with inptr := u.inptr + 8, mcnt := n + 8 } (n + 8)

/-- `ZScan(o, final)`: zero-range accumulation, then its count byte (R122). -/
def zScan (p : Params) (u : Enc) (o : Nat) (final : Bool) : EncFlow Nat :=
  (zLoop p o final scanFuel u u.mcnt).bind fun u n =>
    if u.cap < o + 1 then emitE u o final
    else putOut u o [BitVec.ofNat 8 (n / 8)] fun u => .back { u with main := .start, mcnt := 0 } (o + 1)

/-- `VWrite(o, final)`: copy a verbatim range's extra bytes, as many as there is space for (R123). -/
def vWrite (p : Params) (u : Enc) (o : Nat) (final : Bool) : EncFlow Nat :=
  let k := min u.mcnt (u.cap - o)
  if k = 0 then emitE u o final
  else .access (readChunk p u.toCommon u.inptr k) fun bs =>
    putOut u o bs fun u =>
      let u := { u with inptr := u.inptr + k }
      if 0 < u.mcnt - k then emitE { u with mcnt := u.mcnt - k } (o + k) final
      else .back { u with main := .start, mcnt := 0 } (o + k)

/-- One pass of the main machine (R117). -/
def encPass (p : Params) (u : Enc) (o : Nat) (final : Bool) : EncFlow Nat :=
  match u.main with
  | .start => startWord p u o final
  | .zeroRangeWriting => zScan p u o final
  | .verbatimRangeWriting => vWrite p u o final

/-- The main machine's loop; it ends only when a pass ends the command (R117). -/
def encLoop (p : Params) (final : Bool) : Nat → Enc → Nat → EncFlow Nat
  | 0, _, _ => .stop .outsideRules
  | fuel + 1, u, o => (encPass p u o final).bind fun u o => encLoop p final fuel u o

/-- A bound on the passes of the main machine: each pass consumes input or ends the command, but one that returns to
`Start`, after which the next one does (R117, log 4). -/
def encodeFuel (u : Enc) : Nat := u.inleft + 4

/-- The continuation part of `EncRun`: `ContEnter` in `Initializing`, then `ContScan` in `Continuing` (R117). -/
def contPhase (p : Params) (u : Enc) (final : Bool) : EncFlow Nat :=
  match u.cont with
  | .none => .back u 0
  | .initializing => contScan p (contEnter u) final
  | .continuing => contScan p u final

/-- `EncRun(final)` (R117): the continuation first, then the main machine. -/
def encRun (p : Params) (u : Enc) (final : Bool) : EncFlow Nat :=
  (contPhase p u final).bind fun u o => encLoop p final (encodeFuel u) u o

end Sys2Proof.Machine
end

