-- ==== Sys2Proof/Machine/EncCommands.lean ====
section
/-!
DEFINITION. The commands of the encoder ENC (43_encode.md R124 to R127).
-/

namespace Sys2Proof.Machine

open Sys2Proof.Config

/-- `ENC.INIT cap`: every field takes its reset value, then an illegal capacity raises CONFIG, and a legal one configures
the unit (R124). INIT is accepted in every state. -/
def encInitCommand (p : Params) (cap : Nat) : CommandEnd Enc :=
  if encCapLegal p cap then .respond { Enc.reset with cap := cap, cfg := true } .ok
  else .respond Enc.reset (raise .config)

/-- `ENC.SET s` (R125): the chunk must be a whole number of words. -/
def encSetCommand (p : Params) (s : List Byte) (u : Enc) : CommandEnd Enc :=
  checked (precheckSet p true s.length u.toCommon) u <|
    .access (installChunk p s u.toCommon) fun c => .respond { u with toCommon := c } .ok

/-- Run the encode machine; it ends the command itself (R117, log 4). -/
def encRunCommand (p : Params) (final : Bool) (u : Enc) : CommandEnd Enc :=
  checked (precheck u.toCommon) u <|
    match encRun p u final with
    | .ended u r => .respond u r
    | .back _ _ => .stop .outsideRules
    | .stop f => .stop f

/-- `ENC.NEXT` (R126). -/
def encNextCommand (p : Params) (u : Enc) : CommandEnd Enc := encRunCommand p false u

/-- `ENC.FLUSH` (R127). -/
def encFlushCommand (p : Params) (u : Enc) : CommandEnd Enc := encRunCommand p true u

/-- `ENC.INIT` (R124). -/
def execEncInit (cap : BitVec 24) (s : State) : Host.Outcome State Fault Refusal :=
  s.closeEnc (encInitCommand s.params (capOf cap))

/-- `ENC.SET` (R125). -/
def execEncSet (chunk : List Byte) (s : State) : Host.Outcome State Fault Refusal :=
  s.closeEnc (encSetCommand s.params chunk s.enc)

/-- `ENC.NEXT` (R126). -/
def execEncNext (s : State) : Host.Outcome State Fault Refusal :=
  s.closeEnc (encNextCommand s.params s.enc)

/-- `ENC.FLUSH` (R127). -/
def execEncFlush (s : State) : Host.Outcome State Fault Refusal :=
  s.closeEnc (encFlushCommand s.params s.enc)

end Sys2Proof.Machine
end

