-- ==== Sys2Proof/Machine/Dispatch.lean ====
section
/-! DEFINITION. The dispatch: one arm per command, one meaning per arm (44_control.md R132). -/

namespace Sys2Proof.Machine

def exec (i : Instr) (s : State) : Host.Outcome State Fault Refusal :=
  match i with
  | .encInit cap => Sys2Proof.Machine.execEncInit cap s
  | .encSet chunk => Sys2Proof.Machine.execEncSet chunk s
  | .encNext => Sys2Proof.Machine.execEncNext s
  | .encFlush => Sys2Proof.Machine.execEncFlush s
  | .encAbort code => Sys2Proof.Machine.execEncAbort code s
  | .encStatus => Sys2Proof.Machine.execEncStatus s
  | .decInit cap => Sys2Proof.Machine.execDecInit cap s
  | .decSet chunk => Sys2Proof.Machine.execDecSet chunk s
  | .decNext => Sys2Proof.Machine.execDecNext s
  | .decFlush => Sys2Proof.Machine.execDecFlush s
  | .decAbort code => Sys2Proof.Machine.execDecAbort code s
  | .decStatus => Sys2Proof.Machine.execDecStatus s
  | .dosInit cap => Sys2Proof.Machine.execDosInit cap s
  | .dosSet chunk => Sys2Proof.Machine.execDosSet chunk s
  | .dosFinish => Sys2Proof.Machine.execDosFinish s
  | .dosAbort code => Sys2Proof.Machine.execDosAbort code s
  | .dosStatus => Sys2Proof.Machine.execDosStatus s

end Sys2Proof.Machine
end

