-- ==== Sys2Proof/WellFormed.lean ====
section
/-!
DEFINITION. Which commands the command port can carry. ARG is 24 bits wide (30_encoding.md R68) and a SET
carries exactly ARG bytes (R67), so a chunk has at most `2^24 - 1` bytes. Capacities and abort codes are 24 bits
by their type. What a unit then accepts (its capacity range, `MAX_IN`, the multiple-of-8 rule) is decided by the
command's meaning, which answers with an ERROR, not by well-formedness.
-/

namespace Sys2Proof

/-- A chunk's length fits ARG. -/
abbrev chunkFits (chunk : List Byte) : Prop := chunk.length < 2 ^ 24

/-- The commands the port can carry. -/
def Instr.WellFormed : Instr → Prop
  | .encSet chunk => chunkFits chunk
  | .decSet chunk => chunkFits chunk
  | .dosSet chunk => chunkFits chunk
  | .encInit _ => True
  | .encNext => True
  | .encFlush => True
  | .encAbort _ => True
  | .encStatus => True
  | .decInit _ => True
  | .decNext => True
  | .decFlush => True
  | .decAbort _ => True
  | .decStatus => True
  | .dosInit _ => True
  | .dosFinish => True
  | .dosAbort _ => True
  | .dosStatus => True

end Sys2Proof
end

