-- ==== Sys2Proof/Decode.lean ====
section
/-!
DEFINITION. Decoding a command of the command port, and encoding one (30_encoding.md R68 to R71).
Decoding is total and rejects by name; the encoder is written from the same opcode map (R69).
-/

namespace Sys2Proof

/-- Why a transaction on the command port is not a command. -/
inductive DecodeError where
  /-- The command word is illegal (R71): answered with ERROR(ILLEGAL), no state changed. -/
  | illegal
  /-- The word is legal, but the data bytes are not what R67 says it carries: ARG bytes for a SET, none otherwise. -/
  | dataLength
  deriving DecidableEq, Repr

/-- `ARG = CMD[31:8]` (R68, R70). -/
def argOf (w : BitVec 32) : BitVec 24 := w.extractLsb' 8 24

/-- `OPCODE = CMD[7:0]` (R68). -/
def opcodeOf (w : BitVec 32) : BitVec 8 := w.extractLsb' 0 8

/-- `CMD = {ARG, OPCODE}` (R68). -/
def commandWord (arg : BitVec 24) (opcode : BitVec 8) : BitVec 32 := arg ++ opcode

/-- An INIT or ABORT: ARG is its operand, and it carries no data (R67, R70). -/
def decodeArg (c : Command) (k : BitVec 24 → Instr) : Except DecodeError Instr :=
  if c.data = [] then .ok (k (argOf c.word)) else .error .dataLength

/-- A SET: its data are its chunk, exactly ARG bytes (R67, R70). -/
def decodeSet (c : Command) (k : List Byte → Instr) : Except DecodeError Instr :=
  if c.data.length = (argOf c.word).toNat then .ok (k c.data) else .error .dataLength

/-- A NEXT, FLUSH, FINISH or STATUS: ARG must be 0, else the word is illegal (R70, R71); no data (R67). -/
def decodeNone (c : Command) (i : Instr) : Except DecodeError Instr :=
  if argOf c.word ≠ 0 then .error .illegal
  else if c.data = [] then .ok i else .error .dataLength

/-- The opcode map of R69. Every other opcode is illegal (R71). The legality of the word is judged before the
number of data bytes, since ILLEGAL is tested before everything else (R132, R142). -/
def decode (c : Command) : Except DecodeError Instr :=
  match (opcodeOf c.word).toNat with
  | 0x10 => decodeArg c .encInit
  | 0x11 => decodeSet c .encSet
  | 0x12 => decodeNone c .encNext
  | 0x13 => decodeNone c .encFlush
  | 0x1d => decodeArg c .encAbort
  | 0x1e => decodeNone c .encStatus
  | 0x20 => decodeArg c .decInit
  | 0x21 => decodeSet c .decSet
  | 0x22 => decodeNone c .decNext
  | 0x23 => decodeNone c .decFlush
  | 0x2d => decodeArg c .decAbort
  | 0x2e => decodeNone c .decStatus
  | 0x30 => decodeArg c .dosInit
  | 0x31 => decodeSet c .dosSet
  | 0x33 => decodeNone c .dosFinish
  | 0x3d => decodeArg c .dosAbort
  | 0x3e => decodeNone c .dosStatus
  | _ => .error .illegal

/-- The command word of a SET of `chunk`, with the chunk as its data. -/
def encodeSet (chunk : List Byte) (opcode : BitVec 8) : Command :=
  { word := commandWord (BitVec.ofNat 24 chunk.length) opcode, data := chunk }

/-- A command without data. -/
def encodeArg (arg : BitVec 24) (opcode : BitVec 8) : Command :=
  { word := commandWord arg opcode, data := [] }

/-- The transaction that carries a well-formed command (R67 to R69). -/
def encode : Instr → Command
  | .encInit cap => encodeArg cap 0x10#8
  | .encSet chunk => encodeSet chunk 0x11#8
  | .encNext => encodeArg 0 0x12#8
  | .encFlush => encodeArg 0 0x13#8
  | .encAbort code => encodeArg code 0x1d#8
  | .encStatus => encodeArg 0 0x1e#8
  | .decInit cap => encodeArg cap 0x20#8
  | .decSet chunk => encodeSet chunk 0x21#8
  | .decNext => encodeArg 0 0x22#8
  | .decFlush => encodeArg 0 0x23#8
  | .decAbort code => encodeArg code 0x2d#8
  | .decStatus => encodeArg 0 0x2e#8
  | .dosInit cap => encodeArg cap 0x30#8
  | .dosSet chunk => encodeSet chunk 0x31#8
  | .dosFinish => encodeArg 0 0x33#8
  | .dosAbort code => encodeArg code 0x3d#8
  | .dosStatus => encodeArg 0 0x3e#8

/-- Whether a command word has the opcode of a SET, so that data bytes follow it on the port (R67, R69). -/
def isSetWord (w : BitVec 32) : Bool :=
  opcodeOf w = 0x11#8 || opcodeOf w = 0x21#8 || opcodeOf w = 0x31#8

/-- The transaction of an instruction whose first `nbits` bits are `w` and whose further bits are all 0: the
command word, and for a SET the ARG data bytes that follow it, all `0x00`. -/
def tableCommand (nbits w : Nat) : Command :=
  let word := BitVec.ofNat 32 (w % 2 ^ nbits)
  { word := word, data := if isSetWord word then zeros (argOf word).toNat else [] }

/-- What the decoder reads from an instruction of spec/opcode_table.json whose bits are `w`. -/
def decodeTableWord (nbits w : Nat) : Option Instr :=
  match decode (tableCommand nbits w) with
  | .ok i => some i
  | .error _ => none

end Sys2Proof
end

