-- ==== Sys2Proof/Machine/Fetch.lean ====
section
/-!
DEFINITION. Accepting the host's next event (30_encoding.md R67; 44_control.md R132; 70_reset_and_hazards.md R154).
PACKCODEC fetches no instructions (10_state.md R18): the host sends commands one at a time (log 5).
-/

namespace Sys2Proof.Machine

/-- What the machine finds at its command port. -/
inductive Arrival where
  /-- Nothing has been sent: the machine is idle and keeps its state (R149, R153). -/
  | idle
  /-- A reset event (R154). -/
  | reset
  /-- An illegal command word (R71). -/
  | illegal
  /-- A transaction that breaks the port's protocol (log 7). -/
  | broken
  /-- A command. -/
  | command (i : Instr)
  deriving DecidableEq, Repr

/-- What a transaction on the command port is. -/
def arrivalOf (c : Command) : Arrival :=
  match decode c with
  | .ok i => .command i
  | .error .illegal => .illegal
  | .error .dataLength => .broken

/-- The next event the host has sent, if any. -/
def State.arrival (s : State) : Arrival :=
  match s.pending with
  | [] => .idle
  | .reset :: _ => .reset
  | .command c :: _ => arrivalOf c

/-- The next event has been taken. -/
def State.accept (s : State) : State := { s with pending := s.pending.tail }

/-- The host sends a command, before whatever it was going to send next. -/
def State.issue (s : State) (c : Command) : State := { s with pending := .command c :: s.pending }

end Sys2Proof.Machine
end

