-- ==== Sys2Proof/Machine/Step.lean ====
section
/-!
DEFINITION. One step of PACKCODEC: the machine takes the host's next event and does all of it (20_memory.md R51,
44_control.md R132). A command is one indivisible step, its response delivered at the end (30_encoding.md R72).
-/

namespace Sys2Proof.Machine

def step (s : State) : Host.Outcome State Fault Refusal :=
  match s.arrival with
  | .idle => .next s
  | .reset => .next s.accept.resetUnits
  | .illegal => .next s.accept.refuseIllegal
  | .broken => .refused .portProtocol
  | .command i => exec i s.accept

/-- The state in which the host's next event is the command whose bits are `w` (log 5): only the queue changes. -/
def State.withFetchWord (s : State) (nbits w : Nat) : State := s.issue (tableCommand nbits w)

end Sys2Proof.Machine
end

