-- ==== Sys2Proof/Machine/Reference.lean ====
section
/-!
DEFINITION. The reference functions of the wire format: `pack` (43_encode.md R129) and `unpack` (41_decode_machine.md
R106). They are on whole byte sequences and know nothing of chunks, buffers or units; no meaning calls them. Each
recursion carries a bound that its input cannot exceed.
-/

namespace Sys2Proof.Machine

open Sys2Proof.Config

/-- Whether a word is all zero, so that it joins a zero range (R129). -/
def isZeroWord (w : List Byte) : Bool := tag w = TAG_ZERO

/-- How many bytes of `x` a range takes: whole words from the front, while they satisfy `joins`, at most `k` of them (the
two `while` loops of R129). -/
def rangeBytes (joins : List Byte → Bool) : Nat → List Byte → Nat
  | 0, _ => 0
  | k + 1, x => if x ≠ [] ∧ joins (x.take 8) = true then 8 + rangeBytes joins k (x.drop 8) else 0

/-- The count byte of a range of `n` extra bytes. -/
def countByte (n : Nat) : Byte := BitVec.ofNat 8 (n / 8)

/-- `pack`, with a bound on the number of groups. -/
def packAux : Nat → List Byte → List Byte
  | 0, _ => []
  | fuel + 1, x =>
    if x = [] then []
    else
      let w := x.take 8
      let rest := x.drop 8
      match tagClass (tag w) with
      | .zero =>
        let j := rangeBytes isZeroWord MAX_COUNT rest
        packWord w ++ countByte j :: packAux fuel (rest.drop j)
      | .verb =>
        let j := rangeBytes joinsVerbatim MAX_COUNT rest
        packWord w ++ countByte j :: (rest.take j ++ packAux fuel (rest.drop j))
      | .lit => packWord w ++ packAux fuel rest

/-- `pack(X)`: the packed stream of an uncompressed byte sequence of whole words (R129). -/
def pack (x : List Byte) : List Byte := packAux x.length x

/-- `unpack`, with a bound on the number of groups. -/
def unpackAux : Nat → List Byte → Option (List Byte)
  | _, [] => some []
  | 0, _ :: _ => none
  | fuel + 1, t :: ps =>
    let s := t :: ps
    let h := head t
    if s.length < h then none
    else
      let u := unpackHead (s.take h)
      match u.main with
      | .start => (unpackAux fuel (s.drop h)).map fun r => u.word ++ r
      | .zeroRange => (unpackAux fuel (s.drop h)).map fun r => u.word ++ zeros u.cnt ++ r
      | .verbatimRange =>
        if s.length < h + u.cnt then none
        else (unpackAux fuel (s.drop (h + u.cnt))).map fun r => u.word ++ (s.drop h).take u.cnt ++ r

/-- `unpack(P)`: the decoded stream, or `none` where the spec says MALFORMED (R106). -/
def unpack (s : List Byte) : Option (List Byte) := unpackAux s.length s

end Sys2Proof.Machine
end

