-- ==== Sys2Proof/Safety.lean ====
section
/-!
DEFINITION. The terms the claims use: which states the rules allow at a command boundary (10_state.md R19 to R38,
41_decode_machine.md R97), what a unit still owes to its output stream (41_decode_machine.md R96, R107; 43_encode.md
R130), and the host's macros that drive a stream through a unit (30_encoding.md R77).
-/

namespace Sys2Proof.Machine

open Sys2Proof.Config

/-! ### Legal states -/

/-- The `n` bytes of a memory from `a` on have all been written. -/
abbrev bytesHeld (m : Mem) (a n : Nat) : Prop := (readBytes? m a n).isSome = true

/-- A memory in canonical form that lists addresses of a memory of `size` bytes only (20_memory.md R45). -/
abbrev memWithin (m : Mem) (size : Nat) : Prop := memWf m = true ∧ ∀ c ∈ m, c.1 < size

/-- What the rules say of the fields every unit has (10_state.md R20 to R25): the cursor stays within the chunk, the
chunk's bytes have been written, and `ERR` is 0 unless the unit is FAILED. -/
abbrev Common.Legal (p : Params) (c : Common) : Prop :=
  c.inptr ≤ c.inlen ∧ c.inlen ≤ p.maxIn ∧ memWithin c.input p.maxIn ∧ bytesHeld c.input 0 c.inlen ∧
    (c.failed = false → c.err = 0#4)

/-- `ENC.MAIN` with `ENC.MCNT` (R28, R32 items 2 and 3). A verbatim range ends on a word boundary of the chunk. -/
abbrev Enc.MainLegal (u : Enc) : Prop :=
  (u.main = .start → u.mcnt = 0 ∧ u.inptr % 8 = 0) ∧
  (u.main = .zeroRangeWriting → u.mcnt % 8 = 0 ∧ u.mcnt ≤ 2032 ∧ u.inptr % 8 = 0) ∧
  (u.main = .verbatimRangeWriting →
    1 ≤ u.mcnt ∧ u.mcnt ≤ MAX_EXTRA ∧ u.mcnt ≤ u.inlen - u.inptr ∧ (u.inptr + u.mcnt) % 8 = 0)

/-- `ENC.CONT` with `ENC.CEND` (R29, R30, R31, R32 item 1). -/
abbrev Enc.ContLegal (u : Enc) : Prop :=
  (u.cont ≠ .none → u.main = .start) ∧
  (u.cont ≠ .continuing → u.cend = 0) ∧
  (u.cont = .continuing → u.cend % 8 = 1 ∧ u.cend ≤ 2033 ∧ bytesHeld u.out 1 (u.cend - 1))

/-- The states the rules allow ENC at a command boundary. An unconfigured unit is at its reset values (R19, R124). -/
abbrev Enc.Legal (p : Params) (u : Enc) : Prop :=
  Common.Legal p u.toCommon ∧ (u.cfg = false → u = Enc.reset) ∧ (u.cfg = true → encCapLegal p u.cap) ∧
    u.inlen % 8 = 0 ∧ memWithin u.out u.cap ∧ u.MainLegal ∧ u.ContLegal ∧
    (u.failed = true → u.err = ErrCode.upstream.code)

/-- `MAIN` with `CNT` (R34), and the Remainder (R35, 41_decode_machine.md R97). -/
abbrev Decoder.RangeLegal (d : Decoder) : Prop :=
  (d.main = .start → d.cnt = 0) ∧ (d.main ≠ .start → d.cnt % 8 = 0 ∧ 8 ≤ d.cnt ∧ d.cnt ≤ MAX_EXTRA) ∧
    d.remlen ≤ 9 ∧ memWithin d.rem REM_CAP ∧ bytesHeld d.rem 0 d.remlen

/-- What the rules say of the fields DEC and DOS share. -/
abbrev Decoder.SharedLegal (p : Params) (d : Decoder) : Prop :=
  Common.Legal p d.toCommon ∧ (d.cfg = true → decCapLegal p d.cap) ∧ memWithin d.outm d.cap ∧ d.RangeLegal

/-- The states the rules allow DEC at a command boundary. -/
abbrev Decoder.Legal (p : Params) (d : Decoder) : Prop :=
  d.SharedLegal p ∧ (d.cfg = false → d = Decoder.reset) ∧
    (d.failed = true → d.err = ErrCode.malformed.code ∨ d.err = ErrCode.upstream.code)

/-- The states the rules allow DOS at a command boundary (R38). A unit that has not failed has consumed its whole chunk
(42_decode_engines.md R113). -/
abbrev Dos.Legal (p : Params) (u : Dos) : Prop :=
  u.toDecoder.SharedLegal p ∧ (u.cfg = false → u = Dos.reset) ∧
    (u.failed = true → u.err = ErrCode.malformed.code ∨ u.err = ErrCode.capacity.code ∨ u.err = ErrCode.upstream.code) ∧
    u.w ≤ u.cap ∧ u.w % 8 = 0 ∧ bytesHeld u.outm 0 u.w ∧ (u.failed = false → u.inptr = u.inlen)

/-- The states the rules allow at a command boundary. -/
abbrev State.Legal (s : State) : Prop :=
  s.params.Legal ∧ s.enc.Legal s.params ∧ s.dec.Legal s.params ∧ s.dos.Legal s.params

/-- A unit that performs its commands: configured and not failed. -/
abbrev Common.Ready (c : Common) : Prop := c.cfg = true ∧ c.failed = false

/-! ### What a unit still has to read and to produce -/

/-- The unread bytes of the current chunk, `U.IN[U.INPTR..U.INLEN)` (R43). -/
def Common.unread (c : Common) : List Byte := (readBytes? c.input c.inptr (c.inlen - c.inptr)).getD []

/-- `A(U)`: the unconsumed packed bytes, the Remainder's before the chunk's (41_decode_machine.md R96). -/
def Decoder.unconsumed (d : Decoder) : List Byte := (readBytes? d.rem 0 d.remlen).getD [] ++ d.unread

/-- Put bytes in front of an output. -/
def before (front : List Byte) (r : List Byte × Bool) : List Byte × Bool := (front ++ r.1, r.2)

/-- The output of every complete decode unit of `s`, in order, from a decode state, and whether nothing is left over at a
group boundary (00_scope.md R16, 30_encoding.md R66, 41_decode_machine.md R107); with a bound on the units. -/
def unitsAux : Nat → DecMain → Nat → List Byte → List Byte × Bool
  | 0, _, _, _ => ([], false)
  | fuel + 1, .zeroRange, n, s => before (zeros n) (unitsAux fuel .start 0 s)
  | fuel + 1, .verbatimRange, n, s =>
    if s.length < 8 then ([], false)
    else before (s.take 8)
      (if n - 8 = 0 then unitsAux fuel .start 0 (s.drop 8) else unitsAux fuel .verbatimRange (n - 8) (s.drop 8))
  | _ + 1, .start, _, [] => ([], true)
  | fuel + 1, .start, _, t :: ps =>
    if (t :: ps).length < head t then ([], false)
    else
      let u := unpackHead ((t :: ps).take (head t))
      before u.word (unitsAux fuel u.main u.cnt ((t :: ps).drop (head t)))

/-- The output of every complete decode unit of `s` from a decode state, and whether `s` ends at a group boundary. -/
def unitsFrom (m : DecMain) (n : Nat) (s : List Byte) : List Byte × Bool := unitsAux (2 * s.length + 2) m n s

/-- What a decoder would still produce if the packed stream went on with `more`. -/
def Decoder.outlook (d : Decoder) (more : List Byte) : List Byte × Bool :=
  unitsFrom d.main d.cnt (d.unconsumed ++ more)

/-- The packed bytes of a range that has taken `taken` already and goes on with the words of `x`: its count byte, the
bytes `copied` and the words it still takes (if it writes words at all), and then the packed rest (43_encode.md R119,
R122, R129). -/
def finishVerbatim (copied : List Byte) (x : List Byte) : List Byte :=
  let j := rangeBytes joinsVerbatim (MAX_COUNT - copied.length / 8) x
  countByte (copied.length + j) :: (copied ++ x.take j ++ pack (x.drop j))

/-- The packed bytes of a zero range of `n` extra bytes so far, going on with `x` (R122, R129). -/
def finishZero (n : Nat) (x : List Byte) : List Byte :=
  let j := rangeBytes isZeroWord (MAX_COUNT - n / 8) x
  countByte (n + j) :: pack (x.drop j)

/-- The packed bytes ENC has still to produce if the uncompressed stream goes on with exactly `x` and then ends
(the argument of 43_encode.md R130). -/
def Enc.owes (u : Enc) (x : List Byte) : List Byte :=
  match u.main, u.cont with
  | .zeroRangeWriting, _ => finishZero u.mcnt x
  | .verbatimRangeWriting, _ => x.take u.mcnt ++ pack (x.drop u.mcnt)
  | .start, .none => pack x
  | .start, .initializing => finishVerbatim [] x
  | .start, .continuing => finishVerbatim ((readBytes? u.out 1 (u.cend - 1)).getD []) x

/-! ### The host's macros (30_encoding.md R77), on one unit -/

/-- Repeat a command while it answers OUTPUT, at most `k` times: the collected data, and the first other response with the
unit it left. -/
def collect {σ : Type} (command : σ → CommandEnd σ) : Nat → σ → Option (List Byte × σ × Response)
  | 0, _ => none
  | k + 1, u =>
    match command u with
    | .respond u (.output d) => (collect command k u).map fun r => (d ++ r.1, r.2)
    | .respond u r => some ([], u, r)
    | .stop _ => none

/-- `U.PUSH s` for each of the chunks, with at most `k` NEXTs a chunk: SET, which must answer OK, then DRAIN, which must end
with NONE. -/
def pushAll {σ : Type} (set : List Byte → σ → CommandEnd σ) (next : σ → CommandEnd σ) (k : Nat) :
    List (List Byte) → σ → Option (List Byte × σ)
  | [], u => some ([], u)
  | s :: ss, u =>
    match set s u with
    | .respond u .ok =>
      match collect next k u with
      | some (d, u, .none) => (pushAll set next k ss u).map fun r => (d ++ r.1, r.2)
      | _ => none
    | _ => none

/-- A whole stream: PUSH each chunk, then FINALIZE. The collected data, and FINALIZE's last response. -/
def stream {σ : Type} (set : List Byte → σ → CommandEnd σ) (next flush : σ → CommandEnd σ) (k : Nat)
    (chunks : List (List Byte)) (u : σ) : Option (List Byte × Response) :=
  match pushAll set next k chunks u with
  | some (d, u) => (collect flush k u).map fun r => (d ++ r.1, r.2.2)
  | none => none

/-- `DOS.SET` for each of the chunks, each of which must answer OK, then FINISH: FINISH's response, and the unit. -/
def oneShot {σ : Type} (set : List Byte → σ → CommandEnd σ) (finish : σ → CommandEnd σ) :
    List (List Byte) → σ → CommandEnd σ
  | [], u => finish u
  | s :: ss, u =>
    match set s u with
    | .respond u .ok => oneShot set finish ss u
    | e => e

/-! ### Commands and the unit they address -/

/-- The three units (00_scope.md R2). -/
inductive UnitName where
  | enc
  | dec
  | dos
  deriving DecidableEq, Repr

/-- The unit a command addresses (30_encoding.md R68). -/
def unitOf : Instr → UnitName
  | .encInit _ => .enc
  | .encSet _ => .enc
  | .encNext => .enc
  | .encFlush => .enc
  | .encAbort _ => .enc
  | .encStatus => .enc
  | .decInit _ => .dec
  | .decSet _ => .dec
  | .decNext => .dec
  | .decFlush => .dec
  | .decAbort _ => .dec
  | .decStatus => .dec
  | .dosInit _ => .dos
  | .dosSet _ => .dos
  | .dosFinish => .dos
  | .dosAbort _ => .dos
  | .dosStatus => .dos

/-- The common fields of a unit. -/
def State.common (s : State) : UnitName → Common
  | .enc => s.enc.toCommon
  | .dec => s.dec.toCommon
  | .dos => s.dos.toCommon

/-- One unit is the same in two states. -/
def sameUnit (s t : State) : UnitName → Prop
  | .enc => t.enc = s.enc
  | .dec => t.dec = s.dec
  | .dos => t.dos = s.dos

/-- The commands that need a configured unit that has not failed: all but INIT and STATUS (60_exceptions.md R142). -/
def needsReady : Instr → Bool
  | .encInit _ => false
  | .encSet _ => true
  | .encNext => true
  | .encFlush => true
  | .encAbort _ => true
  | .encStatus => false
  | .decInit _ => false
  | .decSet _ => true
  | .decNext => true
  | .decFlush => true
  | .decAbort _ => true
  | .decStatus => false
  | .dosInit _ => false
  | .dosSet _ => true
  | .dosFinish => true
  | .dosAbort _ => true
  | .dosStatus => false

/-- The refusals of a unit that is not ready: NOTCFG, or FAILED with some info (R142). -/
def notReady (r : Response) : Prop := r = .error .notcfg 0#24 ∨ ∃ info, r = .error .failed info

/-- An OUTPUT, which never has `LEN = 0` (30_encoding.md R74). -/
def someOutput (r : Response) : Prop := ∃ d, r = .output d ∧ d ≠ []

/-- The responses each command's rule lists (R69 and the rules it names): its kinds, and its errors. -/
def mayAnswer (r : Response) : Instr → Prop
  | .encInit _ => r = .ok ∨ r = .error .config 0#24
  | .encSet _ => r = .ok ∨ notReady r ∨ r = .error .busy 0#24 ∨ r = .error .config 0#24
  | .encNext => someOutput r ∨ r = .none ∨ notReady r
  | .encFlush => someOutput r ∨ r = .done ∨ notReady r
  | .encAbort code => r = .error .upstream code ∨ notReady r
  | .encStatus => ∃ v, r = .status v
  | .decInit _ => r = .ok ∨ r = .error .config 0#24
  | .decSet _ => r = .ok ∨ notReady r ∨ r = .error .busy 0#24 ∨ r = .error .config 0#24
  | .decNext => someOutput r ∨ r = .none ∨ notReady r
  | .decFlush => someOutput r ∨ r = .done ∨ notReady r ∨ r = .error .malformed 0#24
  | .decAbort code => r = .error .upstream code ∨ notReady r
  | .decStatus => ∃ v, r = .status v
  | .dosInit _ => r = .ok ∨ r = .error .config 0#24
  | .dosSet _ => r = .ok ∨ notReady r ∨ r = .error .config 0#24 ∨ r = .error .capacity 0#24
  | .dosFinish =>
    (∃ d, r = .result d) ∨ notReady r ∨ r = .error .capacity 0#24 ∨ r = .error .malformed 0#24
  | .dosAbort code => r = .error .upstream code ∨ notReady r
  | .dosStatus => ∃ v, r = .status v

/-- The OPs R69 lists for a UNIT; none for a UNIT that is not 1, 2 or 3. -/
def listedOps (unit : BitVec 4) : List (BitVec 4) :=
  if unit = 1#4 ∨ unit = 2#4 then [0x0#4, 0x1#4, 0x2#4, 0x3#4, 0xd#4, 0xe#4]
  else if unit = 3#4 then [0x0#4, 0x1#4, 0x3#4, 0xd#4, 0xe#4]
  else []

/-- The illegal command words, by the three conditions of R71 on UNIT (bits 7 to 4), OP (bits 3 to 0) and ARG (bits 31
to 8). -/
abbrev illegalWord (w : BitVec 32) : Prop :=
  w.extractLsb' 4 4 ∉ [1#4, 2#4, 3#4] ∨ w.extractLsb' 0 4 ∉ listedOps (w.extractLsb' 4 4) ∨
    (w.extractLsb' 0 4 ∈ [0x2#4, 0x3#4, 0xe#4] ∧ w.extractLsb' 8 24 ≠ 0#24)

/-- Every field of ENC but `CFG`, `CAP` and the bytes of its memories has its reset value (10_state.md R44). -/
abbrev Enc.ResetButConfig (u : Enc) : Prop :=
  u.failed = false ∧ u.err = 0#4 ∧ u.inlen = 0 ∧ u.inptr = 0 ∧
    u.main = .start ∧ u.mcnt = 0 ∧ u.cont = .none ∧ u.cend = 0

/-- The same of DEC, or of the fields DOS shares with it (R44). -/
abbrev Decoder.ResetButConfig (d : Decoder) : Prop :=
  d.failed = false ∧ d.err = 0#4 ∧ d.inlen = 0 ∧ d.inptr = 0 ∧
    d.main = .start ∧ d.cnt = 0 ∧ d.remlen = 0

end Sys2Proof.Machine
end

