-- ==== Sys2Proof/Certificates/Slice0/Obligations.lean ====
section
/-!
DEFINITION. The statements for the provers. Each docstring names the rules of spec/ it formalises. "Legal" is
`State.Legal` (Safety.lean), the states the rules allow at a command boundary; that it holds at reset and that every step
keeps it are statements of their own. A unit is ready when it is configured and has not failed.
-/

open Sys2Proof Sys2Proof.Machine Sys2Proof.Config

/-! ### Encoding -/

/-- Decoding what the encoder writes gives the command back, every operand included (R67 to R70). -/
def Obligations.DecodeOfEncodeGivesTheCommandBack : Prop :=
  ∀ i : Instr, i.WellFormed → decode (encode i) = .ok i

/-- Every transaction the decoder accepts is what the encoder writes for the command it reads, so no bit of a legal
word or of its data is dropped (R67 to R71). -/
def Obligations.EncodeOfDecodeGivesTheTransactionBack : Prop :=
  ∀ (c : Command) (i : Instr), decode c = .ok i → encode i = c ∧ i.WellFormed

/-- Exactly the words of R71's three conditions are illegal, the all-zero word among them; a step on one answers
ERROR(ILLEGAL) and changes no state of any unit. Only a SET, which is legal, carries data bytes, so none come with it. -/
def Obligations.IllegalWordsAreRefusedAndChangeNothing : Prop :=
  (∀ w : BitVec 32, decode ⟨w, []⟩ = .error .illegal ↔ illegalWord w) ∧ illegalWord 0x00000000#32 ∧
  ∀ (s : State) (w : BitVec 32) (rest : List HostEvent),
    s.pending = .command ⟨w, []⟩ :: rest → illegalWord w →
    step s = .next { s with pending := rest, delivered := s.delivered ++ [.error .illegal 0#24] }

/-- When the host's next event is a transaction that decodes to a command, a step is `exec` of that command on the state
from whose queue the event has been taken (R67, R132, log 5). -/
def Obligations.StepRunsTheDecodedCommand : Prop :=
  ∀ (s : State) (c : Command) (rest : List HostEvent) (i : Instr),
    s.pending = .command c :: rest → decode c = .ok i → step s = exec i { s with pending := rest }

/-- Words written out in the spec decode to the commands they stand for (R76, 95_test_vectors.md). -/
def Obligations.SpecWordsDecodeAsWritten : Prop :=
  decode ⟨0x00080010#32, []⟩ = .ok (.encInit 2048#24) ∧
  decode ⟨0x00000421#32, [0x01#8, 0x2a#8, 0x00#8, 0x05#8]⟩ =
    .ok (.decSet [0x01#8, 0x2a#8, 0x00#8, 0x05#8]) ∧
  decode ⟨0x00000012#32, []⟩ = .ok .encNext ∧
  decode ⟨0x00000023#32, []⟩ = .ok .decFlush ∧
  decode ⟨0x00000033#32, []⟩ = .ok .dosFinish ∧
  decode ⟨0x0000071d#32, []⟩ = .ok (.encAbort 7#24) ∧
  decode ⟨0x0000003e#32, []⟩ = .ok .dosStatus

/-! ### The machine around the commands -/

/-- With nothing sent, a step changes nothing: a unit between commands keeps all its state (R149, R153). That the machine
steps at all with an empty queue is the model's choice (log 5). -/
def Obligations.IdleStepChangesNothing : Prop :=
  ∀ s : State, s.pending = [] → step s = .next s

/-- A reset event gives every field of every unit its reset value and sends no response (R154, R44). That the event
comes from the host's queue and leaves parameters and records alone is the model's choice (log 10), and so is the
form an unspecified memory takes (log 2); no byte of a memory is named here. -/
def Obligations.ResetEventResetsEveryUnit : Prop :=
  ∀ (s : State) (rest : List HostEvent), s.pending = .reset :: rest →
    ∃ t, step s = .next t ∧ t.delivered = s.delivered ∧ t.pending = rest ∧ t.params = s.params ∧
      t.enc.cfg = false ∧ t.enc.cap = 0 ∧ t.enc.ResetButConfig ∧
      t.dec.cfg = false ∧ t.dec.cap = 0 ∧ t.dec.ResetButConfig ∧
      t.dos.cfg = false ∧ t.dos.cap = 0 ∧ t.dos.ResetButConfig ∧ t.dos.w = 0

/-- Every command gets exactly one response, an illegal one too, and in a legal state every transaction that keeps the
port's protocol does complete (R72). -/
def Obligations.EveryCommandGetsExactlyOneResponse : Prop :=
  ∀ (s : State) (c : Command) (rest : List HostEvent), s.pending = .command c :: rest →
    (∀ t, step s = .next t → ∃ r, t.delivered = s.delivered ++ [r]) ∧
    (s.Legal → decode c ≠ .error .dataLength → ∃ t, step s = .next t)

/-- Only the unit a command addresses can change: the other two units, the parameters and what the host will send stay
as they are, whatever the command answers (R132, R2). -/
def Obligations.OnlyTheAddressedUnitChanges : Prop :=
  ∀ (i : Instr) (s t : State), exec i s = .next t →
    t.params = s.params ∧ t.pending = s.pending ∧ ∀ v : UnitName, v ≠ unitOf i → sameUnit s t v

/-- A command's answer and effect depend on its own unit and the parameters alone: the other units cannot be observed
through it (R2, R151). -/
def Obligations.AnswersDependOnTheAddressedUnitAlone : Prop :=
  ∀ (i : Instr) (s s' t : State), s'.params = s.params → sameUnit s s' (unitOf i) → exec i s = .next t →
    ∃ (t' : State) (r : Response), exec i s' = .next t' ∧ sameUnit t t' (unitOf i) ∧
      t.delivered = s.delivered ++ [r] ∧ t'.delivered = s'.delivered ++ [r]

/-- Two commands to different units give the same responses and the same end state of every unit in either order (R52). -/
def Obligations.CommandsToDifferentUnitsCommute : Prop :=
  ∀ (i j : Instr) (s a b : State), unitOf i ≠ unitOf j → exec i s = .next a → exec j a = .next b →
    ∃ (a' b' : State) (r q : Response), exec j s = .next a' ∧ exec i a' = .next b' ∧
      b'.enc = b.enc ∧ b'.dec = b.dec ∧ b'.dos = b.dos ∧ b'.params = b.params ∧ b'.pending = b.pending ∧
      b.delivered = s.delivered ++ [r, q] ∧ b'.delivered = s.delivered ++ [q, r]

/-! ### Legal states -/

/-- The state after reset is legal (R44, R154; the memories' form is log 2). -/
def Obligations.ResetStateIsLegal : Prop := State.reset.Legal

/-- Every step from a legal state leads to a legal state: the cursors stay in their chunks, counts and ranges keep their
legal values, the Remainder keeps at most 9 bytes, every memory keeps its canonical form and lists only addresses
it has, an unconfigured unit stays at its reset values (R19 to R38, R97; the memories' form is log 2). -/
def Obligations.EveryStepKeepsLegalStates : Prop :=
  ∀ s t : State, s.Legal → step s = .next t → t.Legal

/-- In a legal state every command completes with a next state: no access leaves its memory (R12), no unspecified byte is
read (R44), and no loop passes its bound. -/
def Obligations.EveryCommandCompletesInLegalStates : Prop :=
  ∀ (i : Instr) (s : State), s.Legal → ∃ t, exec i s = .next t

/-- Every command answers only with the kinds and errors its rule lists, and no OUTPUT is empty (R69, R74, R145). -/
def Obligations.CommandsAnswerAsTheirRulesList : Prop :=
  ∀ (i : Instr) (s t : State), s.Legal → exec i s = .next t →
    ∃ r, t.delivered = s.delivered ++ [r] ∧ mayAnswer r i

/-! ### Refusals and failures -/

/-- Every command but INIT and STATUS is refused with NOTCFG by an unconfigured unit, and with FAILED and the recorded code
by a failed one; a refusal changes nothing else (R19, R20, R142 steps 2 and 3). -/
def Obligations.UnreadyUnitsRefuseCommands : Prop :=
  ∀ (i : Instr) (s : State), needsReady i = true →
    ((s.common (unitOf i)).cfg = false → exec i s = .next (s.deliver (.error .notcfg 0#24))) ∧
    ((s.common (unitOf i)).cfg = true → (s.common (unitOf i)).failed = true →
      exec i s = .next (s.deliver (.error .failed ((s.common (unitOf i)).err.setWidth 24))))

/-- A SET to a ready unit is refused with BUSY while its chunk is not consumed, then with CONFIG for a chunk over `MAX_IN`,
then, by ENC, for one that is not a whole number of words; a refusal changes nothing else (R142 steps 4 and 5). -/
def Obligations.SetsAreRefusedInTheOrderOfChecks : Prop :=
  ∀ (s : State) (chunk : List Byte),
    (s.enc.Ready → (s.enc.inptr < s.enc.inlen → exec (.encSet chunk) s = .next (s.deliver (.error .busy 0#24))) ∧
      (s.enc.inlen ≤ s.enc.inptr → s.params.maxIn < chunk.length ∨ chunk.length % 8 ≠ 0 →
        exec (.encSet chunk) s = .next (s.deliver (.error .config 0#24)))) ∧
    (s.dec.Ready → (s.dec.inptr < s.dec.inlen → exec (.decSet chunk) s = .next (s.deliver (.error .busy 0#24))) ∧
      (s.dec.inlen ≤ s.dec.inptr → s.params.maxIn < chunk.length →
        exec (.decSet chunk) s = .next (s.deliver (.error .config 0#24)))) ∧
    (s.dos.Ready → (s.dos.inptr < s.dos.inlen → exec (.dosSet chunk) s = .next (s.deliver (.error .busy 0#24))) ∧
      (s.dos.inlen ≤ s.dos.inptr → s.params.maxIn < chunk.length →
        exec (.dosSet chunk) s = .next (s.deliver (.error .config 0#24))))

/-- A unit becomes FAILED only in a step that answers one of its fatal errors, whose code `ERR` then holds; and FAILED is
cleared only by the unit's INIT or a reset event (R20, R21, R141, R144). -/
def Obligations.FailedIsSetByFatalErrorsAndClearedByInitOrReset : Prop :=
  ∀ s t : State, step s = .next t →
    (s.enc.failed = false → t.enc.failed = true →
      t.enc.err = 4#4 ∧ ∃ code, t.delivered = s.delivered ++ [.error .upstream code]) ∧
    (s.dec.failed = false → t.dec.failed = true →
      (t.dec.err = 4#4 ∧ ∃ code, t.delivered = s.delivered ++ [.error .upstream code]) ∨
      (t.dec.err = 2#4 ∧ t.delivered = s.delivered ++ [.error .malformed 0#24])) ∧
    (s.dos.failed = false → t.dos.failed = true →
      (t.dos.err = 4#4 ∧ ∃ code, t.delivered = s.delivered ++ [.error .upstream code]) ∨
      (t.dos.err = 2#4 ∧ t.delivered = s.delivered ++ [.error .malformed 0#24]) ∨
      (t.dos.err = 3#4 ∧ t.delivered = s.delivered ++ [.error .capacity 0#24])) ∧
    (s.enc.failed = true → t.enc.failed = false → s.arrival = .reset ∨ ∃ cap, s.arrival = .command (.encInit cap)) ∧
    (s.dec.failed = true → t.dec.failed = false → s.arrival = .reset ∨ ∃ cap, s.arrival = .command (.decInit cap)) ∧
    (s.dos.failed = true → t.dos.failed = false → s.arrival = .reset ∨ ∃ cap, s.arrival = .command (.dosInit cap))

/-! ### INIT, SET, ABORT, STATUS: what they do, exactly -/

/-- `ENC.INIT cap` in every state: every field takes its reset value; a legal capacity then configures the unit and answers
OK, any other raises CONFIG and leaves it unconfigured (R124). The bytes of its memories are unspecified after it. -/
def Obligations.EncInitResetsThenConfiguresOrRaisesConfig : Prop :=
  ∀ (cap : BitVec 24) (s : State),
    decode ⟨cap ++ 0x10#8, []⟩ = .ok (.encInit cap) ∧
    ∃ u : Enc, u.ResetButConfig ∧
      (2048 ≤ cap.toNat ∧ cap.toNat ≤ s.params.maxCap →
        u.cfg = true ∧ u.cap = cap.toNat ∧ exec (.encInit cap) s = .next ((s.setEnc u).deliver .ok)) ∧
      (¬ (2048 ≤ cap.toNat ∧ cap.toNat ≤ s.params.maxCap) →
        u.cfg = false ∧ u.cap = 0 ∧ exec (.encInit cap) s = .next ((s.setEnc u).deliver (.error .config 0#24)))

/-- `DEC.INIT cap` in every state (R108). -/
def Obligations.DecInitResetsThenConfiguresOrRaisesConfig : Prop :=
  ∀ (cap : BitVec 24) (s : State),
    decode ⟨cap ++ 0x20#8, []⟩ = .ok (.decInit cap) ∧
    ∃ d : Decoder, d.ResetButConfig ∧
      (8 ≤ cap.toNat ∧ cap.toNat % 8 = 0 ∧ cap.toNat ≤ s.params.maxCap →
        d.cfg = true ∧ d.cap = cap.toNat ∧ exec (.decInit cap) s = .next ((s.setDec d).deliver .ok)) ∧
      (¬ (8 ≤ cap.toNat ∧ cap.toNat % 8 = 0 ∧ cap.toNat ≤ s.params.maxCap) →
        d.cfg = false ∧ d.cap = 0 ∧ exec (.decInit cap) s = .next ((s.setDec d).deliver (.error .config 0#24)))

/-- `DOS.INIT cap` in every state, `DOS.W <- 0` included (R112). -/
def Obligations.DosInitResetsThenConfiguresOrRaisesConfig : Prop :=
  ∀ (cap : BitVec 24) (s : State),
    decode ⟨cap ++ 0x30#8, []⟩ = .ok (.dosInit cap) ∧
    ∃ u : Dos, u.ResetButConfig ∧ u.w = 0 ∧
      (8 ≤ cap.toNat ∧ cap.toNat % 8 = 0 ∧ cap.toNat ≤ s.params.maxCap →
        u.cfg = true ∧ u.cap = cap.toNat ∧ exec (.dosInit cap) s = .next ((s.setDos u).deliver .ok)) ∧
      (¬ (8 ≤ cap.toNat ∧ cap.toNat % 8 = 0 ∧ cap.toNat ≤ s.params.maxCap) →
        u.cfg = false ∧ u.cap = 0 ∧ exec (.dosInit cap) s = .next ((s.setDos u).deliver (.error .config 0#24)))

/-- `ENC.SET s` on a ready unit that has consumed its chunk, with a whole number of words and at most `MAX_IN` bytes: the chunk is
copied in, `INLEN <- len`, `INPTR <- 0`, nothing else changes, and the answer is OK (R125, R46). That `ENC.IN` keeps its bytes
beyond the chunk, which R23 leaves without meaning, is the model's choice (log 11). -/
def Obligations.EncSetInstallsTheChunk : Prop :=
  ∀ (chunk : List Byte) (s : State), s.enc.Ready → s.enc.inlen ≤ s.enc.inptr → chunk.length ≤ s.params.maxIn →
    chunk.length % 8 = 0 →
    exec (.encSet chunk) s = .next ((s.setEnc { s.enc with
      input := writeBytes s.enc.input 0 chunk, inlen := chunk.length, inptr := 0 }).deliver .ok)

/-- `DEC.SET s` on a ready unit that has consumed its chunk, with at most `MAX_IN` bytes: the chunk is copied in, nothing is
decoded, the Remainder is untouched, and the answer is OK (R109, R46). That `DEC.IN` keeps its bytes beyond the chunk, which R23
leaves without meaning, is the model's choice (log 11). -/
def Obligations.DecSetInstallsTheChunk : Prop :=
  ∀ (chunk : List Byte) (s : State), s.dec.Ready → s.dec.inlen ≤ s.dec.inptr → chunk.length ≤ s.params.maxIn →
    exec (.decSet chunk) s = .next ((s.setDec { s.dec with
      input := writeBytes s.dec.input 0 chunk, inlen := chunk.length, inptr := 0 }).deliver .ok)

/-- Whatever the unit, a SET that is answered OK leaves the chunk's bytes, read back one by one, in `U.IN[0..len)`, and every other
byte of `U.IN` as it was (R46, R12; that a byte the spec leaves without meaning keeps its value is the model's choice, log 11). -/
def Obligations.AcceptedSetsStoreExactlyTheChunk : Prop :=
  ∀ (chunk : List Byte) (s t : State),
    (exec (.encSet chunk) s = .next t → t.delivered = s.delivered ++ [.ok] →
      (∀ k, k < chunk.length → readByte? t.enc.input k = chunk[k]?) ∧
      ∀ a, chunk.length ≤ a → readByte? t.enc.input a = readByte? s.enc.input a) ∧
    (exec (.decSet chunk) s = .next t → t.delivered = s.delivered ++ [.ok] →
      (∀ k, k < chunk.length → readByte? t.dec.input k = chunk[k]?) ∧
      ∀ a, chunk.length ≤ a → readByte? t.dec.input a = readByte? s.dec.input a) ∧
    (exec (.dosSet chunk) s = .next t → t.delivered = s.delivered ++ [.ok] →
      (∀ k, k < chunk.length → readByte? t.dos.input k = chunk[k]?) ∧
      ∀ a, chunk.length ≤ a → readByte? t.dos.input a = readByte? s.dos.input a)

/-- `U.ABORT code` on a ready unit sets FAILED and records UPSTREAM in ERR, keeps every other field, and forwards the code
unchanged in its ERROR response; an unconfigured unit refuses it with NOTCFG, and a failed one with FAILED (R134). Its encoding
is `{code, 0xUd}`. -/
def Obligations.AbortFailsTheUnitAndForwardsTheCode : Prop :=
  ∀ (code : BitVec 24) (s : State),
    (s.enc.Ready → exec (.encAbort code) s =
      .next ((s.setEnc { s.enc with failed := true, err := 4#4 }).deliver (.error .upstream code))) ∧
    (s.dec.Ready → exec (.decAbort code) s =
      .next ((s.setDec { s.dec with failed := true, err := 4#4 }).deliver (.error .upstream code))) ∧
    (s.dos.Ready → exec (.dosAbort code) s =
      .next ((s.setDos { s.dos with failed := true, err := 4#4 }).deliver (.error .upstream code))) ∧
    (∀ i ∈ [Instr.encAbort code, .decAbort code, .dosAbort code],
      ((s.common (unitOf i)).cfg = false → exec i s = .next (s.deliver (.error .notcfg 0#24))) ∧
      ((s.common (unitOf i)).cfg = true → (s.common (unitOf i)).failed = true →
        exec i s = .next (s.deliver (.error .failed ((s.common (unitOf i)).err.setWidth 24))))) ∧
    decode ⟨code ++ 0x1d#8, []⟩ = .ok (.encAbort code) ∧ decode ⟨code ++ 0x2d#8, []⟩ = .ok (.decAbort code) ∧
    decode ⟨code ++ 0x3d#8, []⟩ = .ok (.dosAbort code) ∧ (Response.error .upstream code).len = code

/-- `U.STATUS` in every state answers the unit's status register and changes nothing; the register reads 0 after reset, and
CFG alone after a successful INIT (R133, R51). -/
def Obligations.StatusAnswersTheRegisterAndChangesNothing : Prop :=
  (∀ s : State,
    exec .encStatus s = .next (s.deliver (.status (encStatus s.enc))) ∧
    exec .decStatus s = .next (s.deliver (.status (decStatus s.dec))) ∧
    exec .dosStatus s = .next (s.deliver (.status (dosStatus s.dos)))) ∧
  encStatus State.reset.enc = 0#64 ∧ decStatus State.reset.dec = 0#64 ∧ dosStatus State.reset.dos = 0#64 ∧
  (∀ u : Enc, u.ResetButConfig → u.cfg = true → encStatus u = 0x10#64) ∧
  (∀ d : Decoder, d.ResetButConfig → d.cfg = true → decStatus d = 0x10#64) ∧
  (∀ u : Dos, u.ResetButConfig → u.w = 0 → u.cfg = true → dosStatus u = 0x10#64)

/-- The smallest legal capacities, for every legal choice of the build parameters: 8 for DEC and DOS and 2048 for ENC are accepted, every
smaller capacity is refused with CONFIG and leaves the unit unconfigured, and so is 9, which is no multiple of 8 (R137). -/
def Obligations.MinimalBuffersAreTheSmallestLegalOnes : Prop :=
  ∀ s : State, s.params.Legal →
    (∀ cap : BitVec 24, cap.toNat < 8 ∨ cap = 9#24 →
      (∃ t, exec (.decInit cap) s = .next t ∧ t.delivered = s.delivered ++ [.error .config 0#24] ∧ t.dec.cfg = false) ∧
      (∃ t, exec (.dosInit cap) s = .next t ∧ t.delivered = s.delivered ++ [.error .config 0#24] ∧ t.dos.cfg = false)) ∧
    (∀ cap : BitVec 24, cap.toNat < 2048 →
      ∃ t, exec (.encInit cap) s = .next t ∧ t.delivered = s.delivered ++ [.error .config 0#24] ∧ t.enc.cfg = false) ∧
    (∃ t, exec (.decInit 8#24) s = .next t ∧ t.delivered = s.delivered ++ [.ok] ∧ t.dec.cfg = true ∧ t.dec.cap = 8) ∧
    (∃ t, exec (.dosInit 8#24) s = .next t ∧ t.delivered = s.delivered ++ [.ok] ∧ t.dos.cfg = true ∧ t.dos.cap = 8) ∧
    (∃ t, exec (.encInit 2048#24) s = .next t ∧ t.delivered = s.delivered ++ [.ok] ∧ t.enc.cfg = true ∧ t.enc.cap = 2048)

/-! ### ENC.NEXT and ENC.FLUSH -/

/-- `ENC.NEXT` on a ready unit in a legal state completes with NONE and its chunk consumed, or with an OUTPUT of 1 to `ENC.CAP` bytes; and however the
uncompressed stream goes on (`more`), what the unit owed before is what it has emitted now and what it still owes
(R126, R116 to R123; the argument of R130). -/
def Obligations.EncNextEmitsWhatTheEncoderOwes : Prop :=
  ∀ s : State, s.Legal → s.enc.Ready →
    ∃ (u : Enc) (r : Response), exec .encNext s = .next ((s.setEnc u).deliver r) ∧
      ((r = .none ∧ u.inptr = u.inlen) ∨ ∃ d, r = .output d ∧ 1 ≤ d.length ∧ d.length ≤ s.enc.cap) ∧
      ∀ more : List Byte, more.length % 8 = 0 →
        s.enc.owes (s.enc.unread ++ more) = r.data ++ u.owes (u.unread ++ more)

/-- `ENC.FLUSH` on a ready unit in a legal state: with nothing owed it answers DONE and changes nothing; else it completes with an
OUTPUT of 1 to `ENC.CAP` bytes, the front of what the unit owes for the stream that ends here (R127, R117, R128). -/
def Obligations.EncFlushEmitsWhatTheEncoderOwesOrIsDone : Prop :=
  ∀ s : State, s.Legal → s.enc.Ready →
    (s.enc.owes s.enc.unread = [] → exec .encFlush s = .next (s.deliver .done)) ∧
    (s.enc.owes s.enc.unread ≠ [] →
      ∃ (u : Enc) (d : List Byte), exec .encFlush s = .next ((s.setEnc u).deliver (.output d)) ∧
        1 ≤ d.length ∧ d.length ≤ s.enc.cap ∧ s.enc.owes s.enc.unread = d ++ u.owes u.unread)

/-- The frame of `ENC.NEXT` and `ENC.FLUSH` on a ready unit in a legal state: CFG, FAILED, ERR, CAP, the chunk and INLEN are
unchanged, INPTR does not move back, and the bytes of `ENC.OUT` outside `[0, max(LEN, CEND))` are unchanged, where LEN is the
number of data bytes answered and CEND the end of the continuation left open (R126, R127, R25). R31 leaves the bytes of `ENC.OUT`
outside a continuation unspecified between commands; that they stay is the model's choice (log 11). -/
def Obligations.EncNextAndFlushFrame : Prop :=
  ∀ (i : Instr) (s t : State), i = .encNext ∨ i = .encFlush → s.Legal → s.enc.Ready → exec i s = .next t →
    ∃ r, t.delivered = s.delivered ++ [r] ∧
      t.params = s.params ∧ t.pending = s.pending ∧ t.dec = s.dec ∧ t.dos = s.dos ∧
      t.enc.cfg = s.enc.cfg ∧ t.enc.failed = s.enc.failed ∧ t.enc.err = s.enc.err ∧ t.enc.cap = s.enc.cap ∧
      t.enc.input = s.enc.input ∧ t.enc.inlen = s.enc.inlen ∧ s.enc.inptr ≤ t.enc.inptr ∧
      ∀ a, r.data.length ≤ a → t.enc.cend ≤ a → readByte? t.enc.out a = readByte? s.enc.out a

/-- `ENC.NEXT` that answers NONE has consumed its whole chunk, and repeated it answers NONE and changes nothing (R126, R128). -/
def Obligations.EncNoneMeansConsumedAndRepeats : Prop :=
  ∀ s t : State, s.Legal → s.enc.Ready → exec .encNext s = .next t → t.delivered = s.delivered ++ [.none] →
    t.enc.inptr = t.enc.inlen ∧ exec .encNext t = .next (t.deliver .none)

/-! ### DEC.NEXT and DEC.FLUSH -/

/-- `DEC.NEXT` on a ready unit in a legal state completes with NONE and its chunk consumed, or with an OUTPUT of a multiple of 8 bytes, 8 to `DEC.CAP`;
and however the packed stream goes on (`more`), the complete decode units the unit had before it are those it has emitted now
followed by those still to come (R110, R93, R96, R99 to R102). -/
def Obligations.DecNextEmitsCompleteUnitsInOrder : Prop :=
  ∀ s : State, s.Legal → s.dec.Ready →
    ∃ (d : Decoder) (r : Response), exec .decNext s = .next ((s.setDec d).deliver r) ∧
      ((r = .none ∧ d.inptr = d.inlen) ∨ ∃ out, r = .output out ∧ 8 ≤ out.length ∧ out.length % 8 = 0 ∧ out.length ≤ s.dec.cap) ∧
      ∀ more : List Byte, s.dec.outlook more = before r.data (d.outlook more)

/-- `DEC.FLUSH` on a ready unit in a legal state: an OUTPUT of the next complete units while there are any; then DONE, changing
nothing, if the stream ended at a group boundary; else the fatal MALFORMED, which changes FAILED and ERR alone (R111, R103, R104). -/
def Obligations.DecFlushEmitsThenEndsInDoneOrMalformed : Prop :=
  ∀ s : State, s.Legal → s.dec.Ready →
    ((s.dec.outlook []).1 ≠ [] →
      ∃ (d : Decoder) (out : List Byte), exec .decFlush s = .next ((s.setDec d).deliver (.output out)) ∧
        8 ≤ out.length ∧ out.length % 8 = 0 ∧ out.length ≤ s.dec.cap ∧
        s.dec.outlook [] = before out (d.outlook [])) ∧
    (s.dec.outlook [] = ([], true) → exec .decFlush s = .next (s.deliver .done)) ∧
    (s.dec.outlook [] = ([], false) → exec .decFlush s =
      .next ((s.setDec { s.dec with failed := true, err := 2#4 }).deliver (.error .malformed 0#24)))

/-- The frame of `DEC.NEXT` and `DEC.FLUSH` on a ready unit in a legal state: CFG, CAP, the chunk and INLEN are unchanged, INPTR does
not move back, FAILED and ERR change only with MALFORMED, and the bytes of `DEC.OUT` from LEN on are unchanged, where LEN is the
number of data bytes answered (R110, R111). R36 lets no byte of `DEC.OUT` carry state between commands; that these bytes stay is the
model's choice (log 11). -/
def Obligations.DecNextAndFlushFrame : Prop :=
  ∀ (i : Instr) (s t : State), i = .decNext ∨ i = .decFlush → s.Legal → s.dec.Ready → exec i s = .next t →
    ∃ r, t.delivered = s.delivered ++ [r] ∧
      t.params = s.params ∧ t.pending = s.pending ∧ t.enc = s.enc ∧ t.dos = s.dos ∧
      t.dec.cfg = s.dec.cfg ∧ t.dec.cap = s.dec.cap ∧ t.dec.input = s.dec.input ∧ t.dec.inlen = s.dec.inlen ∧
      s.dec.inptr ≤ t.dec.inptr ∧
      (r ≠ .error .malformed 0#24 → t.dec.failed = s.dec.failed ∧ t.dec.err = s.dec.err) ∧
      ∀ a, r.data.length ≤ a → readByte? t.dec.outm a = readByte? s.dec.outm a

/-- `DEC.NEXT` that answers NONE has consumed its whole chunk, and only moved bytes into the Remainder: the unconsumed packed bytes,
the range and the output memory are what they were (R105; that the output memory stays is the model's choice, log 11). -/
def Obligations.DecNoneMeansConsumedIntoTheRemainder : Prop :=
  ∀ s t : State, s.Legal → s.dec.Ready → exec .decNext s = .next t → t.delivered = s.delivered ++ [.none] →
    t.dec.inptr = t.dec.inlen ∧ t.dec.unconsumed = s.dec.unconsumed ∧ t.dec.main = s.dec.main ∧ t.dec.cnt = s.dec.cnt ∧
      t.dec.outm = s.dec.outm

/-- A NEXT with no new input and no pending state answers NONE and changes nothing; since only the delivered response is added,
it may be repeated for ever with the same result (R138). -/
def Obligations.NextWithNothingPendingChangesNothing : Prop :=
  ∀ s : State, s.Legal →
    (s.enc.Ready → s.enc.inptr = s.enc.inlen → s.enc.main = .start → s.enc.cont = .none →
      exec .encNext s = .next (s.deliver .none)) ∧
    (s.dec.Ready → s.dec.inptr = s.dec.inlen → s.dec.main = .start → s.dec.remlen = 0 →
      exec .decNext s = .next (s.deliver .none))

/-! ### DOS.SET and DOS.FINISH -/

/-- `DOS.SET s` on a ready unit in a legal state, with at most `MAX_IN` bytes and target space for all the complete units there now
are: it answers OK with its whole chunk consumed, what the target held stays in front, and the complete units there were are
those appended to the target followed by those still to come (R113). -/
def Obligations.DosSetAppendsCompleteUnitsToTheTarget : Prop :=
  ∀ (chunk : List Byte) (s : State), s.Legal → s.dos.Ready → chunk.length ≤ s.params.maxIn →
    s.dos.w + (s.dos.outlook chunk).1.length ≤ s.dos.cap →
    ∃ (u : Dos) (out : List Byte), exec (.dosSet chunk) s = .next ((s.setDos u).deliver .ok) ∧
      u.inlen = chunk.length ∧ u.inptr = chunk.length ∧
      readBytes? u.outm 0 u.w = (readBytes? s.dos.outm 0 s.dos.w).map (fun old => old ++ out) ∧
      s.dos.outlook chunk = before out (u.outlook [])

/-- `DOS.SET s` that fails with CAPACITY: the complete units there were did not fit the target; the target is full, and what it held is
followed by the front of their output, so every unit that had space is kept; `DOS.W` counts it all, what did not fit is still to
come, and the unit is FAILED with code 3 (R113, R87, R93, R141). -/
def Obligations.DosCapacityKeepsTheUnitsThatFit : Prop :=
  ∀ (chunk : List Byte) (s t : State), s.Legal → s.dos.Ready → exec (.dosSet chunk) s = .next t →
    t.delivered = s.delivered ++ [.error .capacity 0#24] →
    s.dos.cap < s.dos.w + (s.dos.outlook chunk).1.length ∧ t.dos.failed = true ∧ t.dos.err = 3#4 ∧
    t.dos.cap = s.dos.cap ∧ t.dos.w = t.dos.cap ∧
    ∃ out : List Byte,
      readBytes? t.dos.outm 0 t.dos.w = (readBytes? s.dos.outm 0 s.dos.w).map (fun old => old ++ out) ∧
      s.dos.outlook chunk = before out (t.dos.outlook [])

/-- `DOS.FINISH` on a ready unit in a legal state. With target space for all complete units, and a stream that ends at a group
boundary, it answers RESULT with the whole decoded output and leaves DOS empty with its capacity kept; with space and
bytes left over it fails with MALFORMED, and the target keeps the whole output; without space it fails with CAPACITY, which wins when
both apply, and the target is full: what it held, then the front of the output, with what did not fit still to come (R114, R93,
R141, R142 step 6). -/
def Obligations.DosFinishAnswersTheResultOrFails : Prop :=
  ∀ s : State, s.Legal → s.dos.Ready →
    let out := s.dos.outlook []
    (s.dos.w + out.1.length ≤ s.dos.cap → out.2 = true →
      ∃ u : Dos, exec .dosFinish s =
          .next ((s.setDos u).deliver (.result ((readBytes? s.dos.outm 0 s.dos.w).getD [] ++ out.1))) ∧
        u.w = 0 ∧ u.main = .start ∧ u.cnt = 0 ∧ u.remlen = 0 ∧ u.inptr = u.inlen ∧ u.Ready ∧ u.cap = s.dos.cap) ∧
    (s.dos.w + out.1.length ≤ s.dos.cap → out.2 = false →
      ∃ u : Dos, exec .dosFinish s = .next ((s.setDos u).deliver (.error .malformed 0#24)) ∧
        u.failed = true ∧ u.err = 2#4 ∧ u.w = s.dos.w + out.1.length ∧
        readBytes? u.outm 0 u.w = (readBytes? s.dos.outm 0 s.dos.w).map (fun old => old ++ out.1)) ∧
    (s.dos.cap < s.dos.w + out.1.length →
      ∃ (u : Dos) (front : List Byte), exec .dosFinish s = .next ((s.setDos u).deliver (.error .capacity 0#24)) ∧
        u.failed = true ∧ u.err = 3#4 ∧ u.cap = s.dos.cap ∧ u.w = u.cap ∧
        readBytes? u.outm 0 u.w = (readBytes? s.dos.outm 0 s.dos.w).map (fun old => old ++ front) ∧
        out = before front (u.outlook []))

/-- The frame of `DOS.SET` and `DOS.FINISH` on a ready unit in a legal state: CFG and CAP are unchanged; the bytes of `DOS.TGT` outside
`[old W, old W + k)` are unchanged, where `k` is the number of bytes the command decoded, as the new `W` or the result says; FAILED and
ERR change only with a fatal error; FINISH leaves the chunk alone (R113, R114, R141). The bytes of `DOS.TGT` from `W` on are
unspecified (R38); that those not written stay is the model's choice (log 11). -/
def Obligations.DosSetAndFinishFrame : Prop :=
  ∀ (i : Instr) (s t : State), (∃ chunk, i = .dosSet chunk) ∨ i = .dosFinish → s.Legal → s.dos.Ready →
    exec i s = .next t →
    ∃ r, t.delivered = s.delivered ++ [r] ∧
      t.params = s.params ∧ t.pending = s.pending ∧ t.enc = s.enc ∧ t.dec = s.dec ∧
      t.dos.cfg = s.dos.cfg ∧ t.dos.cap = s.dos.cap ∧
      (r ≠ .error .malformed 0#24 → r ≠ .error .capacity 0#24 →
        t.dos.failed = s.dos.failed ∧ t.dos.err = s.dos.err) ∧
      (i = .dosFinish → t.dos.input = s.dos.input ∧ t.dos.inlen = s.dos.inlen) ∧
      ∀ a, a < s.dos.w ∨ (t.dos.w ≤ a ∧ r.data.length ≤ a) →
        readByte? t.dos.outm a = readByte? s.dos.outm a

/-! ### The decode units -/

/-- What each decode unit stores: a Start group its word, a verbatim word itself unchanged, a zero run as many zero bytes as there is
space for; the bytes go to `OUTM[o..o')`, every other byte of it is unchanged, and a unit without space leaves everything as it was
(R87, R89, R90, R91). -/
def Obligations.DecodeUnitsStoreTheirOutput : Prop :=
  (∀ (d : Decoder) (o : Nat) (s : List Byte),
    (d.cap < o + 8 → startUnit d o s = .ended d o) ∧
    (o + 8 ≤ d.cap → ∃ d', startUnit d o s = .back d' (o + 8) ∧ readBytes? d'.outm o 8 = some (unpackHead s).word ∧
      d'.main = (unpackHead s).main ∧ d'.cnt = (unpackHead s).cnt ∧
      ∀ a, a < o ∨ o + 8 ≤ a → readByte? d'.outm a = readByte? d.outm a)) ∧
  (∀ (d : Decoder) (o : Nat) (s : List Byte), s.length = 8 → 8 ≤ d.cnt →
    (d.cap < o + 8 → verbUnit d o s = .ended d o) ∧
    (o + 8 ≤ d.cap → ∃ d', verbUnit d o s = .back d' (o + 8) ∧ readBytes? d'.outm o 8 = some s ∧
      (d'.main = if d.cnt = 8 then .start else d.main) ∧ d'.cnt = d.cnt - 8 ∧
      ∀ a, a < o ∨ o + 8 ≤ a → readByte? d'.outm a = readByte? d.outm a)) ∧
  (∀ (d : Decoder) (o : Nat), o ≤ d.cap →
    (o = d.cap → zeroUnit d o = .ended d o) ∧
    (o < d.cap → ∃ d', zeroUnit d o = .back d' (o + min d.cnt (d.cap - o)) ∧
      readBytes? d'.outm o (min d.cnt (d.cap - o)) = some (zeros (min d.cnt (d.cap - o))) ∧
      (d'.main = if d.cnt ≤ d.cap - o then .start else d.main) ∧ d'.cnt = d.cnt - min d.cnt (d.cap - o) ∧
      ∀ a, a < o ∨ o + min d.cnt (d.cap - o) ≤ a → readByte? d'.outm a = readByte? d.outm a))

/-! ### Whole streams -/

/-- ENC's chunking invariance: from INIT with any legal capacity, PUSH of any chunks whose lengths are multiples of 8, empty ones
allowed, and FINALIZE give the packed stream of the whole, with no error (R130). -/
def Obligations.EncoderOutputIsPackForEveryChunking : Prop :=
  ∀ (p : Params) (cap : Nat) (chunks : List (List Byte)), p.Legal → encCapLegal p cap →
    (∀ c ∈ chunks, c.length % 8 = 0 ∧ c.length ≤ p.maxIn) →
    ∃ (u : Enc) (k : Nat), encInitCommand p cap = .respond u .ok ∧
      stream (encSetCommand p) (encNextCommand p) (encFlushCommand p) k chunks u = some (pack chunks.flatten, .done)

/-- DEC's chunking invariance: from any quiescent, ready, legal DEC, PUSH of any chunks and FINALIZE give the decoded stream and
DONE, or, for a malformed stream, the output of its complete decode units and MALFORMED (R107, the part on DEC). -/
def Obligations.DecoderOutputIsUnpackForEveryChunking : Prop :=
  ∀ (p : Params) (d : Decoder) (chunks : List (List Byte)), p.Legal → d.Legal p → d.Ready → d.quiescent = true →
    (∀ c ∈ chunks, c.length ≤ p.maxIn) →
    (∀ x, unpack chunks.flatten = some x →
      ∃ k, stream (decSetCommand p) (decNextCommand p) (decFlushCommand p) k chunks d = some (x, .done)) ∧
    (unpack chunks.flatten = none →
      ∃ k, stream (decSetCommand p) (decNextCommand p) (decFlushCommand p) k chunks d =
        some ((unitsFrom .start 0 chunks.flatten).1, .error .malformed 0#24))

/-- DOS's chunking invariance: from INIT with any legal capacity that holds the output, SETs of any chunks and FINISH answer RESULT
with the decoded stream, or MALFORMED for a malformed one (R107, the part on DOS). -/
def Obligations.OneShotResultIsUnpackForEveryChunking : Prop :=
  ∀ (p : Params) (cap : Nat) (chunks : List (List Byte)), p.Legal → decCapLegal p cap →
    (∀ c ∈ chunks, c.length ≤ p.maxIn) → (unitsFrom .start 0 chunks.flatten).1.length ≤ cap →
    ∃ u u' : Dos, dosInitCommand p cap = .respond u .ok ∧
      oneShot (dosSetCommand p) (dosFinishCommand p) chunks u =
        .respond u' (match unpack chunks.flatten with
          | some x => .result x
          | none => .error .malformed 0#24)

/-- Unpacking what `pack` writes gives the stream back (R135, its first sentence). -/
def Obligations.UnpackInvertsPack : Prop :=
  ∀ x : List Byte, x.length % 8 = 0 → unpack (pack x) = some x

/-- The round trip, on the reference functions and through the units: a stream chunked into ENC in any way, and what comes out
chunked into DEC in any other way, comes back whole, and DEC's FINALIZE ends in DONE (R135). -/
def Obligations.RoundTripThroughEncoderAndDecoder : Prop :=
  (∀ x : List Byte, x.length % 8 = 0 → unpack (pack x) = some x) ∧
  ∀ (p : Params) (ecap dcap : Nat) (xs ys : List (List Byte)), p.Legal → encCapLegal p ecap → decCapLegal p dcap →
    (∀ c ∈ xs, c.length % 8 = 0 ∧ c.length ≤ p.maxIn) → (∀ c ∈ ys, c.length ≤ p.maxIn) →
    ∃ (e : Enc) (d : Decoder) (k : Nat) (packed : List Byte),
      encInitCommand p ecap = .respond e .ok ∧ decInitCommand p dcap = .respond d .ok ∧
      stream (encSetCommand p) (encNextCommand p) (encFlushCommand p) k xs e = some (packed, .done) ∧
      (ys.flatten = packed →
        ∃ k', stream (decSetCommand p) (decNextCommand p) (decFlushCommand p) k' ys d = some (xs.flatten, .done))

/-- `unpack` is the output of the complete decode units of a stream with nothing left over, and MALFORMED otherwise (R66, R106, R107). -/
def Obligations.UnpackIsTheCompleteUnits : Prop :=
  ∀ s : List Byte,
    unpack s = if (unitsFrom .start 0 s).2 = true then some (unitsFrom .start 0 s).1 else none

/-- A well-formed stream's decoded length is a multiple of 8, and so is the output of the complete units of any stream (R65, R93). -/
def Obligations.DecodedLengthIsAMultipleOfEight : Prop :=
  (∀ s x : List Byte, unpack s = some x → x.length % 8 = 0) ∧
  ∀ s : List Byte, (unitsFrom .start 0 s).1.length % 8 = 0

/-! ### Tags and words -/

/-- Bit `i` of a word's tag is 1 if and only if byte `i` is non-zero; the all-zero word has tag `0x00`, and a word with no zero byte
has tag `0xff` (R78). -/
def Obligations.TagBitsMarkTheNonzeroBytes : Prop :=
  (∀ (w : List Byte) (i : Nat), w.length = 8 → i < 8 → ((tag w).getLsbD i = true ↔ w[i]? ≠ some 0x00#8)) ∧
  tag (zeros 8) = 0x00#8 ∧
  (∀ w : List Byte, w.length = 8 → (∀ b ∈ w, b ≠ 0x00#8) → tag w = 0xff#8) ∧
  tag [0x05#8, 0, 0, 0, 0, 0, 0, 0x80#8] = 0x81#8

/-- A word's population count is the number of its non-zero bytes; its packed form has one byte more; and it joins a verbatim
range exactly when at least 7 of its bytes are non-zero (R79, R82, R131). -/
def Obligations.PopulationCountIsTheNumberOfNonzeroBytes : Prop :=
  ∀ w : List Byte, w.length = 8 →
    popcount (tag w) = w.countP (fun b => b ≠ 0x00#8) ∧
    (packWord w).length = 1 + popcount (tag w) ∧
    (joinsVerbatim w = true ↔ 7 ≤ w.countP (fun b => b ≠ 0x00#8))

/-- `head(t)` is 2 for `0x00`, 10 for `0xff`, and `1 + popcount(t)`, from 2 to 8, for every other tag (R81, R85). -/
def Obligations.HeadLengthsByTagClass : Prop :=
  head 0x00#8 = 2 ∧ head 0xff#8 = 10 ∧
  ∀ t : Byte, t ≠ 0x00#8 → t ≠ 0xff#8 → head t = 1 + popcount t ∧ 2 ≤ head t ∧ head t ≤ 8

/-- `unpackHead(packWord(w) ++ c)` gives back the word `w`, where `c` is one count byte for the tags `0x00` and `0xff` and nothing for any
other tag (R84). -/
def Obligations.UnpackHeadInvertsPackWord : Prop :=
  ∀ (w : List Byte) (c : Byte), w.length = 8 →
    (tagClass (tag w) = .lit → (unpackHead (packWord w)).word = w) ∧
    (tagClass (tag w) ≠ .lit → (unpackHead (packWord w ++ [c])).word = w)

/-! ### The words of the response port -/

/-- The response word is `{LEN, ERR, KIND}`: LEN in bits 31 to 8, the error code or 0 in bits 7 to 4, the kind in bits 3 to 0; LEN counts
the data bytes of OUTPUT and RESULT, is 8 for STATUS, an ERROR's info, and else 0 (R73). The kinds have the numbers of R74's table and the
error codes those of R139's; OUTPUT and RESULT carry their data, and OK, NONE, DONE and ERROR carry none. -/
def Obligations.ResponseWordFields : Prop :=
  (∀ r : Response, r.word.extractLsb' 0 4 = r.kind ∧ r.word.extractLsb' 8 24 = r.len) ∧
  (∀ (e : ErrCode) (info : BitVec 24),
    (Response.error e info).word.extractLsb' 4 4 = e.code ∧ (Response.error e info).len = info) ∧
  (∀ r : Response, (∀ e info, r ≠ .error e info) → r.word.extractLsb' 4 4 = 0#4) ∧
  (∀ d : List Byte, d.length < 2 ^ 24 →
    (Response.output d).len.toNat = d.length ∧ (Response.result d).len.toNat = d.length) ∧
  (∀ v, (Response.status v).len = 8#24) ∧
  Response.ok.len = 0#24 ∧ Response.none.len = 0#24 ∧ Response.done.len = 0#24 ∧
  Response.ok.kind = 0#4 ∧ (∀ d, (Response.output d).kind = 1#4) ∧ Response.none.kind = 2#4 ∧ Response.done.kind = 3#4 ∧
  (∀ d, (Response.result d).kind = 4#4) ∧ (∀ v, (Response.status v).kind = 5#4) ∧
  (∀ e info, (Response.error e info).kind = 15#4) ∧
  ErrCode.config.code = 1#4 ∧ ErrCode.malformed.code = 2#4 ∧ ErrCode.capacity.code = 3#4 ∧ ErrCode.upstream.code = 4#4 ∧
  ErrCode.notcfg.code = 5#4 ∧ ErrCode.busy.code = 6#4 ∧ ErrCode.failed.code = 7#4 ∧ ErrCode.illegal.code = 8#4 ∧
  (∀ d, (Response.output d).data = d) ∧ (∀ d, (Response.result d).data = d) ∧
  Response.ok.data = [] ∧ Response.none.data = [] ∧ Response.done.data = [] ∧
  ∀ e info, (Response.error e info).data = []

/-- A STATUS response carries the register as 8 data bytes, least significant byte first: data byte `k` is `STAT[8k+7:8k]` (R49). -/
def Obligations.StatusBytesAreLittleEndian : Prop :=
  ∀ v : BitVec 64, (Response.status v).data.length = 8 ∧
    ∀ k, k < 8 → (Response.status v).data[k]? = some (v.extractLsb' (8 * k) 8)

/-- The layout of ENC's status register, field by field, for counts within their registers' widths (R39). -/
def Obligations.EncStatusLayout : Prop :=
  EncMain.start.code = 0#2 ∧ EncMain.zeroRangeWriting.code = 1#2 ∧ EncMain.verbatimRangeWriting.code = 2#2 ∧
  EncCont.none.code = 0#2 ∧ EncCont.initializing.code = 1#2 ∧ EncCont.continuing.code = 2#2 ∧
  ∀ u : Enc, u.mcnt < 2 ^ 12 → u.cend < 2 ^ 12 → u.inlen < 2 ^ 24 →
    let v := encStatus u
    v.extractLsb' 0 2 = u.main.code ∧ v.extractLsb' 2 2 = u.cont.code ∧ v.getLsbD 4 = u.cfg ∧ v.getLsbD 5 = u.failed ∧
    v.getLsbD 6 = decide (u.inptr < u.inlen) ∧ v.getLsbD 7 = false ∧ v.extractLsb' 8 4 = u.err ∧ v.extractLsb' 12 4 = 0#4 ∧
    (v.extractLsb' 16 12).toNat = u.mcnt ∧ (v.extractLsb' 28 12).toNat = u.cend ∧
    (v.extractLsb' 40 24).toNat = u.inlen - u.inptr

/-- The layout of DEC's and DOS's status registers, field by field, for counts within their registers' widths (R40). -/
def Obligations.DecoderStatusLayouts : Prop :=
  DecMain.start.code = 0#2 ∧ DecMain.zeroRange.code = 1#2 ∧ DecMain.verbatimRange.code = 2#2 ∧
  (∀ d : Decoder, d.cnt < 2 ^ 12 → d.remlen < 2 ^ 4 → d.inlen < 2 ^ 24 →
    let v := decStatus d
    v.extractLsb' 0 2 = d.main.code ∧ v.extractLsb' 2 2 = 0#2 ∧ v.getLsbD 4 = d.cfg ∧ v.getLsbD 5 = d.failed ∧
    v.getLsbD 6 = decide (d.inptr < d.inlen) ∧ v.getLsbD 7 = false ∧ v.extractLsb' 8 4 = d.err ∧
    (v.extractLsb' 12 4).toNat = d.remlen ∧ (v.extractLsb' 16 12).toNat = d.cnt ∧ v.extractLsb' 28 12 = 0#12 ∧
    (v.extractLsb' 40 24).toNat = d.inlen - d.inptr) ∧
  (∀ u : Dos, u.cnt < 2 ^ 12 → u.remlen < 2 ^ 4 → u.w < 2 ^ 24 →
    let v := dosStatus u
    v.extractLsb' 0 2 = u.main.code ∧ v.extractLsb' 2 2 = 0#2 ∧ v.getLsbD 4 = u.cfg ∧ v.getLsbD 5 = u.failed ∧
    v.getLsbD 6 = decide (u.inptr < u.inlen) ∧ v.getLsbD 7 = false ∧ v.extractLsb' 8 4 = u.err ∧
    (v.extractLsb' 12 4).toNat = u.remlen ∧ (v.extractLsb' 16 12).toNat = u.cnt ∧ v.extractLsb' 28 12 = 0#12 ∧
    (v.extractLsb' 40 24).toNat = u.w)

/-! ### Which units a run takes -/

/-- `DEC.NEXT` on a ready unit in a legal state with an empty Remainder: with fewer than 10 unread chunk bytes in `Start`, or fewer than 8
in a verbatim range, it decodes nothing, even a complete group: it answers NONE, and the Remainder is then those bytes. With 10, or 8, or
more of them it decodes at least one unit and answers OUTPUT (R101, R102, R110's first corner case). -/
def Obligations.DecNextInternsAShortChunk : Prop :=
  ∀ s : State, s.Legal → s.dec.Ready → s.dec.remlen = 0 →
    (s.dec.main = .start ∧ s.dec.inlen - s.dec.inptr < 10 ∨
        s.dec.main = .verbatimRange ∧ s.dec.inlen - s.dec.inptr < 8 →
      ∃ d : Decoder, exec .decNext s = .next ((s.setDec d).deliver .none) ∧
        d.inptr = d.inlen ∧ d.inlen = s.dec.inlen ∧ d.remlen = s.dec.inlen - s.dec.inptr ∧
        readBytes? d.rem 0 d.remlen = some s.dec.unread ∧ d.main = s.dec.main ∧ d.cnt = s.dec.cnt) ∧
    (s.dec.main = .start ∧ 10 ≤ s.dec.inlen - s.dec.inptr ∨
        s.dec.main = .verbatimRange ∧ 8 ≤ s.dec.inlen - s.dec.inptr →
      ∃ (d : Decoder) (out : List Byte), out ≠ [] ∧ exec .decNext s = .next ((s.setDec d).deliver (.output out)))

/-- `DOS.SET s` on a ready unit in a legal state with an empty Remainder: a chunk of fewer than 10 bytes in `Start`, or fewer than 8 in a
verbatim range, is not decoded, even a complete group: the answer is OK, `DOS.W` and the output so far stay, and the Remainder is the
chunk. With 10, or 8, or more bytes and space for a word, `DOS.W` goes up by at least one word (R101, R102, R113's example). -/
def Obligations.DosSetInternsAShortChunk : Prop :=
  ∀ (chunk : List Byte) (s : State), s.Legal → s.dos.Ready → s.dos.remlen = 0 → chunk.length ≤ s.params.maxIn →
    (s.dos.main = .start ∧ chunk.length < 10 ∨ s.dos.main = .verbatimRange ∧ chunk.length < 8 →
      ∃ u : Dos, exec (.dosSet chunk) s = .next ((s.setDos u).deliver .ok) ∧
        u.w = s.dos.w ∧ readBytes? u.outm 0 u.w = readBytes? s.dos.outm 0 s.dos.w ∧ u.inptr = u.inlen ∧
        u.remlen = chunk.length ∧ readBytes? u.rem 0 u.remlen = some chunk ∧ u.main = s.dos.main ∧ u.cnt = s.dos.cnt) ∧
    (s.dos.main = .start ∧ 10 ≤ chunk.length ∨ s.dos.main = .verbatimRange ∧ 8 ≤ chunk.length →
      s.dos.w + 8 ≤ s.dos.cap →
      ∃ (u : Dos) (r : Response), exec (.dosSet chunk) s = .next ((s.setDos u).deliver r) ∧ s.dos.w + 8 ≤ u.w)

/-- What a run that is not final does next, from any legal configured unit, so which units it takes in all. In a zero range it pays, with any
input. With an empty Remainder it takes a Start group only while 10 chunk bytes remain, and a verbatim word only while 8 do; else it
interns the chunk's rest and returns. With bytes in the Remainder it takes one unit as soon as the Remainder and the chunk hold it, and
else appends the chunk's rest and returns. After each unit it goes on with the rest (R99 to R102). Bytes of the Remainder from `REMLEN`
on, which R35 leaves unspecified, are as the model's writes leave them (log 11). -/
def Obligations.DecodeRunTakesUnitsByThePhases : Prop :=
  ∀ (p : Params) (d : Decoder) (o : Nat), d.SharedLegal p → d.cfg = true → o % 8 = 0 → o ≤ d.cap →
    let run := fun (d : Decoder) (o : Nat) => decRun p d o false
    let need := syncBytes d (d.unconsumed.headD 0x00#8)
    let least := if d.main = .start then 10 else 8
    let left := d.inlen - d.inptr
    (d.main = .zeroRange → run d o = (zeroUnit d o).bind run) ∧
    (d.main ≠ .zeroRange → d.remlen = 0 → left < least →
      run d o = .back { d with rem := writeBytes d.rem 0 d.unread, remlen := left, inptr := d.inlen } o) ∧
    (d.main ≠ .zeroRange → d.remlen = 0 → least ≤ left →
      run d o = (runUnit d o (d.unread.take need)).bind fun d o => run { d with inptr := d.inptr + need } o) ∧
    (d.main ≠ .zeroRange → 0 < d.remlen → d.remlen + left < need →
      run d o = .back { d with
        rem := writeBytes d.rem d.remlen d.unread, remlen := d.remlen + left, inptr := d.inlen } o) ∧
    (d.main ≠ .zeroRange → 0 < d.remlen → need ≤ d.remlen →
      run d o = (runUnit d o (d.unconsumed.take need)).bind fun u o => run { u with
        rem := writeBytes d.rem 0 ((d.unconsumed.take d.remlen).drop need), remlen := d.remlen - need } o) ∧
    (d.main ≠ .zeroRange → 0 < d.remlen → d.remlen < need → need ≤ d.remlen + left →
      run d o = (runUnit d o (d.unconsumed.take need)).bind fun u o => run { u with
        rem := writeBytes d.rem d.remlen (d.unread.take (need - d.remlen)), remlen := 0,
        inptr := d.inptr + (need - d.remlen) } o)
end

