-- ==== Sys2Proof/Laws/Decode.lean ====
section
/-!
SUPPORT. Laws of the command word's two fields, and of decoding a word whose fields are known.
-/

namespace Sys2Proof

/-- The opcode of a command word is the opcode it was built with. -/
@[simp] theorem opcodeOf_commandWord (arg : BitVec 24) (opcode : BitVec 8) :
    opcodeOf (commandWord arg opcode) = opcode := by
  ext i hi
  rw [opcodeOf, commandWord, BitVec.getElem_extractLsb', Nat.zero_add, BitVec.getLsbD_append, if_pos hi,
    BitVec.getLsbD_eq_getElem hi]

/-- The ARG of a command word is the ARG it was built with. -/
@[simp] theorem argOf_commandWord (arg : BitVec 24) (opcode : BitVec 8) :
    argOf (commandWord arg opcode) = arg := by
  ext i hi
  rw [argOf, commandWord, BitVec.getElem_extractLsb', BitVec.getLsbD_append, if_neg (by omega),
    Nat.add_sub_cancel_left, BitVec.getLsbD_eq_getElem hi]

/-- A command word is its two fields. -/
theorem commandWord_fields (w : BitVec 32) : commandWord (argOf w) (opcodeOf w) = w := by
  ext i hi
  unfold commandWord argOf opcodeOf
  rw [BitVec.getElem_append]
  split
  · rw [BitVec.getElem_extractLsb', Nat.zero_add, BitVec.getLsbD_eq_getElem hi]
  · rw [BitVec.getElem_extractLsb', ← BitVec.getLsbD_eq_getElem hi]
    congr 1; omega

/-- What an ARG-carrying command decodes from. -/
theorem decodeArg_eq_ok_iff (c : Command) (k : BitVec 24 → Instr) (i : Instr) :
    decodeArg c k = .ok i ↔ c.data = [] ∧ i = k (argOf c.word) := by
  unfold decodeArg; split <;> simp_all [eq_comm]

/-- What a SET decodes from. -/
theorem decodeSet_eq_ok_iff (c : Command) (k : List Byte → Instr) (i : Instr) :
    decodeSet c k = .ok i ↔ c.data.length = (argOf c.word).toNat ∧ i = k c.data := by
  unfold decodeSet; split <;> simp_all [eq_comm]

/-- What a command without operand decodes from. -/
theorem decodeNone_eq_ok_iff (c : Command) (j i : Instr) :
    decodeNone c j = .ok i ↔ argOf c.word = 0 ∧ c.data = [] ∧ i = j := by
  unfold decodeNone; split
  · simp_all
  · split <;> simp_all [eq_comm]

theorem encodeArg_word (arg : BitVec 24) (opcode : BitVec 8) : (encodeArg arg opcode).word = commandWord arg opcode := rfl
theorem encodeArg_data (arg : BitVec 24) (opcode : BitVec 8) : (encodeArg arg opcode).data = [] := rfl
theorem encodeSet_word (chunk : List Byte) (opcode : BitVec 8) :
    (encodeSet chunk opcode).word = commandWord (BitVec.ofNat 24 chunk.length) opcode := rfl
theorem encodeSet_data (chunk : List Byte) (opcode : BitVec 8) : (encodeSet chunk opcode).data = chunk := rfl

end Sys2Proof
end

