-- ==== Sys2Proof/Laws/Memory.lean ====
section
/-!
SUPPORT. The laws of a unit's memories: a read after a write, what a write leaves alone, and the canonical form. After these no
proof unfolds `readByte?`, `readBytes?` or `writeBytes`.
-/

namespace Sys2Proof.Machine

/-! ### One byte -/

@[simp] theorem readByte?_nil (a : Nat) : readByte? [] a = none := rfl

theorem readByte?_append (m m' : Mem) (a : Nat) :
    readByte? (m ++ m') a = (readByte? m a).or (readByte? m' a) := by
  induction m with
  | nil => simp
  | cons c m ih =>
    obtain ⟨k, b⟩ := c
    by_cases h : k = a <;> simp [readByte?, h, ih]

theorem readByte?_filter (p : Nat → Bool) (m : Mem) (a : Nat) :
    readByte? (m.filter fun c => p c.1) a = if p a then readByte? m a else none := by
  induction m with
  | nil => simp
  | cons c m ih =>
    obtain ⟨k, b⟩ := c
    by_cases h : k = a
    · subst h; by_cases hp : p k <;> simp [readByte?, hp, ih]
    · by_cases hp : p k <;> simp [readByte?, hp, h, ih]

theorem readByte?_cellsAt (a : Nat) (bs : List Byte) (k : Nat) :
    readByte? (cellsAt a bs) k = if a ≤ k then bs[k - a]? else none := by
  induction bs generalizing a with
  | nil => simp [cellsAt]
  | cons b bs ih =>
    rw [cellsAt, readByte?, ih]
    split
    · next h => simp [h]
    · split
      · have e : k - a = k - (a + 1) + 1 := by omega
        rw [if_pos (by omega), e, List.getElem?_cons_succ]
      · rw [if_neg (by omega)]

/-- What a write does to every byte: the bytes written, and all others as before. -/
theorem readByte?_writeBytes (m : Mem) (a : Nat) (bs : List Byte) (k : Nat) :
    readByte? (writeBytes m a bs) k =
      if a ≤ k ∧ k < a + bs.length then bs[k - a]? else readByte? m k := by
  have h1 := readByte?_filter (fun i => decide (i < a)) m k
  have h2 := readByte?_filter (fun i => decide (a + bs.length ≤ i)) m k
  rw [writeBytes, readByte?_append, readByte?_append, h1, h2, readByte?_cellsAt]
  by_cases hlt : k < a
  · have : ¬ (a + bs.length ≤ k) := by omega
    have h3 : ¬ (a ≤ k) := by omega
    simp [hlt, this, h3]
  · by_cases hin : k < a + bs.length
    · have h3 : ¬ (a + bs.length ≤ k) := by omega
      have h4 : a ≤ k := by omega
      simp [hlt, h3, hin, h4]
    · have h3 : bs.length ≤ k - a := by omega
      have h4 : a + bs.length ≤ k := by omega
      simp [hlt, hin, h4, List.getElem?_eq_none h3]

/-- A write leaves every byte outside it alone. -/
theorem readByte?_writeBytes_outside {m : Mem} {a : Nat} {bs : List Byte} {k : Nat}
    (h : k < a ∨ a + bs.length ≤ k) : readByte? (writeBytes m a bs) k = readByte? m k := by
  rw [readByte?_writeBytes, if_neg (by omega)]

/-! ### Several bytes -/

@[simp] theorem readBytes?_zero (m : Mem) (a : Nat) : readBytes? m a 0 = some [] := rfl

/-- Reading `n` bytes is reading each of them. -/
theorem readBytes?_eq_some_iff (m : Mem) (a n : Nat) (bs : List Byte) :
    readBytes? m a n = some bs ↔ bs.length = n ∧ ∀ i, i < n → readByte? m (a + i) = bs[i]? := by
  induction n generalizing a bs with
  | zero => cases bs <;> simp
  | succ n ih =>
    constructor
    · intro h
      rw [readBytes?] at h
      split at h
      · next b cs hb hcs =>
        obtain ⟨hl, hi⟩ := (ih (a + 1) cs).mp hcs
        cases h
        refine ⟨by simp [hl], fun i hlt => ?_⟩
        cases i with
        | zero => simpa using hb
        | succ i =>
          have e : a + (i + 1) = a + 1 + i := by omega
          rw [e, hi i (by omega)]; simp
      · cases h
    · rintro ⟨hl, hi⟩
      obtain _ | ⟨b, cs⟩ := bs
      · cases hl
      · have hb : readByte? m a = some b := by simpa using hi 0 (by omega)
        have hcs : readBytes? m (a + 1) n = some cs := by
          refine (ih (a + 1) cs).mpr ⟨by simpa using hl, fun i hlt => ?_⟩
          have e : a + 1 + i = a + (i + 1) := by omega
          rw [e, hi (i + 1) (by omega)]; simp
        rw [readBytes?, hb, hcs]

theorem readBytes?_length {m : Mem} {a n : Nat} {bs : List Byte} (h : readBytes? m a n = some bs) : bs.length = n :=
  ((readBytes?_eq_some_iff m a n bs).mp h).1

/-- All of `n` bytes have been written exactly when each of them has. -/
theorem bytesHeld_iff (m : Mem) (a n : Nat) : bytesHeld m a n ↔ ∀ i, i < n → (readByte? m (a + i)).isSome = true := by
  induction n generalizing a with
  | zero => simp [bytesHeld]
  | succ n ih =>
    have hih := ih (a + 1)
    rw [bytesHeld, readBytes?]
    constructor
    · intro h i hi
      split at h
      · next b cs hb hcs =>
        cases i with
        | zero => simp [hb]
        | succ i =>
          have e : a + (i + 1) = a + 1 + i := by omega
          rw [e]; exact hih.mp (by rw [bytesHeld, hcs]; rfl) i (by omega)
      · cases h
    · intro h
      have h0 := h 0 (by omega)
      have hr : bytesHeld m (a + 1) n := hih.mpr fun i hi => by
        have e : a + 1 + i = a + (i + 1) := by omega
        rw [e]; exact h (i + 1) (by omega)
      obtain ⟨b, hb⟩ := Option.isSome_iff_exists.mp h0
      obtain ⟨cs, hcs⟩ := Option.isSome_iff_exists.mp hr
      simp only [Nat.add_zero] at hb
      simp [hb, hcs]

/-- Two memories that agree on `n` bytes read the same there. -/
theorem readBytes?_congr {m m' : Mem} {a n : Nat}
    (h : ∀ i, i < n → readByte? m (a + i) = readByte? m' (a + i)) : readBytes? m a n = readBytes? m' a n := by
  induction n generalizing a with
  | zero => rfl
  | succ n ih =>
    have h0 := h 0 (by omega)
    have hr : readBytes? m (a + 1) n = readBytes? m' (a + 1) n := ih fun i hi => by
      have e : a + 1 + i = a + (i + 1) := by omega
      rw [e]; exact h (i + 1) (by omega)
    simp only [Nat.add_zero] at h0
    rw [readBytes?, readBytes?, h0, hr]

/-- What has just been written reads back. -/
theorem readBytes?_writeBytes_self (m : Mem) (a : Nat) (bs : List Byte) :
    readBytes? (writeBytes m a bs) a bs.length = some bs := by
  refine (readBytes?_eq_some_iff _ _ _ _).mpr ⟨rfl, fun i hi => ?_⟩
  rw [readByte?_writeBytes, if_pos (by omega)]
  congr 1; omega

/-- Bytes read outside a write are as before. -/
theorem readBytes?_writeBytes_outside {m : Mem} {a b n : Nat} {bs : List Byte}
    (h : b + n ≤ a ∨ a + bs.length ≤ b) : readBytes? (writeBytes m a bs) b n = readBytes? m b n :=
  readBytes?_congr fun i hi => readByte?_writeBytes_outside (by omega)

/-- Reading `n + k` bytes is reading `n` and then `k`. -/
theorem readBytes?_add (m : Mem) (a n k : Nat) :
    readBytes? m a (n + k) =
      (readBytes? m a n).bind fun x => (readBytes? m (a + n) k).map fun y => x ++ y := by
  induction n generalizing a with
  | zero => cases h : readBytes? m a k <;> simp [h]
  | succ n ih =>
    have e : n + 1 + k = n + k + 1 := by omega
    have e' : a + (n + 1) = a + 1 + n := by omega
    rw [e, readBytes?, readBytes?, ih (a + 1), e']
    cases readByte? m a <;> cases readBytes? m (a + 1) n <;> cases readBytes? m (a + 1 + n) k <;> rfl

/-- A write directly behind bytes that are held makes one longer run of bytes. -/
theorem readBytes?_writeBytes_append {m : Mem} {a n : Nat} {old bs : List Byte} (h : readBytes? m a n = some old) :
    readBytes? (writeBytes m (a + n) bs) a (n + bs.length) = some (old ++ bs) := by
  rw [readBytes?_add, readBytes?_writeBytes_outside (.inl (Nat.le_refl _)), h, readBytes?_writeBytes_self]
  rfl

/-- Fewer bytes of a run that is held are held. -/
theorem bytesHeld_mono {m : Mem} {a n b k : Nat} (h : bytesHeld m a n) (hb : a ≤ b) (hk : b + k ≤ a + n) :
    bytesHeld m b k := by
  refine (bytesHeld_iff m b k).mpr fun i hi => ?_
  have e : b + i = a + (b - a + i) := by omega
  rw [e]; exact (bytesHeld_iff m a n).mp h _ (by omega)

/-! ### The canonical form -/

theorem memWf_iff (m : Mem) : memWf m = true ↔ (m.map Prod.fst).Pairwise (· < ·) := by simp [memWf]

@[simp] theorem memWf_nil : memWf [] = true := by simp [memWf]

theorem mem_cellsAt {a : Nat} {bs : List Byte} {c : Host.Cell} (h : c ∈ cellsAt a bs) :
    a ≤ c.1 ∧ c.1 < a + bs.length := by
  induction bs generalizing a with
  | nil => cases h
  | cons b bs ih =>
    rw [cellsAt, List.mem_cons] at h
    rcases h with rfl | h
    · simp
    · have := ih h
      simp only [List.length_cons]; omega

theorem memWf_cellsAt (a : Nat) (bs : List Byte) : memWf (cellsAt a bs) = true := by
  rw [memWf_iff]
  induction bs generalizing a with
  | nil => simp [cellsAt]
  | cons b bs ih =>
    rw [cellsAt, List.map_cons, List.pairwise_cons]
    refine ⟨fun k hk => ?_, ih (a + 1)⟩
    obtain ⟨c, hc, rfl⟩ := List.mem_map.mp hk
    exact (mem_cellsAt hc).1

/-- A write keeps the canonical form. -/
theorem memWf_writeBytes {m : Mem} (h : memWf m = true) (a : Nat) (bs : List Byte) :
    memWf (writeBytes m a bs) = true := by
  have hc := memWf_cellsAt a bs
  rw [memWf_iff] at h hc ⊢
  rw [List.pairwise_map] at h hc ⊢
  rw [writeBytes, List.pairwise_append, List.pairwise_append]
  refine ⟨⟨h.filter _, hc, fun x hx y hy => ?_⟩, h.filter _, fun x hx y hy => ?_⟩
  · have := (mem_cellsAt hy).1
    simp only [List.mem_filter, decide_eq_true_eq] at hx
    omega
  · simp only [List.mem_filter, decide_eq_true_eq, List.mem_append] at hx hy
    rcases hx with hx | hx
    · omega
    · have := (mem_cellsAt hx).2
      omega

/-- A write inside a memory lists only its addresses. -/
theorem memWithin_writeBytes {m : Mem} {size a : Nat} {bs : List Byte} (h : memWithin m size)
    (hi : a + bs.length ≤ size) : memWithin (writeBytes m a bs) size := by
  refine ⟨memWf_writeBytes h.1 a bs, fun c hc => ?_⟩
  rw [writeBytes, List.mem_append, List.mem_append] at hc
  rcases hc with (hc | hc) | hc
  · exact h.2 c (List.mem_filter.mp hc).1
  · have := (mem_cellsAt hc).2; omega
  · exact h.2 c (List.mem_filter.mp hc).1

/-! ### The two accesses -/

/-- `memRead` answers bytes exactly when the access lies in the memory and all its bytes have been written. -/
theorem memRead_eq_ok_iff (m : Mem) (size a n : Nat) (bs : List Byte) :
    memRead m size a n = .ok bs ↔ a + n ≤ size ∧ readBytes? m a n = some bs := by
  unfold memRead
  split
  · split <;> simp_all
  · simp_all

/-- `memWrite` writes exactly when the access lies in the memory. -/
theorem memWrite_eq_ok_iff (m m' : Mem) (size a : Nat) (bs : List Byte) :
    memWrite m size a bs = .ok m' ↔ a + bs.length ≤ size ∧ m' = writeBytes m a bs := by
  unfold memWrite
  split <;> simp_all [eq_comm]

theorem memRead_of_held {m : Mem} {size a n : Nat} {bs : List Byte} (hs : a + n ≤ size)
    (h : readBytes? m a n = some bs) : memRead m size a n = .ok bs :=
  (memRead_eq_ok_iff m size a n bs).mpr ⟨hs, h⟩

theorem memWrite_of_le {m : Mem} {size a : Nat} {bs : List Byte} (h : a + bs.length ≤ size) :
    memWrite m size a bs = .ok (writeBytes m a bs) :=
  (memWrite_eq_ok_iff m _ size a bs).mpr ⟨h, rfl⟩

/-- The bytes a successful read answers are as many as it asked for. -/
theorem memRead_length {m : Mem} {size a n : Nat} {bs : List Byte} (h : memRead m size a n = .ok bs) :
    bs.length = n :=
  readBytes?_length ((memRead_eq_ok_iff m size a n bs).mp h).2

/-- The memories at reset are in canonical form, and list only addresses they have. -/
theorem reset_memories_canonical :
    memWithin State.reset.enc.input State.reset.params.maxIn ∧ memWithin State.reset.enc.out State.reset.enc.cap ∧
    memWithin State.reset.dec.input State.reset.params.maxIn ∧ memWithin State.reset.dec.outm State.reset.dec.cap ∧
    memWithin State.reset.dec.rem Config.REM_CAP ∧ memWithin State.reset.dos.input State.reset.params.maxIn ∧
    memWithin State.reset.dos.outm State.reset.dos.cap ∧ memWithin State.reset.dos.rem Config.REM_CAP :=
  have h (n : Nat) : memWithin [] n := ⟨memWf_nil, by simp⟩
  ⟨h _, h _, h _, h _, h _, h _, h _, h _⟩

end Sys2Proof.Machine
end

