-- ==== Sys2Proof/Laws/State.lean ====
section
/-!
SUPPORT. One lemma for each field under each update of the machine's state, so that no proof unfolds a record update.
-/

namespace Sys2Proof.Machine

/-! ### `State.setEnc` -/

@[simp] theorem State.setEnc_params (s : State) (u : Enc) : (s.setEnc u).params = s.params := rfl
@[simp] theorem State.setEnc_enc (s : State) (u : Enc) : (s.setEnc u).enc = u := rfl
@[simp] theorem State.setEnc_dec (s : State) (u : Enc) : (s.setEnc u).dec = s.dec := rfl
@[simp] theorem State.setEnc_dos (s : State) (u : Enc) : (s.setEnc u).dos = s.dos := rfl
@[simp] theorem State.setEnc_pending (s : State) (u : Enc) : (s.setEnc u).pending = s.pending := rfl
@[simp] theorem State.setEnc_delivered (s : State) (u : Enc) : (s.setEnc u).delivered = s.delivered := rfl

/-! ### `State.setDec` -/

@[simp] theorem State.setDec_params (s : State) (u : Decoder) : (s.setDec u).params = s.params := rfl
@[simp] theorem State.setDec_enc (s : State) (u : Decoder) : (s.setDec u).enc = s.enc := rfl
@[simp] theorem State.setDec_dec (s : State) (u : Decoder) : (s.setDec u).dec = u := rfl
@[simp] theorem State.setDec_dos (s : State) (u : Decoder) : (s.setDec u).dos = s.dos := rfl
@[simp] theorem State.setDec_pending (s : State) (u : Decoder) : (s.setDec u).pending = s.pending := rfl
@[simp] theorem State.setDec_delivered (s : State) (u : Decoder) : (s.setDec u).delivered = s.delivered := rfl

/-! ### `State.setDos` -/

@[simp] theorem State.setDos_params (s : State) (u : Dos) : (s.setDos u).params = s.params := rfl
@[simp] theorem State.setDos_enc (s : State) (u : Dos) : (s.setDos u).enc = s.enc := rfl
@[simp] theorem State.setDos_dec (s : State) (u : Dos) : (s.setDos u).dec = s.dec := rfl
@[simp] theorem State.setDos_dos (s : State) (u : Dos) : (s.setDos u).dos = u := rfl
@[simp] theorem State.setDos_pending (s : State) (u : Dos) : (s.setDos u).pending = s.pending := rfl
@[simp] theorem State.setDos_delivered (s : State) (u : Dos) : (s.setDos u).delivered = s.delivered := rfl

/-! ### `State.deliver` -/

@[simp] theorem State.deliver_params (s : State) (r : Response) : (s.deliver r).params = s.params := rfl
@[simp] theorem State.deliver_enc (s : State) (r : Response) : (s.deliver r).enc = s.enc := rfl
@[simp] theorem State.deliver_dec (s : State) (r : Response) : (s.deliver r).dec = s.dec := rfl
@[simp] theorem State.deliver_dos (s : State) (r : Response) : (s.deliver r).dos = s.dos := rfl
@[simp] theorem State.deliver_pending (s : State) (r : Response) : (s.deliver r).pending = s.pending := rfl
@[simp] theorem State.deliver_delivered (s : State) (r : Response) : (s.deliver r).delivered = s.delivered ++ [r] := rfl

/-! ### `State.accept` -/

@[simp] theorem State.accept_params (s : State) : (s.accept).params = s.params := rfl
@[simp] theorem State.accept_enc (s : State) : (s.accept).enc = s.enc := rfl
@[simp] theorem State.accept_dec (s : State) : (s.accept).dec = s.dec := rfl
@[simp] theorem State.accept_dos (s : State) : (s.accept).dos = s.dos := rfl
@[simp] theorem State.accept_pending (s : State) : (s.accept).pending = s.pending.tail := rfl
@[simp] theorem State.accept_delivered (s : State) : (s.accept).delivered = s.delivered := rfl

/-! ### `State.issue` -/

@[simp] theorem State.issue_params (s : State) (c : Command) : (s.issue c).params = s.params := rfl
@[simp] theorem State.issue_enc (s : State) (c : Command) : (s.issue c).enc = s.enc := rfl
@[simp] theorem State.issue_dec (s : State) (c : Command) : (s.issue c).dec = s.dec := rfl
@[simp] theorem State.issue_dos (s : State) (c : Command) : (s.issue c).dos = s.dos := rfl
@[simp] theorem State.issue_pending (s : State) (c : Command) : (s.issue c).pending = .command c :: s.pending := rfl
@[simp] theorem State.issue_delivered (s : State) (c : Command) : (s.issue c).delivered = s.delivered := rfl

/-! ### `State.resetUnits` -/

@[simp] theorem State.resetUnits_params (s : State) : (s.resetUnits).params = s.params := rfl
@[simp] theorem State.resetUnits_enc (s : State) : (s.resetUnits).enc = Enc.reset := rfl
@[simp] theorem State.resetUnits_dec (s : State) : (s.resetUnits).dec = Decoder.reset := rfl
@[simp] theorem State.resetUnits_dos (s : State) : (s.resetUnits).dos = Dos.reset := rfl
@[simp] theorem State.resetUnits_pending (s : State) : (s.resetUnits).pending = s.pending := rfl
@[simp] theorem State.resetUnits_delivered (s : State) : (s.resetUnits).delivered = s.delivered := rfl

/-! ### `State.refuseIllegal` -/

@[simp] theorem State.refuseIllegal_params (s : State) : (s.refuseIllegal).params = s.params := rfl
@[simp] theorem State.refuseIllegal_enc (s : State) : (s.refuseIllegal).enc = s.enc := rfl
@[simp] theorem State.refuseIllegal_dec (s : State) : (s.refuseIllegal).dec = s.dec := rfl
@[simp] theorem State.refuseIllegal_dos (s : State) : (s.refuseIllegal).dos = s.dos := rfl
@[simp] theorem State.refuseIllegal_pending (s : State) : (s.refuseIllegal).pending = s.pending := rfl
@[simp] theorem State.refuseIllegal_delivered (s : State) : (s.refuseIllegal).delivered = s.delivered ++ [.error .illegal 0#24] := rfl

/-! ### Updates that meet -/

theorem State.setEnc_self (s : State) : s.setEnc s.enc = s := rfl
theorem State.setDec_self (s : State) : s.setDec s.dec = s := rfl
theorem State.setDos_self (s : State) : s.setDos s.dos = s := rfl
@[simp] theorem State.setEnc_setEnc (s : State) (u v : Enc) : (s.setEnc u).setEnc v = s.setEnc v := rfl
@[simp] theorem State.setDec_setDec (s : State) (u v : Decoder) : (s.setDec u).setDec v = s.setDec v := rfl
@[simp] theorem State.setDos_setDos (s : State) (u v : Dos) : (s.setDos u).setDos v = s.setDos v := rfl

/-- Two states with equal fields are equal. -/
theorem State.eq_of_fields {s t : State} (params : s.params = t.params) (enc : s.enc = t.enc) (dec : s.dec = t.dec)
    (dos : s.dos = t.dos) (pending : s.pending = t.pending) (delivered : s.delivered = t.delivered) : s = t := by
  cases s; cases t; simp_all

/-! ### Failing, and the runs of DOS -/

@[simp] theorem failWith_cfg (e : ErrCode) (c : Common) : (failWith e c).cfg = c.cfg := rfl
@[simp] theorem failWith_failed (e : ErrCode) (c : Common) : (failWith e c).failed = true := rfl
@[simp] theorem failWith_err (e : ErrCode) (c : Common) : (failWith e c).err = e.code := rfl
@[simp] theorem failWith_cap (e : ErrCode) (c : Common) : (failWith e c).cap = c.cap := rfl
@[simp] theorem failWith_input (e : ErrCode) (c : Common) : (failWith e c).input = c.input := rfl
@[simp] theorem failWith_inlen (e : ErrCode) (c : Common) : (failWith e c).inlen = c.inlen := rfl
@[simp] theorem failWith_inptr (e : ErrCode) (c : Common) : (failWith e c).inptr = c.inptr := rfl
@[simp] theorem failDecoder_toCommon (e : ErrCode) (d : Decoder) :
    (failDecoder e d).toCommon = failWith e d.toCommon := rfl
@[simp] theorem failDecoder_main (e : ErrCode) (d : Decoder) : (failDecoder e d).main = d.main := rfl
@[simp] theorem failDecoder_cnt (e : ErrCode) (d : Decoder) : (failDecoder e d).cnt = d.cnt := rfl
@[simp] theorem failDecoder_rem (e : ErrCode) (d : Decoder) : (failDecoder e d).rem = d.rem := rfl
@[simp] theorem failDecoder_remlen (e : ErrCode) (d : Decoder) : (failDecoder e d).remlen = d.remlen := rfl
@[simp] theorem failDecoder_outm (e : ErrCode) (d : Decoder) : (failDecoder e d).outm = d.outm := rfl
@[simp] theorem dosAt_toDecoder (d : Decoder) (o : Nat) : (dosAt d o).toDecoder = d := rfl
@[simp] theorem dosAt_w (d : Decoder) (o : Nat) : (dosAt d o).w = o := rfl

end Sys2Proof.Machine
end

