-- ==== Sys2Proof/Laws/Ops.lean ====
section
/-!
SUPPORT. What each shared operation can do, said once: sequencing of procedures, the checks before a command, the chunk
copy, and how a command's end becomes a step of the machine.
-/

namespace Sys2Proof.Machine

open Sys2Proof.Config

/-! ### Sequencing -/

section
variable {σ ε α β : Type}

@[simp] theorem Flow.bind_back (u : σ) (a : α) (k : σ → α → Flow σ ε β) : (Flow.back u a).bind k = k u a := rfl
@[simp] theorem Flow.bind_ended (u : σ) (e : ε) (k : σ → α → Flow σ ε β) :
    (Flow.ended u e : Flow σ ε α).bind k = .ended u e := rfl
@[simp] theorem Flow.bind_stop (f : Fault) (k : σ → α → Flow σ ε β) :
    (Flow.stop f : Flow σ ε α).bind k = .stop f := rfl
@[simp] theorem Flow.access_ok (a : α) (k : α → Flow σ ε β) : Flow.access (.ok a) k = k a := rfl
@[simp] theorem Flow.access_error (f : Fault) (k : α → Flow σ ε β) : Flow.access (.error f) k = .stop f := rfl
@[simp] theorem CommandEnd.access_ok (a : α) (k : α → CommandEnd σ) : CommandEnd.access (.ok a) k = k a := rfl
@[simp] theorem CommandEnd.access_error (f : Fault) (k : α → CommandEnd σ) :
    CommandEnd.access (.error f) k = .stop f := rfl

/-- A sequence gives a value exactly when both procedures do. -/
theorem Flow.bind_eq_back_iff (x : Flow σ ε α) (k : σ → α → Flow σ ε β) (u : σ) (b : β) :
    x.bind k = .back u b ↔ ∃ v a, x = .back v a ∧ k v a = .back u b := by
  cases x <;> simp

/-- A sequence ends the command when its first procedure does, or its second one after it. -/
theorem Flow.bind_eq_ended_iff (x : Flow σ ε α) (k : σ → α → Flow σ ε β) (u : σ) (e : ε) :
    x.bind k = .ended u e ↔ x = .ended u e ∨ ∃ v a, x = .back v a ∧ k v a = .ended u e := by
  cases x <;> simp

/-- A sequence stops when its first procedure does, or its second one after it. -/
theorem Flow.bind_eq_stop_iff (x : Flow σ ε α) (k : σ → α → Flow σ ε β) (f : Fault) :
    x.bind k = .stop f ↔ x = .stop f ∨ ∃ v a, x = .back v a ∧ k v a = .stop f := by
  cases x <;> simp

theorem Flow.access_eq_back_iff (x : Except Fault α) (k : α → Flow σ ε β) (u : σ) (b : β) :
    Flow.access x k = .back u b ↔ ∃ a, x = .ok a ∧ k a = .back u b := by
  cases x <;> simp

theorem Flow.access_eq_ended_iff (x : Except Fault α) (k : α → Flow σ ε β) (u : σ) (e : ε) :
    Flow.access x k = .ended u e ↔ ∃ a, x = .ok a ∧ k a = .ended u e := by
  cases x <;> simp

theorem Flow.access_eq_stop_iff (x : Except Fault α) (k : α → Flow σ ε β) (f : Fault) :
    Flow.access x k = .stop f ↔ x = .error f ∨ ∃ a, x = .ok a ∧ k a = .stop f := by
  cases x <;> simp

theorem CommandEnd.access_eq_respond_iff (x : Except Fault α) (k : α → CommandEnd σ) (u : σ) (r : Response) :
    CommandEnd.access x k = .respond u r ↔ ∃ a, x = .ok a ∧ k a = .respond u r := by
  cases x <;> simp

end

/-! ### The checks before a command (R142) -/

/-- The first checks pass exactly for a ready unit. -/
theorem precheck_eq_none_iff (c : Common) : precheck c = none ↔ c.Ready := by
  unfold precheck Common.Ready
  cases c.cfg <;> cases c.failed <;> simp

/-- The refusal of the first checks is NOTCFG, or FAILED with the recorded code. -/
theorem precheck_eq_some_iff (c : Common) (r : Response) :
    precheck c = some r ↔ (c.cfg = false ∧ r = .error .notcfg 0#24) ∨
      (c.cfg = true ∧ c.failed = true ∧ r = .error .failed (c.err.setWidth 24)) := by
  unfold precheck raise
  cases c.cfg <;> cases c.failed <;> simp [eq_comm]

/-- The checks of a SET pass exactly for a ready unit with a consumed chunk and an acceptable length. -/
theorem precheckSet_eq_none_iff (p : Params) (whole : Bool) (len : Nat) (c : Common) :
    precheckSet p whole len c = none ↔
      c.Ready ∧ c.inlen ≤ c.inptr ∧ len ≤ p.maxIn ∧ (whole = true → len % 8 = 0) := by
  unfold precheckSet
  cases h : precheck c with
  | some r =>
    have hn : ¬ c.Ready := fun hr => by rw [(precheck_eq_none_iff c).mpr hr] at h; cases h
    simp [hn]
  | none =>
    have hr := (precheck_eq_none_iff c).mp h
    grind

/-- Every refusal of a SET is one of five errors. -/
theorem precheckSet_some {p : Params} {whole : Bool} {len : Nat} {c : Common} {r : Response}
    (h : precheckSet p whole len c = some r) :
    precheck c = some r ∨ (c.Ready ∧ c.inptr < c.inlen ∧ r = .error .busy 0#24) ∨
      (c.Ready ∧ c.inlen ≤ c.inptr ∧ r = .error .config 0#24 ∧
        (p.maxIn < len ∨ (whole = true ∧ len % 8 ≠ 0))) := by
  unfold precheckSet at h
  cases hp : precheck c with
  | some q => rw [hp] at h; exact .inl h
  | none =>
    have hr := (precheck_eq_none_iff c).mp hp
    rw [hp] at h
    simp only [raise] at h
    grind

@[simp] theorem checked_some {σ : Type} (r : Response) (u : σ) (go : CommandEnd σ) :
    checked (some r) u go = .respond u r := rfl
@[simp] theorem checked_none {σ : Type} (u : σ) (go : CommandEnd σ) : checked none u go = go := rfl

/-- A checked command answers the refusal and changes nothing, or goes on. -/
theorem checked_eq_respond_iff {σ : Type} (refusal : Option Response) (u v : σ) (r : Response) (go : CommandEnd σ) :
    checked refusal u go = .respond v r ↔ (refusal = some r ∧ v = u) ∨ (refusal = none ∧ go = .respond v r) := by
  cases refusal
  · simp
  · simp; tauto

/-! ### The chunk copy (R46) -/

/-- An acceptable chunk is copied to the front of `U.IN`; the cursor is put before it. -/
theorem installChunk_of_le {p : Params} {s : List Byte} (c : Common) (h : s.length ≤ p.maxIn) :
    installChunk p s c = .ok { c with input := writeBytes c.input 0 s, inlen := s.length, inptr := 0 } := by
  rw [installChunk, memWrite_of_le (by simpa using h)]

/-- What a copied chunk means. -/
theorem installChunk_eq_ok_iff (p : Params) (s : List Byte) (c c' : Common) :
    installChunk p s c = .ok c' ↔ s.length ≤ p.maxIn ∧
      c' = { c with input := writeBytes c.input 0 s, inlen := s.length, inptr := 0 } := by
  by_cases hl : s.length ≤ p.maxIn
  · rw [installChunk_of_le c hl, Except.ok.injEq, eq_comm, and_iff_right hl]
  · simp [installChunk, memWrite, hl]

/-- The unread bytes of a chunk that has just been copied in are the chunk. -/
theorem unread_installed (m : Mem) (s : List Byte) (c : Common) :
    Common.unread { c with input := writeBytes m 0 s, inlen := s.length, inptr := 0 } = s := by
  simp [Common.unread, readBytes?_writeBytes_self]

/-! ### From a command's end to a step -/

@[simp] theorem State.closeEnc_respond (s : State) (u : Enc) (r : Response) :
    s.closeEnc (.respond u r) = .next ((s.setEnc u).deliver r) := rfl
@[simp] theorem State.closeEnc_stop (s : State) (f : Fault) : s.closeEnc (.stop f) = .fault f := rfl
@[simp] theorem State.closeDec_respond (s : State) (u : Decoder) (r : Response) :
    s.closeDec (.respond u r) = .next ((s.setDec u).deliver r) := rfl
@[simp] theorem State.closeDec_stop (s : State) (f : Fault) : s.closeDec (.stop f) = .fault f := rfl
@[simp] theorem State.closeDos_respond (s : State) (u : Dos) (r : Response) :
    s.closeDos (.respond u r) = .next ((s.setDos u).deliver r) := rfl
@[simp] theorem State.closeDos_stop (s : State) (f : Fault) : s.closeDos (.stop f) = .fault f := rfl

theorem State.closeEnc_eq_next {s t : State} {e : CommandEnd Enc} (h : s.closeEnc e = .next t) :
    ∃ u r, e = .respond u r ∧ t = (s.setEnc u).deliver r := by
  cases e with
  | respond u r => cases h; exact ⟨u, r, rfl, rfl⟩
  | stop f => cases h

theorem State.closeDec_eq_next {s t : State} {e : CommandEnd Decoder} (h : s.closeDec e = .next t) :
    ∃ u r, e = .respond u r ∧ t = (s.setDec u).deliver r := by
  cases e with
  | respond u r => cases h; exact ⟨u, r, rfl, rfl⟩
  | stop f => cases h

theorem State.closeDos_eq_next {s t : State} {e : CommandEnd Dos} (h : s.closeDos e = .next t) :
    ∃ u r, e = .respond u r ∧ t = (s.setDos u).deliver r := by
  cases e with
  | respond u r => cases h; exact ⟨u, r, rfl, rfl⟩
  | stop f => cases h

/-! ### What a step can do -/

/-- Every next state of a step: idle, a reset event, an illegal word, or a command. -/
theorem step_cases {s t : State} (h : step s = .next t) :
    (s.arrival = .idle ∧ t = s) ∨ (s.arrival = .reset ∧ t = s.accept.resetUnits) ∨
      (s.arrival = .illegal ∧ t = s.accept.refuseIllegal) ∨
      ∃ i, s.arrival = .command i ∧ exec i s.accept = .next t := by
  unfold step at h
  cases ha : s.arrival with
  | idle => rw [ha] at h; cases h; exact .inl ⟨rfl, rfl⟩
  | reset => rw [ha] at h; cases h; exact .inr (.inl ⟨rfl, rfl⟩)
  | illegal => rw [ha] at h; cases h; exact .inr (.inr (.inl ⟨rfl, rfl⟩))
  | broken => rw [ha] at h; cases h
  | command i => rw [ha] at h; exact .inr (.inr (.inr ⟨i, rfl, h⟩))

/-- What the machine finds when the host's next event is a transaction. -/
theorem arrival_of_command {s : State} {c : Command} {rest : List HostEvent} (h : s.pending = .command c :: rest) :
    s.arrival = arrivalOf c := by
  rw [State.arrival, h]

end Sys2Proof.Machine
end

