-- ==== Sys2Proof/Laws/Tag.lean ====
section
/-!
SUPPORT. Laws of the word and tag arithmetic: lengths, and the cases of the tag classes and of a decoded head.
-/

namespace Sys2Proof.Machine

open Sys2Proof.Config

@[simp] theorem tagBits_length (t : Byte) : (tagBits t).length = 8 := by simp [tagBits]

/-- A population count counts the 1 bits. -/
theorem popcount_eq_count (t : Byte) : popcount t = (tagBits t).count true := by
  unfold popcount
  generalize tagBits t = l
  induction l with
  | nil => rfl
  | cons b l ih => cases b <;> simp [ih, Nat.add_comm]

theorem popcount_le_eight (t : Byte) : popcount t ≤ 8 := by
  rw [popcount_eq_count, ← tagBits_length t]; exact List.count_le_length

/-! ### The classes (R80) -/

theorem tagClass_eq_zero_iff (t : Byte) : tagClass t = .zero ↔ t = TAG_ZERO := by
  unfold tagClass; split <;> [skip; split] <;> simp_all

theorem tagClass_eq_verb_iff (t : Byte) : tagClass t = .verb ↔ t = TAG_VERB := by
  unfold tagClass; split
  · next h => subst h; decide
  · split <;> simp_all

theorem tagClass_eq_lit_iff (t : Byte) : tagClass t = .lit ↔ t ≠ TAG_ZERO ∧ t ≠ TAG_VERB := by
  unfold tagClass; split <;> [skip; split] <;> simp_all

/-- Every head has its tag byte. -/
theorem one_le_head (t : Byte) : 1 ≤ head t := by unfold head; omega

/-- No head is longer than the Remainder. -/
theorem head_le_ten (t : Byte) : head t ≤ REM_CAP := by
  have := popcount_le_eight t
  unfold head; split <;> simp only [REM_CAP] <;> omega

/-- The packed word is its tag and its non-zero bytes. -/
theorem packWord_ne_nil (w : List Byte) : packWord w ≠ [] := by simp [packWord]

/-! ### Assembling a word (R58) -/

/-- The assembled bytes are as many as the tag's bits. -/
theorem spreadPayload_length (bits : List Bool) (s : List Byte) : (spreadPayload bits s).1.length = bits.length := by
  induction bits generalizing s with
  | nil => rfl
  | cons b bits ih => cases b <;> simp [spreadPayload, ih]

/-- The payload bytes taken are as many as the tag's 1 bits. -/
theorem spreadPayload_rest (bits : List Bool) (s : List Byte) :
    (spreadPayload bits s).2 = s.drop (bits.count true) := by
  induction bits generalizing s with
  | nil => rfl
  | cons b bits ih => cases b <;> simp [spreadPayload, ih]

/-- A decoded head's word is the payload spread over the tag's bits, whatever the class. -/
theorem unpackHead_word (s : List Byte) :
    (unpackHead s).word = (spreadPayload (tagBits (s.headD 0#8)) s.tail).1 := by
  unfold unpackHead rangeState
  simp only
  split <;> [split; split; skip] <;> rfl

/-- A decoded head's word has 8 bytes. -/
@[simp] theorem unpackHead_word_length (s : List Byte) : (unpackHead s).word.length = 8 := by
  rw [unpackHead_word, spreadPayload_length, tagBits_length]

/-- The decode state a head leaves: `Start` with nothing owed, or a range that owes 1 to 255 words (R83). -/
theorem unpackHead_state (s : List Byte) :
    ((unpackHead s).main = .start ∧ (unpackHead s).cnt = 0) ∨
      (((unpackHead s).main = .zeroRange ∨ (unpackHead s).main = .verbatimRange) ∧
        (unpackHead s).cnt % 8 = 0 ∧ 8 ≤ (unpackHead s).cnt ∧ (unpackHead s).cnt ≤ MAX_EXTRA) := by
  have key : ∀ (m : DecMain) (c : Byte) (w : List Byte), m = .zeroRange ∨ m = .verbatimRange →
      ((rangeState m c w).main = .start ∧ (rangeState m c w).cnt = 0) ∨
        (((rangeState m c w).main = .zeroRange ∨ (rangeState m c w).main = .verbatimRange) ∧
          (rangeState m c w).cnt % 8 = 0 ∧ 8 ≤ (rangeState m c w).cnt ∧ (rangeState m c w).cnt ≤ MAX_EXTRA) := by
    intro m c w hm
    have hc := c.isLt
    unfold rangeState
    split
    · refine .inr ⟨hm, ?_⟩
      simp only [MAX_EXTRA]; omega
    · exact .inl ⟨rfl, rfl⟩
  unfold unpackHead
  simp only
  split
  · exact key _ _ _ (.inl rfl)
  · exact key _ _ _ (.inr rfl)
  · exact .inl ⟨rfl, rfl⟩

end Sys2Proof.Machine
end

