-- ==== Sys2Proof/Laws/DecodeMachine.lean ====
section
/-!
SUPPORT. What each procedure of the decode machine can do, said once.
-/

namespace Sys2Proof.Machine

open Sys2Proof.Config

/-! ### Paying a range (R90, R91) -/

@[simp] theorem payRange_toCommon (d : Decoder) (k : Nat) : (payRange d k).toCommon = d.toCommon := by
  unfold payRange; split <;> rfl
@[simp] theorem payRange_rem (d : Decoder) (k : Nat) : (payRange d k).rem = d.rem := by
  unfold payRange; split <;> rfl
@[simp] theorem payRange_remlen (d : Decoder) (k : Nat) : (payRange d k).remlen = d.remlen := by
  unfold payRange; split <;> rfl
@[simp] theorem payRange_outm (d : Decoder) (k : Nat) : (payRange d k).outm = d.outm := by
  unfold payRange; split <;> rfl
@[simp] theorem payRange_cnt (d : Decoder) (k : Nat) : (payRange d k).cnt = d.cnt - k := by
  unfold payRange; split
  · next h => exact h.symm
  · rfl
theorem payRange_main (d : Decoder) (k : Nat) :
    (payRange d k).main = if d.cnt - k = 0 then .start else d.main := by
  unfold payRange; split <;> rfl

/-! ### The units -/

/-- A Start group's unit: with no space it ends, else it stores its word and takes the head's state (R89). -/
theorem startUnit_cases (d : Decoder) (o : Nat) (s : List Byte) :
    (d.cap < o + 8 ∧ startUnit d o s = .ended d o) ∨
      (o + 8 ≤ d.cap ∧ startUnit d o s = .back { d with
        outm := writeBytes d.outm o (unpackHead s).word, main := (unpackHead s).main, cnt := (unpackHead s).cnt } (o + 8)) := by
  unfold startUnit
  by_cases h : d.cap < o + 8
  · exact .inl ⟨h, if_pos h⟩
  · have hw : o + (unpackHead s).word.length ≤ d.cap := by rw [unpackHead_word_length]; omega
    exact .inr ⟨by omega, by rw [if_neg h, memWrite_of_le hw]; rfl⟩

/-- A verbatim word's unit: with no space it ends, else it stores the word and pays 8 bytes (R90). -/
theorem verbUnit_cases (d : Decoder) (o : Nat) {s : List Byte} (hs : s.length = 8) :
    (d.cap < o + 8 ∧ verbUnit d o s = .ended d o) ∨
      (o + 8 ≤ d.cap ∧ verbUnit d o s = .back (payRange { d with outm := writeBytes d.outm o s } 8) (o + 8)) := by
  unfold verbUnit
  by_cases h : d.cap < o + 8
  · exact .inl ⟨h, if_pos h⟩
  · exact .inr ⟨by omega, by rw [if_neg h, memWrite_of_le (by omega)]; rfl⟩

/-- A zero run's unit: with no space at all it ends, else it stores as many zeros as it owes and there is space for (R91). -/
theorem zeroUnit_cases (d : Decoder) {o : Nat} (ho : o ≤ d.cap) :
    (o = d.cap ∧ zeroUnit d o = .ended d o) ∨
      (o < d.cap ∧ zeroUnit d o = .back
        (payRange { d with outm := writeBytes d.outm o (zeros (min d.cnt (d.cap - o))) } (min d.cnt (d.cap - o)))
        (o + min d.cnt (d.cap - o))) := by
  unfold zeroUnit
  by_cases h : o = d.cap
  · exact .inl ⟨h, if_pos h⟩
  · have hw : o + (zeros (min d.cnt (d.cap - o))).length ≤ d.cap := by
      rw [zeros, List.length_replicate]; omega
    exact .inr ⟨by omega, by rw [if_neg h]; simp only [memWrite_of_le hw]; rfl⟩

/-- `RunUnit` is the unit of the range it is called in; the model's stop is for `ZeroRange` alone (R92). -/
theorem runUnit_eq (d : Decoder) (o : Nat) (s : List Byte) :
    (d.main = .start → runUnit d o s = startUnit d o s) ∧
      (d.main = .verbatimRange → runUnit d o s = verbUnit d o s) := by
  unfold runUnit
  constructor <;> intro h <;> rw [h]

/-! ### The Remainder -/

/-- Taking the first `t` bytes out of a Remainder that is held. -/
theorem dropRem_of_held {α : Type} {d : Decoder} {t : Nat} {rest : List Byte} (k : Decoder → DecFlow α)
    (ht : t ≤ d.remlen) (hl : d.remlen ≤ REM_CAP) (h : readBytes? d.rem t (d.remlen - t) = some rest) :
    dropRem d t k = k { d with rem := writeBytes d.rem 0 rest, remlen := d.remlen - t } := by
  have hlen := readBytes?_length h
  unfold dropRem readRem
  rw [memRead_of_held (by omega) h, Flow.access_ok, memWrite_of_le (by omega), Flow.access_ok]

/-- Moving the next `n` bytes of a chunk that is held behind the Remainder. -/
theorem appendRem_of_held {α : Type} {p : Params} {d : Decoder} {n : Nat} {bs : List Byte} (k : Decoder → DecFlow α)
    (hc : d.inptr + n ≤ p.maxIn) (hr : d.remlen + n ≤ REM_CAP)
    (h : readBytes? d.input d.inptr n = some bs) :
    appendRem p d n k = k { d with rem := writeBytes d.rem d.remlen bs, inptr := d.inptr + n } := by
  have hlen := readBytes?_length h
  unfold appendRem readChunk
  rw [memRead_of_held hc h, Flow.access_ok, memWrite_of_le (by omega), Flow.access_ok]

/-! ### One pass of each loop -/

theorem syncPhase_succ (p : Params) (fuel : Nat) (d : Decoder) (o : Nat) (h : d.remlen = 0) :
    syncPhase p (fuel + 1) d o = .back d (o, true) := by rw [syncPhase, if_pos h]

theorem mainPhase_zeroRange (p : Params) (fuel : Nat) (d : Decoder) (o : Nat) (h : d.main = .zeroRange) :
    mainPhase p (fuel + 1) d o = (zeroUnit d o).bind fun d o => mainPhase p fuel d o := by rw [mainPhase, h]

theorem drain_zeroRange (p : Params) (fuel : Nat) (d : Decoder) (o : Nat) (h : d.main = .zeroRange) :
    drain p (fuel + 1) d o = (zeroUnit d o).bind fun d o => drain p fuel d o := by rw [drain, if_pos h]

/-- The drain returns when there is nothing left to read. -/
theorem drain_nothing_left (p : Params) (fuel : Nat) (d : Decoder) (o : Nat) (hm : d.main ≠ .zeroRange)
    (h : d.remlen + d.inleft = 0) : drain p (fuel + 1) d o = .back d o := by
  rw [drain, if_neg hm, if_pos h]

end Sys2Proof.Machine
end

