-- ==== Sys2Proof/Laws/EncodeMachine.lean ====
section
/-!
SUPPORT. What each procedure of the encode machine can do, said once.
-/

namespace Sys2Proof.Machine

open Sys2Proof.Config

/-! ### Ending the command, and writing output -/

/-- With nothing produced, the command ends with DONE for a FLUSH and NONE for a NEXT, and the unit as it is (R116). -/
theorem emitE_nothing {α : Type} (u : Enc) (final : Bool) :
    (emitE u 0 final : EncFlow α) = .ended u (if final then .done else .none) := by
  cases final <;> rfl

/-- With output produced and held, the command ends with it (R116). -/
theorem emitE_output {α : Type} {u : Enc} {o : Nat} {bs : List Byte} (final : Bool) (ho : 0 < o) (hc : o ≤ u.cap)
    (h : readBytes? u.out 0 o = some bs) : (emitE u o final : EncFlow α) = .ended u (.output bs) := by
  unfold emitE
  rw [if_pos ho, memRead_of_held (by omega) h]; rfl

/-- Ending the command never gives a value. -/
theorem emitE_ne_back {α : Type} (u v : Enc) (o : Nat) (final : Bool) (a : α) : emitE u o final ≠ .back v a := by
  unfold emitE
  split
  · cases memRead u.out u.cap 0 o <;> simp
  · split <;> simp

/-- Ending the command leaves the unit as it is. -/
theorem emitE_eq_ended {α : Type} {u v : Enc} {o : Nat} {final : Bool} {r : Response}
    (h : (emitE u o final : EncFlow α) = .ended v r) :
    v = u ∧ ((o = 0 ∧ r = if final then .done else .none) ∨
      (0 < o ∧ ∃ bs, readBytes? u.out 0 o = some bs ∧ r = .output bs)) := by
  unfold emitE at h
  split at h
  · next ho =>
    rw [Flow.access_eq_ended_iff] at h
    obtain ⟨bs, hb, he⟩ := h
    cases he
    exact ⟨rfl, .inr ⟨ho, bs, ((memRead_eq_ok_iff _ _ _ _ _).mp hb).2, rfl⟩⟩
  · next ho =>
    cases final <;> simp at h <;> exact ⟨h.1.symm, .inl ⟨by omega, by simp [h.2]⟩⟩

/-- Writing inside the output buffer goes on with the bytes written. -/
theorem putOut_of_le {α : Type} {u : Enc} {a : Nat} {bs : List Byte} (k : Enc → EncFlow α)
    (h : a + bs.length ≤ u.cap) : putOut u a bs k = k { u with out := writeBytes u.out a bs } := by
  unfold putOut
  rw [memWrite_of_le h]; rfl

/-- Writing outside the output buffer stops the model. -/
theorem putOut_of_lt {α : Type} {u : Enc} {a : Nat} {bs : List Byte} (k : Enc → EncFlow α)
    (h : u.cap < a + bs.length) : putOut u a bs k = .stop .outsideMemory := by
  unfold putOut memWrite
  rw [if_neg (by omega)]; rfl

/-- Reading a part of the chunk that is held. -/
theorem readChunk_of_held {p : Params} {c : Common} {a n : Nat} {bs : List Byte} (h : a + n ≤ p.maxIn)
    (hr : readBytes? c.input a n = some bs) : readChunk p c a n = .ok bs := memRead_of_held h hr

/-! ### The continuation -/

@[simp] theorem contEnter_toCommon (u : Enc) : (contEnter u).toCommon = u.toCommon := rfl
@[simp] theorem contEnter_main (u : Enc) : (contEnter u).main = u.main := rfl
@[simp] theorem contEnter_mcnt (u : Enc) : (contEnter u).mcnt = u.mcnt := rfl
@[simp] theorem contEnter_cont (u : Enc) : (contEnter u).cont = .continuing := rfl
@[simp] theorem contEnter_cend (u : Enc) : (contEnter u).cend = 1 := rfl
@[simp] theorem contEnter_out (u : Enc) : (contEnter u).out = u.out := rfl

/-- Without a continuation the main machine starts at offset 0. -/
theorem contPhase_none (p : Params) (u : Enc) (final : Bool) (h : u.cont = .none) :
    contPhase p u final = .back u 0 := by rw [contPhase, h]

/-- A continuation ends at its longest, whatever follows. -/
theorem contLoop_full (p : Params) (final : Bool) (fuel : Nat) (u : Enc) (e : Nat) (h : e - 1 = MAX_EXTRA) :
    contLoop p final (fuel + 1) u e = .back u e := by rw [contLoop, if_pos h]

/-- A continuation whose chunk runs out ends in a FLUSH, and waits in a NEXT. -/
theorem contLoop_drained (p : Params) (final : Bool) (fuel : Nat) (u : Enc) (e : Nat) (h : e - 1 ≠ MAX_EXTRA)
    (hi : u.inptr = u.inlen) :
    contLoop p final (fuel + 1) u e = if final then .back u e else .ended { u with cend := e } .none := by
  rw [contLoop, if_neg h, if_pos hi]

/-- One word of a continuation: it joins the range, or ends it. -/
theorem contLoop_word {p : Params} {final : Bool} {fuel : Nat} {u : Enc} {e : Nat} {w : List Byte}
    (h : e - 1 ≠ MAX_EXTRA) (hi : u.inptr ≠ u.inlen) (hw : readChunk p u.toCommon u.inptr 8 = .ok w)
    (hc : e + w.length ≤ u.cap) :
    contLoop p final (fuel + 1) u e =
      if joinsVerbatim w then
        contLoop p final fuel { u with out := writeBytes u.out e w, inptr := u.inptr + 8, cend := e + 8 } (e + 8)
      else .back u e := by
  rw [contLoop, if_neg h, if_neg hi, hw, Flow.access_ok]
  split
  · rw [putOut_of_le _ hc]
  · rfl

/-! ### The main machine -/

/-- With its chunk consumed, `Start` ends the command. -/
theorem startWord_drained (p : Params) (u : Enc) (o : Nat) (final : Bool) (h : u.inptr = u.inlen) :
    startWord p u o final = emitE u o final := by rw [startWord, if_pos h]

/-- `Start` on a word that is held: with no space for its head it ends the command, else it writes the packed word and goes
on as the word's class says (R120). -/
theorem startWord_word {p : Params} {u : Enc} {o : Nat} {final : Bool} {w : List Byte} (hi : u.inptr ≠ u.inlen)
    (hw : readChunk p u.toCommon u.inptr 8 = .ok w) :
    startWord p u o final =
      if u.cap < o + head (tag w) then emitE u o final
      else putOut u o (packWord w) fun v =>
        match tagClass (tag w) with
        | .zero => .back { v with inptr := v.inptr + 8, main := .zeroRangeWriting, mcnt := 0 } (o + (packWord w).length)
        | .verb => startVerb p { v with inptr := v.inptr + 8 } (o + (packWord w).length) final
        | .lit => .back { v with inptr := v.inptr + 8 } (o + (packWord w).length) := by
  rw [startWord, if_neg hi, hw]
  rfl

/-- A verbatim range whose end the chunk does not show is left to the next command (R121). -/
theorem startVerb_open {p : Params} {u : Enc} {o j q : Nat}
    (h : peekVerb p u.toCommon scanFuel 0 u.inptr = .ok (j, q)) (hj : j ≠ MAX_EXTRA) (hq : u.inlen ≤ q) :
    startVerb p u o false = emitE { u with cont := .initializing } o false := by
  rw [startVerb, h, Flow.access_ok, if_neg (by simp [hj]; omega)]

/-- A verbatim range whose end is found: its count byte, then its extra bytes if it has any (R121). -/
theorem startVerb_closed {p : Params} {u : Enc} {o j q : Nat} {final : Bool}
    (h : peekVerb p u.toCommon scanFuel 0 u.inptr = .ok (j, q)) (he : j = MAX_EXTRA ∨ q < u.inlen ∨ final = true)
    (hc : o + 1 ≤ u.cap) :
    startVerb p u o final =
      .back (if 0 < j then { u with out := writeBytes u.out o [BitVec.ofNat 8 (j / 8)],
                                    main := .verbatimRangeWriting, mcnt := j }
             else { u with out := writeBytes u.out o [BitVec.ofNat 8 (j / 8)] }) (o + 1) := by
  rw [startVerb, h, Flow.access_ok, if_pos he, putOut_of_le _ (by simpa using hc)]
  split <;> rfl

/-- Copying a verbatim range's bytes with no space for any ends the command (R123). -/
theorem vWrite_no_space (p : Params) (u : Enc) (o : Nat) (final : Bool) (h : min u.mcnt (u.cap - o) = 0) :
    vWrite p u o final = emitE u o final := by
  unfold vWrite
  simp only [h, if_pos]

/-- Copying a verbatim range's bytes with space for some: the command ends when some are left, else `Start` follows (R123). -/
theorem vWrite_some {p : Params} {u : Enc} {o : Nat} {final : Bool} {bs : List Byte}
    (h : 0 < min u.mcnt (u.cap - o)) (hr : readChunk p u.toCommon u.inptr (min u.mcnt (u.cap - o)) = .ok bs) :
    vWrite p u o final = putOut u o bs fun v =>
      if 0 < v.mcnt - min u.mcnt (u.cap - o) then
        emitE { v with inptr := v.inptr + min u.mcnt (u.cap - o), mcnt := v.mcnt - min u.mcnt (u.cap - o) }
          (o + min u.mcnt (u.cap - o)) final
      else .back { v with inptr := v.inptr + min u.mcnt (u.cap - o), main := .start, mcnt := 0 }
        (o + min u.mcnt (u.cap - o)) := by
  unfold vWrite
  simp only [if_neg (Nat.ne_of_gt h), hr, Flow.access_ok]

/-- The main machine's loop never gives a value: only a pass that ends the command ends it (R117). -/
theorem encLoop_ne_back (p : Params) (final : Bool) (fuel : Nat) (u v : Enc) (o a : Nat) :
    encLoop p final fuel u o ≠ .back v a := by
  induction fuel generalizing u o with
  | zero => simp [encLoop]
  | succ fuel ih =>
    rw [encLoop, ne_eq, Flow.bind_eq_back_iff]
    rintro ⟨w, b, -, hb⟩
    exact ih _ _ hb

/-- `EncRun` never gives a value: it always ends the command itself (R117). -/
theorem encRun_ne_back (p : Params) (u v : Enc) (final : Bool) (a : Nat) : encRun p u final ≠ .back v a := by
  rw [encRun, ne_eq, Flow.bind_eq_back_iff]
  rintro ⟨w, b, -, hb⟩
  exact encLoop_ne_back p final _ _ _ _ _ hb

/-- What NEXT and FLUSH of ENC answer is what `EncRun` ended with, or a refusal. -/
theorem encRunCommand_eq_respond_iff (p : Params) (final : Bool) (u v : Enc) (r : Response) :
    encRunCommand p final u = .respond v r ↔
      (precheck u.toCommon = some r ∧ v = u) ∨ (precheck u.toCommon = none ∧ encRun p u final = .ended v r) := by
  rw [encRunCommand, checked_eq_respond_iff]
  cases encRun p u final <;> simp

end Sys2Proof.Machine
end

