-- ==== Sys2Proof/Laws/PerInstr.lean ====
section
/-!
SUPPORT. The families of statements made for every instruction, one lemma per constructor.
-/

namespace Sys2Proof.Laws.OpcodeByte

/-- The opcode byte of each command, as 30_encoding.md R69 lists it. -/
def opcode : Instr → BitVec 8
  | .encInit _ => 0x10#8
  | .encSet _ => 0x11#8
  | .encNext => 0x12#8
  | .encFlush => 0x13#8
  | .encAbort _ => 0x1d#8
  | .encStatus => 0x1e#8
  | .decInit _ => 0x20#8
  | .decSet _ => 0x21#8
  | .decNext => 0x22#8
  | .decFlush => 0x23#8
  | .decAbort _ => 0x2d#8
  | .decStatus => 0x2e#8
  | .dosInit _ => 0x30#8
  | .dosSet _ => 0x31#8
  | .dosFinish => 0x33#8
  | .dosAbort _ => 0x3d#8
  | .dosStatus => 0x3e#8

/-- The bytes a command carries on the port beside its word: a SET its chunk, every other command none (R67). -/
def carried : Instr → List Byte
  | .encInit _ => []
  | .encSet chunk => chunk
  | .encNext => []
  | .encFlush => []
  | .encAbort _ => []
  | .encStatus => []
  | .decInit _ => []
  | .decSet chunk => chunk
  | .decNext => []
  | .decFlush => []
  | .decAbort _ => []
  | .decStatus => []
  | .dosInit _ => []
  | .dosSet chunk => chunk
  | .dosFinish => []
  | .dosAbort _ => []
  | .dosStatus => []

/-- The encoded command has its opcode in the low byte of its word, and carries its bytes. -/
def Statement (i : Instr) : Prop :=
  opcodeOf (encode i).word = opcode i ∧ (encode i).data = carried i

theorem encInit (cap : BitVec 24) : Statement (.encInit cap) :=
  ⟨opcodeOf_commandWord _ _, rfl⟩

theorem encSet (chunk : List Byte) : Statement (.encSet chunk) :=
  ⟨opcodeOf_commandWord _ _, rfl⟩

theorem encNext : Statement (.encNext) :=
  ⟨opcodeOf_commandWord _ _, rfl⟩

theorem encFlush : Statement (.encFlush) :=
  ⟨opcodeOf_commandWord _ _, rfl⟩

theorem encAbort (code : BitVec 24) : Statement (.encAbort code) :=
  ⟨opcodeOf_commandWord _ _, rfl⟩

theorem encStatus : Statement (.encStatus) :=
  ⟨opcodeOf_commandWord _ _, rfl⟩

theorem decInit (cap : BitVec 24) : Statement (.decInit cap) :=
  ⟨opcodeOf_commandWord _ _, rfl⟩

theorem decSet (chunk : List Byte) : Statement (.decSet chunk) :=
  ⟨opcodeOf_commandWord _ _, rfl⟩

theorem decNext : Statement (.decNext) :=
  ⟨opcodeOf_commandWord _ _, rfl⟩

theorem decFlush : Statement (.decFlush) :=
  ⟨opcodeOf_commandWord _ _, rfl⟩

theorem decAbort (code : BitVec 24) : Statement (.decAbort code) :=
  ⟨opcodeOf_commandWord _ _, rfl⟩

theorem decStatus : Statement (.decStatus) :=
  ⟨opcodeOf_commandWord _ _, rfl⟩

theorem dosInit (cap : BitVec 24) : Statement (.dosInit cap) :=
  ⟨opcodeOf_commandWord _ _, rfl⟩

theorem dosSet (chunk : List Byte) : Statement (.dosSet chunk) :=
  ⟨opcodeOf_commandWord _ _, rfl⟩

theorem dosFinish : Statement (.dosFinish) :=
  ⟨opcodeOf_commandWord _ _, rfl⟩

theorem dosAbort (code : BitVec 24) : Statement (.dosAbort code) :=
  ⟨opcodeOf_commandWord _ _, rfl⟩

theorem dosStatus : Statement (.dosStatus) :=
  ⟨opcodeOf_commandWord _ _, rfl⟩

end Sys2Proof.Laws.OpcodeByte
end

