-- ==== Sys2Proof/Tests/Slice0.lean ====
section
/-!
SUPPORT. The model's own tests: words written out from the opcode map, single steps whose results are taken from
spec/95_test_vectors.md, and for every statement with hypotheses a concrete case that meets them.
-/

namespace Sys2Proof.Machine.Tests

open Sys2Proof.Config

/-! ### Helpers -/

/-- The words the test vectors name (95_test_vectors.md section 1). -/
def wA : List Byte := [0x01#8, 0x02#8, 0x03#8, 0x04#8, 0x05#8, 0x06#8, 0x07#8, 0x08#8]
def wB : List Byte := [0x11#8, 0x12#8, 0x13#8, 0x14#8, 0x15#8, 0x16#8, 0x17#8, 0x18#8]
def wL : List Byte := [0x05#8, 0, 0, 0, 0, 0, 0, 0x80#8]

/-- The smallest legal build: `MAX_CAP = 2048`, `MAX_IN = 8`. -/
def smallest : Params := { maxCap := 2048, maxIn := 8 }

/-- ENC configured with capacity 2048, holding a chunk. -/
def encHolding (chunk : List Byte) : Enc :=
  { Enc.reset with cfg := true, cap := 2048, input := cellsAt 0 chunk, inlen := chunk.length }

/-- DEC configured with capacity `cap`, holding a chunk. -/
def decHolding (cap : Nat) (chunk : List Byte) : Decoder :=
  { Decoder.reset with cfg := true, cap := cap, input := cellsAt 0 chunk, inlen := chunk.length }

/-- DOS configured with capacity `cap`, its Remainder holding the bytes `rem`. -/
def dosHolding (cap : Nat) (rem : List Byte) : Dos :=
  { Dos.reset with cfg := true, cap := cap, rem := cellsAt 0 rem, remlen := rem.length }

/-- The machine after reset, but for ENC; and the same for DEC and DOS. -/
def withEnc (u : Enc) : State := State.reset.setEnc u
def withDec (d : Decoder) : State := State.reset.setDec d
def withDos (u : Dos) : State := State.reset.setDos u

/-- The machine after reset, built with the smallest parameters, with ready units that hold nothing. -/
def idleUnits : State :=
  { State.resetWith smallest with enc := encHolding [], dec := decHolding 16 [], dos := dosHolding 16 [] }

/-- One step on a command the host sends. -/
def send (s : State) (w : BitVec 32) (d : List Byte) : Host.Outcome State Fault Refusal := step (s.issue ⟨w, d⟩)

/-- The response of a step, as it crosses the port. -/
def said : Host.Outcome State Fault Refusal → Option (BitVec 32 × List Byte)
  | .next t => t.delivered.getLast?.map fun r => (r.word, r.data)
  | _ => none

/-- The status register of a unit after a step. -/
def stat (v : UnitName) : Host.Outcome State Fault Refusal → Option (BitVec 64)
  | .next t => match v with
    | .enc => some (encStatus t.enc)
    | .dec => some (decStatus t.dec)
    | .dos => some (dosStatus t.dos)
  | _ => none

/-! ### Well-formedness -/

/-- A chunk one byte too long for ARG. -/
def tooLong : List Byte := zeros (2 ^ 24)

theorem tooLong_length : tooLong.length = 2 ^ 24 := List.length_replicate

theorem test_wellFormed_refuses_long_encSet : ¬ (Instr.encSet tooLong).WellFormed := by
  show ¬ tooLong.length < 2 ^ 24
  rw [tooLong_length]; exact Nat.lt_irrefl _

theorem test_wellFormed_refuses_long_decSet : ¬ (Instr.decSet tooLong).WellFormed :=
  test_wellFormed_refuses_long_encSet

theorem test_wellFormed_refuses_long_dosSet : ¬ (Instr.dosSet tooLong).WellFormed :=
  test_wellFormed_refuses_long_encSet

theorem test_wellFormed_accepts_longest : (Instr.encSet (zeros (2 ^ 24 - 1))).WellFormed := by
  show (zeros (2 ^ 24 - 1)).length < 2 ^ 24
  rw [zeros, List.length_replicate]; decide

/-! ### Decoding: one word per command, written as ARG (24 bits), UNIT, OP from R68 and R69 -/

theorem test_decode_encInit : decode ⟨0b000000000000100000000000_0001_0000#32, []⟩ = .ok (.encInit 2048#24) := by decide
theorem test_decode_encSet : decode ⟨0b000000000000000000001000_0001_0001#32, wL⟩ = .ok (.encSet wL) := by decide
theorem test_decode_encNext : decode ⟨0b000000000000000000000000_0001_0010#32, []⟩ = .ok .encNext := by decide
theorem test_decode_encFlush : decode ⟨0b000000000000000000000000_0001_0011#32, []⟩ = .ok .encFlush := by decide
theorem test_decode_encAbort : decode ⟨0b000000000000000000000111_0001_1101#32, []⟩ = .ok (.encAbort 7#24) := by decide
theorem test_decode_encStatus : decode ⟨0b000000000000000000000000_0001_1110#32, []⟩ = .ok .encStatus := by decide
theorem test_decode_decInit : decode ⟨0b000000000000000000010000_0010_0000#32, []⟩ = .ok (.decInit 16#24) := by decide
theorem test_decode_decSet : decode ⟨0b000000000000000000000001_0010_0001#32, [0x00#8]⟩ = .ok (.decSet [0x00#8]) := by
  decide
theorem test_decode_decNext : decode ⟨0b000000000000000000000000_0010_0010#32, []⟩ = .ok .decNext := by decide
theorem test_decode_decFlush : decode ⟨0b000000000000000000000000_0010_0011#32, []⟩ = .ok .decFlush := by decide
theorem test_decode_decAbort :
    decode ⟨0b111111111111111111111111_0010_1101#32, []⟩ = .ok (.decAbort 0xffffff#24) := by decide
theorem test_decode_decStatus : decode ⟨0b000000000000000000000000_0010_1110#32, []⟩ = .ok .decStatus := by decide
theorem test_decode_dosInit : decode ⟨0b000000000000000000001000_0011_0000#32, []⟩ = .ok (.dosInit 8#24) := by decide
theorem test_decode_dosSet :
    decode ⟨0b000000000000000000000010_0011_0001#32, [0x00#8, 0xff#8]⟩ = .ok (.dosSet [0x00#8, 0xff#8]) := by decide
theorem test_decode_dosFinish : decode ⟨0b000000000000000000000000_0011_0011#32, []⟩ = .ok .dosFinish := by decide
theorem test_decode_dosAbort : decode ⟨0b000000000000000000000001_0011_1101#32, []⟩ = .ok (.dosAbort 1#24) := by decide
theorem test_decode_dosStatus : decode ⟨0b000000000000000000000000_0011_1110#32, []⟩ = .ok .dosStatus := by decide

/-- `DOS` has no NEXT (R69), and STATUS takes no ARG (95_test_vectors.md section 4). -/
theorem test_decode_illegal :
    decode ⟨0x00000032#32, []⟩ = .error .illegal ∧ decode ⟨0x0000013e#32, []⟩ = .error .illegal := by decide

/-- A SET whose data are not ARG bytes breaks the port's protocol (R67, log 7). -/
theorem test_decode_dataLength : decode ⟨0x00000231#32, [0x00#8]⟩ = .error .dataLength := by decide

/-- The table's words as the host asks about them. -/
theorem test_decodeTableWord :
    decodeTableWord 32 0x00000033 = some .dosFinish ∧ decodeTableWord 32 0x00000421 = some (.decSet (zeros 4)) ∧
      decodeTableWord 32 0x00000032 = none := by decide

/-- The word a fetch runs first. -/
theorem test_withFetchWord :
    said (step (State.reset.withFetchWord 32 0x00080010)) = some (0x00000000#32, []) := by decide

/-! ### Single steps (95_test_vectors.md; the sequence and row are named) -/

theorem test_encInit : said (send State.reset 0x00080010#32 []) = some (0x00000000#32, []) ∧
    stat .enc (send State.reset 0x00080010#32 []) = some 0x10#64 := by decide  -- W1 1
theorem test_encInit_small : said (send State.reset 0x0007ff10#32 []) = some (0x0000001f#32, []) ∧
    stat .enc (send State.reset 0x0007ff10#32 []) = some 0#64 := by decide  -- W5
theorem test_encSet : said (send (withEnc (encHolding [])) 0x00000811#32 wL) = some (0x00000000#32, []) ∧
    stat .enc (send (withEnc (encHolding [])) 0x00000811#32 wL) = some 0x0000080000000050#64 := by decide  -- W4 4
theorem test_encSet_half_word :
    said (send (withEnc (encHolding [])) 0x00000411#32 (wA.take 4)) = some (0x0000001f#32, []) := by decide
theorem test_encNext : said (send (withEnc (encHolding wL)) 0x00000012#32 []) =
      some (0x00000301#32, [0x81#8, 0x05#8, 0x80#8]) ∧
    stat .enc (send (withEnc (encHolding wL)) 0x00000012#32 []) = some 0x10#64 := by decide  -- W4 5
theorem test_encNext_continuation :
    said (send (withEnc { encHolding [] with cont := .initializing }) 0x00000012#32 []) = some (0x00000002#32, []) ∧
    stat .enc (send (withEnc { encHolding [] with cont := .initializing }) 0x00000012#32 []) =
      some 0x0000000010000018#64 := by decide  -- W1 4
theorem test_encFlush_zero_range :
    said (send (withEnc { encHolding [] with main := .zeroRangeWriting }) 0x00000013#32 []) =
      some (0x00000101#32, [0x00#8]) ∧
    stat .enc (send (withEnc { encHolding [] with main := .zeroRangeWriting }) 0x00000013#32 []) =
      some 0x10#64 := by decide  -- W1 8
theorem test_encFlush_done : said (send (withEnc (encHolding [])) 0x00000013#32 []) = some (0x00000003#32, []) := by
  decide  -- W1 9
theorem test_encAbort : said (send (withEnc (encHolding [])) 0x0000071d#32 []) = some (0x0000074f#32, []) := by decide
theorem test_encStatus : said (send (withEnc (encHolding wL)) 0x0000001e#32 []) =
    some (0x00000805#32, [0x50#8, 0, 0, 0, 0, 0x08#8, 0, 0]) := by decide  -- W4 4, R49

theorem test_decInit : stat .dec (send State.reset 0x00001020#32 []) = some 0x10#64 := by decide  -- W1 1
theorem test_decInit_odd : said (send State.reset 0x00000920#32 []) = some (0x0000001f#32, []) := by decide  -- W5
theorem test_decSet : said (send (withDec (decHolding 16 [])) 0x00000121#32 [0x00#8]) = some (0x00000000#32, []) ∧
    stat .dec (send (withDec (decHolding 16 [])) 0x00000121#32 [0x00#8]) = some 0x0000010000000050#64 := by decide
theorem test_decSet_busy :
    said (send (withDec (decHolding 16 wA)) 0x00000121#32 [0x00#8]) = some (0x0000006f#32, []) := by decide  -- D8 4
theorem test_decNext_interns :
    said (send (withDec (decHolding 16 [0x00#8, 0x01#8, 0x81#8, 0x05#8, 0x80#8])) 0x00000022#32 []) =
      some (0x00000002#32, []) ∧
    stat .dec (send (withDec (decHolding 16 [0x00#8, 0x01#8, 0x81#8, 0x05#8, 0x80#8])) 0x00000022#32 []) =
      some 0x0000000000005010#64 := by decide  -- W1 3
/-- The Remainder of W1 after row 3. -/
def decAfterW1 : Decoder :=
  { decHolding 16 [] with rem := cellsAt 0 [0x00#8, 0x01#8, 0x81#8, 0x05#8, 0x80#8], remlen := 5 }
theorem test_decNext_drains_remainder :
    said (send (withDec decAfterW1) 0x00000022#32 []) = some (0x00001001#32, zeros 16) ∧
    stat .dec (send (withDec decAfterW1) 0x00000022#32 []) = some 0x0000000000003010#64 := by decide  -- W1 4
theorem test_decFlush_done : said (send (withDec (decHolding 16 [])) 0x00000023#32 []) = some (0x00000003#32, []) := by
  decide  -- W1 13
theorem test_decFlush_malformed : said (send (withDec (decHolding 16 [0x00#8])) 0x00000023#32 []) =
    some (0x0000002f#32, []) := by decide
theorem test_decAbort : said (send (withDec (decHolding 16 [0x00#8])) 0xffffff2d#32 []) = some (0xffffff4f#32, []) ∧
    stat .dec (send (withDec (decHolding 16 [0x00#8])) 0xffffff2d#32 []) = some 0x0000010000000470#64 := by decide
theorem test_decStatus : said (send State.reset 0x0000002e#32 []) = some (0x00000805#32, zeros 8) := by decide

theorem test_dosInit : stat .dos (send State.reset 0x00000830#32 []) = some 0x10#64 := by decide  -- W5
theorem test_dosSet : said (send (withDos (dosHolding 16 [])) 0x00000131#32 [0x00#8]) = some (0x00000000#32, []) ∧
    stat .dos (send (withDos (dosHolding 16 [])) 0x00000131#32 [0x00#8]) = some 0x0000000000001010#64 := by decide
theorem test_dosSet_capacity :
    said (send (withDos (dosHolding 8 [])) 0x00000c31#32 (List.replicate 6 [0x01#8, 0x2a#8]).flatten) =
      some (0x0000003f#32, []) ∧
    stat .dos (send (withDos (dosHolding 8 [])) 0x00000c31#32 (List.replicate 6 [0x01#8, 0x2a#8]).flatten) =
      some 0x0000080000000370#64 := by decide
theorem test_dosFinish : said (send (withDos (dosHolding 16 [0x01#8, 0x2a#8])) 0x00000033#32 []) =
    some (0x00000804#32, [0x2a#8, 0, 0, 0, 0, 0, 0, 0]) := by decide
theorem test_dosFinish_malformed : said (send (withDos (dosHolding 16 [0x00#8])) 0x00000033#32 []) =
      some (0x0000002f#32, []) ∧
    stat .dos (send (withDos (dosHolding 16 [0x00#8])) 0x00000033#32 []) = some 0x0000000000001230#64 := by decide
theorem test_dosAbort_notcfg : said (send State.reset 0x0000013d#32 []) = some (0x0000005f#32, []) := by decide
theorem test_dosStatus : said (send State.reset 0x0000003e#32 []) = some (0x00000805#32, zeros 8) := by decide

/-! ### Cases that meet the statements' hypotheses, each clause at a boundary value -/

/-- What a step or a command leaves. -/
def after : Host.Outcome State Fault Refusal → State
  | .next t => t
  | _ => State.reset

/-- Legal states: ready units that hold nothing; ENC with a word; ENC in an open zero range; DEC with two groups, the second
truncated; DOS with half a group in its Remainder. -/
def sEnc : State := idleUnits.setEnc (encHolding wL)
def sZero : State := idleUnits.setEnc { encHolding [] with main := .zeroRangeWriting }
def sDec : State := idleUnits.setDec (decHolding 16 [0x01#8, 0x2a#8, 0x00#8])
def sDos : State := idleUnits.setDos (dosHolding 16 [0x81#8, 0x05#8])

theorem idleUnits_legal : idleUnits.Legal := ⟨by decide, by decide, by decide, by decide⟩
theorem sEnc_legal : sEnc.Legal := ⟨by decide, by decide, by decide, by decide⟩
theorem sZero_legal : sZero.Legal := ⟨by decide, by decide, by decide, by decide⟩
theorem sDec_legal : sDec.Legal := ⟨by decide, by decide, by decide, by decide⟩
theorem sDos_legal : sDos.Legal := ⟨by decide, by decide, by decide, by decide⟩

/-- The same units, FAILED by an ABORT. -/
def failedUnits : State :=
  { idleUnits with
    enc := { encHolding [] with failed := true, err := 4#4 }
    dec := { decHolding 16 [] with failed := true, err := 4#4 }
    dos := { dosHolding 16 [] with failed := true, err := 4#4 } }

theorem failedUnits_legal : failedUnits.Legal := ⟨by decide, by decide, by decide, by decide⟩

theorem witness_DecodeOfEncodeGivesTheCommandBack :
    (Instr.encSet wL).WellFormed ∧ (Instr.encSet []).WellFormed ∧ (Instr.decAbort 0xffffff#24).WellFormed :=
  ⟨show wL.length < 2 ^ 24 by decide, show ([] : List Byte).length < 2 ^ 24 by decide, trivial⟩

theorem witness_EncodeOfDecodeGivesTheTransactionBack :
    decode ⟨0x00000811#32, wL⟩ = .ok (.encSet wL) ∧ decode ⟨0xffffff2d#32, []⟩ = .ok (.decAbort 0xffffff#24) := by decide

/-- One illegal word for each condition of R71, and the word next to each that is legal. -/
theorem witness_IllegalWordsAreRefusedAndChangeNothing :
    (State.reset.issue ⟨0x00000042#32, []⟩).pending = [.command ⟨0x00000042#32, []⟩] ∧
    illegalWord 0x00000042#32 ∧ illegalWord 0x00000024#32 ∧ illegalWord 0x00000032#32 ∧ illegalWord 0x00000112#32 ∧
    ¬ illegalWord 0x00000022#32 ∧ ¬ illegalWord 0x00000033#32 ∧ ¬ illegalWord 0x00000110#32 :=
  ⟨rfl, by decide, by decide, by decide, by decide, by decide, by decide, by decide⟩

theorem witness_StepRunsTheDecodedCommand :
    (idleUnits.issue ⟨0x00000012#32, []⟩).pending = .command ⟨0x00000012#32, []⟩ :: [] ∧
      decode ⟨0x00000012#32, []⟩ = .ok .encNext := by decide

theorem witness_IdleStepChangesNothing : idleUnits.pending = [] := rfl

theorem witness_ResetEventResetsEveryUnit :
    ({ failedUnits with pending := [.reset] } : State).pending = .reset :: [] := rfl

theorem witness_EveryCommandGetsExactlyOneResponse :
    (sEnc.issue ⟨0x00000012#32, []⟩).pending = [.command ⟨0x00000012#32, []⟩] ∧
    (sEnc.issue ⟨0x00000012#32, []⟩).Legal ∧ decode ⟨0x00000012#32, []⟩ ≠ .error .dataLength ∧
    ∃ t, step (sEnc.issue ⟨0x00000012#32, []⟩) = .next t :=
  ⟨rfl, sEnc_legal, by decide, _, rfl⟩

theorem witness_OnlyTheAddressedUnitChanges :
    (∃ t, exec .encNext sEnc = .next t) ∧ UnitName.dec ≠ unitOf .encNext := ⟨⟨_, rfl⟩, by decide⟩

theorem witness_AnswersDependOnTheAddressedUnitAlone :
    (sEnc.setDec Decoder.reset).params = sEnc.params ∧ sameUnit sEnc (sEnc.setDec Decoder.reset) (unitOf .encNext) ∧
      ∃ t, exec .encNext sEnc = .next t := ⟨rfl, rfl, _, rfl⟩

theorem witness_CommandsToDifferentUnitsCommute :
    unitOf .encNext ≠ unitOf .decFlush ∧
      ∃ a b, exec .encNext sEnc = .next a ∧ exec .decFlush a = .next b := ⟨by decide, _, _, rfl, rfl⟩

theorem witness_EveryStepKeepsLegalStates :
    (sDec.issue ⟨0x00000022#32, []⟩).Legal ∧ ∃ t, step (sDec.issue ⟨0x00000022#32, []⟩) = .next t :=
  ⟨sDec_legal, _, rfl⟩

theorem witness_EveryCommandCompletesInLegalStates : sDec.Legal ∧ failedUnits.Legal := ⟨sDec_legal, failedUnits_legal⟩

theorem witness_CommandsAnswerAsTheirRulesList : sDec.Legal ∧ ∃ t, exec .decFlush sDec = .next t :=
  ⟨sDec_legal, _, rfl⟩

theorem witness_UnreadyUnitsRefuseCommands :
    needsReady .encNext = true ∧ (State.reset.common (unitOf .encNext)).cfg = false ∧
    needsReady .dosFinish = true ∧ (failedUnits.common (unitOf .dosFinish)).cfg = true ∧
    (failedUnits.common (unitOf .dosFinish)).failed = true := by decide

/-- BUSY in each unit; CONFIG for one byte over `MAX_IN`, and for a length of 4 in ENC. -/
theorem witness_SetsAreRefusedInTheOrderOfChecks :
    sEnc.enc.Ready ∧ sEnc.enc.inptr < sEnc.enc.inlen ∧
    idleUnits.enc.Ready ∧ idleUnits.enc.inlen ≤ idleUnits.enc.inptr ∧ idleUnits.params.maxIn < (wA ++ wB).length ∧
    (wA.take 4).length % 8 ≠ 0 ∧
    sDec.dec.Ready ∧ sDec.dec.inptr < sDec.dec.inlen ∧
    idleUnits.dec.Ready ∧ idleUnits.dec.inlen ≤ idleUnits.dec.inptr ∧ idleUnits.params.maxIn < (0x00#8 :: wA).length ∧
    ({ dosHolding 16 [] with inlen := 1 } : Dos).Ready ∧ ({ dosHolding 16 [] with inlen := 1 } : Dos).inptr < 1 ∧
    idleUnits.dos.Ready ∧ idleUnits.dos.inlen ≤ idleUnits.dos.inptr := by decide

/-- One step for each way a unit becomes FAILED, and for the ways FAILED is cleared. -/
theorem witness_FailedIsSetByFatalErrorsAndClearedByInitOrReset :
    (∃ t, step (sEnc.issue ⟨0x0000071d#32, []⟩) = .next t ∧ sEnc.enc.failed = false ∧ t.enc.failed = true) ∧
    (∃ t, step (sDec.issue ⟨0x0000072d#32, []⟩) = .next t ∧ sDec.dec.failed = false ∧ t.dec.failed = true) ∧
    (∃ t, step ((idleUnits.setDec (decHolding 16 [0x00#8])).issue ⟨0x00000023#32, []⟩) = .next t ∧
      idleUnits.dec.failed = false ∧ t.dec.failed = true) ∧
    (∃ t, step (sDos.issue ⟨0x00000033#32, []⟩) = .next t ∧ sDos.dos.failed = false ∧ t.dos.failed = true) ∧
    (∃ t, step (failedUnits.issue ⟨0x00080010#32, []⟩) = .next t ∧ failedUnits.enc.failed = true ∧ t.enc.failed = false) ∧
    (∃ t, step (failedUnits.issue ⟨0x00000820#32, []⟩) = .next t ∧ failedUnits.dec.failed = true ∧ t.dec.failed = false) ∧
    (∃ t, step { failedUnits with pending := [.reset] } = .next t ∧ failedUnits.dos.failed = true ∧ t.dos.failed = false) :=
  ⟨⟨_, rfl, rfl, rfl⟩, ⟨_, rfl, rfl, rfl⟩, ⟨_, rfl, rfl, rfl⟩, ⟨_, rfl, rfl, rfl⟩, ⟨_, rfl, rfl, rfl⟩,
    ⟨_, rfl, rfl, rfl⟩, ⟨_, rfl, rfl, rfl⟩⟩

/-- The smallest and largest legal capacity, and the ones beside them. -/
theorem witness_EncInitResetsThenConfiguresOrRaisesConfig :
    (2048 ≤ (2048#24).toNat ∧ (2048#24).toNat ≤ smallest.maxCap) ∧
    ¬ (2048 ≤ (2047#24).toNat ∧ (2047#24).toNat ≤ smallest.maxCap) ∧
    ¬ (2048 ≤ (2049#24).toNat ∧ (2049#24).toNat ≤ smallest.maxCap) := by decide

theorem witness_DecInitResetsThenConfiguresOrRaisesConfig :
    (8 ≤ (8#24).toNat ∧ (8#24).toNat % 8 = 0 ∧ (8#24).toNat ≤ smallest.maxCap) ∧
    (8 ≤ (2048#24).toNat ∧ (2048#24).toNat % 8 = 0 ∧ (2048#24).toNat ≤ smallest.maxCap) ∧
    ¬ (8 ≤ (0#24).toNat ∧ (0#24).toNat % 8 = 0 ∧ (0#24).toNat ≤ smallest.maxCap) ∧
    ¬ (8 ≤ (9#24).toNat ∧ (9#24).toNat % 8 = 0 ∧ (9#24).toNat ≤ smallest.maxCap) ∧
    ¬ (8 ≤ (2056#24).toNat ∧ (2056#24).toNat % 8 = 0 ∧ (2056#24).toNat ≤ smallest.maxCap) := by decide

theorem witness_DosInitResetsThenConfiguresOrRaisesConfig :
    (8 ≤ (8#24).toNat ∧ (8#24).toNat % 8 = 0 ∧ (8#24).toNat ≤ smallest.maxCap) ∧
    ¬ (8 ≤ (7#24).toNat ∧ (7#24).toNat % 8 = 0 ∧ (7#24).toNat ≤ smallest.maxCap) := by decide

/-- A chunk of exactly `MAX_IN` bytes, and the empty chunk. -/
theorem witness_EncSetInstallsTheChunk :
    idleUnits.enc.Ready ∧ idleUnits.enc.inlen ≤ idleUnits.enc.inptr ∧ wA.length ≤ idleUnits.params.maxIn ∧
      wA.length % 8 = 0 ∧ ([] : List Byte).length % 8 = 0 := by decide

theorem witness_DecSetInstallsTheChunk :
    idleUnits.dec.Ready ∧ idleUnits.dec.inlen ≤ idleUnits.dec.inptr ∧ wA.length ≤ idleUnits.params.maxIn := by decide

theorem witness_AcceptedSetsStoreExactlyTheChunk :
    (∃ t, exec (.encSet wA) idleUnits = .next t ∧ t.delivered = idleUnits.delivered ++ [.ok]) ∧
    (∃ t, exec (.decSet wA) idleUnits = .next t ∧ t.delivered = idleUnits.delivered ++ [.ok]) ∧
    (∃ t, exec (.dosSet [0x01#8]) idleUnits = .next t ∧ t.delivered = idleUnits.delivered ++ [.ok]) :=
  ⟨⟨_, rfl, rfl⟩, ⟨_, rfl, rfl⟩, ⟨_, rfl, rfl⟩⟩

theorem witness_AbortFailsTheUnitAndForwardsTheCode :
    idleUnits.enc.Ready ∧ idleUnits.dec.Ready ∧ idleUnits.dos.Ready ∧
    (State.reset.common (unitOf (.encAbort 0#24))).cfg = false ∧
    (failedUnits.common (unitOf (.dosAbort 0xffffff#24))).cfg = true ∧
    (failedUnits.common (unitOf (.dosAbort 0xffffff#24))).failed = true := by decide

theorem witness_StatusAnswersTheRegisterAndChangesNothing :
    (encHolding []).ResetButConfig ∧ (encHolding []).cfg = true ∧
    (decHolding 8 []).ResetButConfig ∧ (decHolding 8 []).cfg = true ∧
    (dosHolding 8 []).ResetButConfig ∧ (dosHolding 8 []).w = 0 ∧ (dosHolding 8 []).cfg = true := by decide

theorem witness_MinimalBuffersAreTheSmallestLegalOnes :
    State.reset.params.Legal ∧ idleUnits.params.Legal ∧ (0#24).toNat < 8 ∧ (7#24).toNat < 8 ∧ (2047#24).toNat < 2048 := by
  decide

theorem witness_EncNextEmitsWhatTheEncoderOwes :
    sEnc.Legal ∧ sEnc.enc.Ready ∧ sZero.Legal ∧ sZero.enc.Ready ∧ wA.length % 8 = 0 :=
  ⟨sEnc_legal, by decide, sZero_legal, by decide, by decide⟩

theorem witness_EncFlushEmitsWhatTheEncoderOwesOrIsDone :
    idleUnits.Legal ∧ idleUnits.enc.Ready ∧ idleUnits.enc.owes idleUnits.enc.unread = [] ∧
    sZero.Legal ∧ sZero.enc.Ready ∧ sZero.enc.owes sZero.enc.unread ≠ [] :=
  ⟨idleUnits_legal, by decide, by decide, sZero_legal, by decide, by decide⟩

theorem witness_EncNextAndFlushFrame :
    sEnc.Legal ∧ sEnc.enc.Ready ∧ (∃ t, exec .encNext sEnc = .next t) ∧ ∃ t, exec .encFlush sEnc = .next t :=
  ⟨sEnc_legal, by decide, ⟨_, rfl⟩, _, rfl⟩

theorem witness_EncNoneMeansConsumedAndRepeats :
    sZero.Legal ∧ sZero.enc.Ready ∧ ∃ t, exec .encNext sZero = .next t ∧ t.delivered = sZero.delivered ++ [.none] :=
  ⟨sZero_legal, by decide, _, rfl, rfl⟩

theorem witness_DecNextEmitsCompleteUnitsInOrder : sDec.Legal ∧ sDec.dec.Ready := ⟨sDec_legal, by decide⟩

/-- An OUTPUT, DONE, and MALFORMED. -/
theorem witness_DecFlushEmitsThenEndsInDoneOrMalformed :
    sDec.Legal ∧ sDec.dec.Ready ∧ (sDec.dec.outlook []).1 ≠ [] ∧
    idleUnits.Legal ∧ idleUnits.dec.Ready ∧ idleUnits.dec.outlook [] = ([], true) ∧
    (after (exec .decFlush sDec)).Legal ∧ (after (exec .decFlush sDec)).dec.Ready ∧
    (after (exec .decFlush sDec)).dec.outlook [] = ([], false) :=
  ⟨sDec_legal, by decide, by decide, idleUnits_legal, by decide, by decide,
    ⟨by decide, by decide, by decide, by decide⟩, by decide, by decide⟩

theorem witness_DecNextAndFlushFrame :
    sDec.Legal ∧ sDec.dec.Ready ∧ (∃ t, exec .decNext sDec = .next t) ∧ ∃ t, exec .decFlush sDec = .next t :=
  ⟨sDec_legal, by decide, ⟨_, rfl⟩, _, rfl⟩

/-- A chunk of one byte, all of it interned. -/
theorem witness_DecNoneMeansConsumedIntoTheRemainder :
    (idleUnits.setDec (decHolding 16 [0x81#8])).Legal ∧ (idleUnits.setDec (decHolding 16 [0x81#8])).dec.Ready ∧
    ∃ t, exec .decNext (idleUnits.setDec (decHolding 16 [0x81#8])) = .next t ∧ t.delivered = [.none] :=
  ⟨⟨by decide, by decide, by decide, by decide⟩, by decide, _, rfl, rfl⟩

theorem witness_NextWithNothingPendingChangesNothing :
    idleUnits.Legal ∧ idleUnits.enc.Ready ∧ idleUnits.enc.inptr = idleUnits.enc.inlen ∧ idleUnits.enc.main = .start ∧
    idleUnits.enc.cont = .none ∧ idleUnits.dec.Ready ∧ idleUnits.dec.inptr = idleUnits.dec.inlen ∧
    idleUnits.dec.main = .start ∧ idleUnits.dec.remlen = 0 := ⟨idleUnits_legal, by decide⟩

/-- Output that fills the target exactly. -/
theorem witness_DosSetAppendsCompleteUnitsToTheTarget :
    sDos.Legal ∧ sDos.dos.Ready ∧ [0x80#8, 0x00#8, 0x00#8].length ≤ sDos.params.maxIn ∧
      sDos.dos.w + (sDos.dos.outlook [0x80#8, 0x00#8, 0x00#8]).1.length = sDos.dos.cap :=
  ⟨sDos_legal, by decide, by decide, by decide⟩

/-- Six words for a target of one (95_test_vectors.md). -/
theorem witness_DosCapacityKeepsTheUnitsThatFit :
    (withDos (dosHolding 8 [])).Legal ∧ (withDos (dosHolding 8 [])).dos.Ready ∧
      ∃ t, exec (.dosSet (List.replicate 6 [0x01#8, 0x2a#8]).flatten) (withDos (dosHolding 8 [])) = .next t ∧
        t.delivered = [.error .capacity 0#24] :=
  ⟨⟨by decide, by decide, by decide, by decide⟩, by decide, _, rfl, rfl⟩

/-- A DOS whose open range does not fit its target, and is followed by a truncated group. -/
def sDosRange : State :=
  idleUnits.setDos { dosHolding 8 [0x81#8] with main := .zeroRange, cnt := 16 }

/-- RESULT, MALFORMED and CAPACITY. -/
theorem witness_DosFinishAnswersTheResultOrFails :
    (idleUnits.Legal ∧ idleUnits.dos.Ready ∧
      idleUnits.dos.w + (idleUnits.dos.outlook []).1.length ≤ idleUnits.dos.cap ∧ (idleUnits.dos.outlook []).2 = true) ∧
    (sDos.Legal ∧ sDos.dos.Ready ∧
      sDos.dos.w + (sDos.dos.outlook []).1.length ≤ sDos.dos.cap ∧ (sDos.dos.outlook []).2 = false) ∧
    (sDosRange.Legal ∧ sDosRange.dos.Ready ∧
      sDosRange.dos.cap < sDosRange.dos.w + (sDosRange.dos.outlook []).1.length) :=
  ⟨⟨idleUnits_legal, by decide⟩, ⟨sDos_legal, by decide⟩, ⟨by decide, by decide, by decide, by decide⟩, by decide⟩

theorem witness_DosSetAndFinishFrame :
    sDos.Legal ∧ sDos.dos.Ready ∧ (∃ t, exec (.dosSet [0x80#8]) sDos = .next t) ∧ ∃ t, exec .dosFinish sDos = .next t :=
  ⟨sDos_legal, by decide, ⟨_, rfl⟩, _, rfl⟩

/-- Space for exactly one word, and none. -/
theorem witness_DecodeUnitsStoreTheirOutput :
    (decHolding 8 []).cap < 1 + 8 ∧ 0 + 8 ≤ (decHolding 8 []).cap ∧ wA.length = 8 ∧
    8 ≤ ({ decHolding 8 [] with main := .verbatimRange, cnt := 8 } : Decoder).cnt ∧
    8 ≤ (decHolding 8 []).cap ∧ 8 = (decHolding 8 []).cap ∧ 0 < (decHolding 8 []).cap := by decide

theorem witness_EncoderOutputIsPackForEveryChunking :
    smallest.Legal ∧ encCapLegal smallest 2048 ∧ ∀ c ∈ [wL, [], wA], c.length % 8 = 0 ∧ c.length ≤ smallest.maxIn := by
  decide

/-- A well-formed stream in two chunks, and a truncated one. -/
theorem witness_DecoderOutputIsUnpackForEveryChunking :
    smallest.Legal ∧ (decHolding 16 []).Legal smallest ∧ (decHolding 16 []).Ready ∧ (decHolding 16 []).quiescent = true ∧
    (∀ c ∈ [[0x81#8, 0x05#8], [0x80#8]], c.length ≤ smallest.maxIn) ∧
    unpack [0x81#8, 0x05#8, 0x80#8] = some wL ∧ unpack [0x81#8, 0x05#8] = none := by decide

theorem witness_OneShotResultIsUnpackForEveryChunking :
    smallest.Legal ∧ decCapLegal smallest 8 ∧ (∀ c ∈ [[0x81#8, 0x05#8], [0x80#8]], c.length ≤ smallest.maxIn) ∧
      (unitsFrom .start 0 [[0x81#8, 0x05#8], [0x80#8]].flatten).1.length ≤ 8 := by decide

theorem witness_UnpackInvertsPack : (wL ++ wA).length % 8 = 0 := by decide

/-- The round trip's premises, with packed bytes cut in another place than the words. -/
theorem witness_RoundTripThroughEncoderAndDecoder :
    smallest.Legal ∧ encCapLegal smallest 2048 ∧ decCapLegal smallest 8 ∧
    (∀ c ∈ [wL], c.length % 8 = 0 ∧ c.length ≤ smallest.maxIn) ∧
    (∀ c ∈ [[0x81#8, 0x05#8], [0x80#8]], c.length ≤ smallest.maxIn) ∧
    stream (encSetCommand smallest) (encNextCommand smallest) (encFlushCommand smallest) 2 [wL] (encHolding []) =
      some ([[0x81#8, 0x05#8], [0x80#8]].flatten, .done) := by decide

theorem witness_DecodedLengthIsAMultipleOfEight : unpack [0x00#8, 0x01#8] = some (zeros 16) := by decide

theorem witness_TagBitsMarkTheNonzeroBytes : wL.length = 8 ∧ 7 < 8 ∧ ∀ b ∈ wA, b ≠ 0x00#8 := by decide

theorem witness_PopulationCountIsTheNumberOfNonzeroBytes : wL.length = 8 := rfl

theorem witness_HeadLengthsByTagClass : 0x7f#8 ≠ 0x00#8 ∧ 0x7f#8 ≠ 0xff#8 := by decide

theorem witness_UnpackHeadInvertsPackWord :
    tagClass (tag wL) = .lit ∧ tagClass (tag wA) ≠ .lit ∧ tagClass (tag (zeros 8)) ≠ .lit := by decide

theorem witness_ResponseWordFields :
    (∀ e info, Response.ok ≠ .error e info) ∧ wL.length < 2 ^ 24 ∧ ([] : List Byte).length < 2 ^ 24 :=
  ⟨nofun, by decide, by decide⟩

/-- The widest counts. -/
theorem witness_EncStatusLayout : (4095 < 2 ^ 12) ∧ (encHolding wL).mcnt < 2 ^ 12 ∧
    ({ encHolding wL with mcnt := 4095, cend := 4095, inlen := 2 ^ 24 - 1 } : Enc).inlen < 2 ^ 24 := by decide

theorem witness_DecoderStatusLayouts :
    ({ decHolding 16 [] with cnt := 4095, remlen := 15, inlen := 2 ^ 24 - 1 } : Decoder).inlen < 2 ^ 24 ∧
    ({ dosHolding 16 [] with w := 2 ^ 24 - 1 } : Dos).w < 2 ^ 24 := by decide

/-- DEC in a verbatim range of one word, holding a chunk of `n` bytes; DOS in the same, holding nothing. -/
def verbDec (n : Nat) : State :=
  withDec { decHolding 16 (List.replicate n 0x11#8) with main := .verbatimRange, cnt := 8 }
def verbDos : State := withDos { dosHolding 16 [] with main := .verbatimRange, cnt := 8 }

/-- 9 and 10 unread bytes in `Start`, 7 and 8 in a verbatim range. -/
theorem witness_DecNextInternsAShortChunk :
    ((withDec (decHolding 16 (zeros 9))).Legal ∧ (withDec (decHolding 16 (zeros 9))).dec.Ready ∧
      (decHolding 16 (zeros 9)).remlen = 0 ∧ (decHolding 16 (zeros 9)).main = .start ∧ (decHolding 16 (zeros 9)).inlen = 9) ∧
    ((withDec (decHolding 16 (zeros 10))).Legal ∧ (decHolding 16 (zeros 10)).inlen = 10) ∧
    ((verbDec 7).Legal ∧ (verbDec 7).dec.Ready ∧ (verbDec 7).dec.main = .verbatimRange ∧ (verbDec 7).dec.inlen = 7) ∧
    ((verbDec 8).Legal ∧ (verbDec 8).dec.inlen = 8) :=
  ⟨⟨⟨by decide, by decide, by decide, by decide⟩, by decide⟩, ⟨⟨by decide, by decide, by decide, by decide⟩, by decide⟩,
    ⟨⟨by decide, by decide, by decide, by decide⟩, by decide⟩, ⟨by decide, by decide, by decide, by decide⟩, by decide⟩

/-- Chunks of 9 and 10 bytes in `Start`, of 7 and 8 in a verbatim range; space for two words. -/
theorem witness_DosSetInternsAShortChunk :
    ((withDos (dosHolding 16 [])).Legal ∧ (withDos (dosHolding 16 [])).dos.Ready ∧ (dosHolding 16 []).remlen = 0 ∧
      (dosHolding 16 []).main = .start ∧ (zeros 9).length < 10 ∧ 10 ≤ (zeros 10).length ∧
      (zeros 10).length ≤ State.reset.params.maxIn) ∧
    (verbDos.Legal ∧ verbDos.dos.Ready ∧ verbDos.dos.main = .verbatimRange ∧ (zeros 7).length < 8 ∧ 8 ≤ wA.length ∧
      verbDos.dos.w + 8 ≤ verbDos.dos.cap) :=
  ⟨⟨⟨by decide, by decide, by decide, by decide⟩, by decide⟩, ⟨by decide, by decide, by decide, by decide⟩, by decide⟩

/-- A Remainder of two bytes of a `0x81` group, and a chunk of `n` bytes; the group needs three. -/
def remDec (rem : List Byte) (n : Nat) : Decoder :=
  { decHolding 16 (zeros n) with rem := cellsAt 0 rem, remlen := rem.length }

/-- One unit for each clause: a zero range; a short and a long chunk; a Remainder that cannot be completed, one that holds its unit, one
that the chunk completes. -/
theorem witness_DecodeRunTakesUnitsByThePhases :
    (({ decHolding 8 [] with main := .zeroRange, cnt := 16 } : Decoder).SharedLegal smallest ∧ 8 % 8 = 0 ∧ 8 ≤ (decHolding 8 []).cap) ∧
    ((decHolding 16 (zeros 8)).SharedLegal smallest ∧ (decHolding 16 (zeros 8)).inlen < 10) ∧
    ((decHolding 16 (zeros 10)).SharedLegal Config.reference ∧ 10 ≤ (decHolding 16 (zeros 10)).inlen) ∧
    ((remDec [0x81#8, 0x05#8] 0).SharedLegal smallest ∧ 2 + 0 < syncBytes (remDec [0x81#8, 0x05#8] 0) 0x81#8) ∧
    ((remDec [0x81#8, 0x05#8, 0x80#8] 0).SharedLegal smallest ∧ syncBytes (remDec [0x81#8, 0x05#8, 0x80#8] 0) 0x81#8 = 3) ∧
    ((remDec [0x81#8, 0x05#8] 1).SharedLegal smallest ∧ syncBytes (remDec [0x81#8, 0x05#8] 1) 0x81#8 = 2 + 1) :=
  ⟨⟨by decide, by decide⟩, ⟨by decide, by decide⟩, ⟨by decide, by decide⟩, ⟨by decide, by decide⟩, ⟨by decide, by decide⟩,
    by decide, by decide⟩

end Sys2Proof.Machine.Tests
end

/-!
PROOFS for the scope family, part 1: every command is a command of one unit, closed on the machine's state (R2, R132).
-/

namespace Sys2Proof.Machine

open Sys2Proof.Config

/-- Each command is a function of the parameters and of the unit it addresses, whose end is handed back to that unit. -/
theorem exec_runs_on_unitOf (i : Instr) :
    (unitOf i = .enc ∧ ∃ f : Params → Enc → CommandEnd Enc, ∀ s, exec i s = s.closeEnc (f s.params s.enc)) ∨
    (unitOf i = .dec ∧ ∃ f : Params → Decoder → CommandEnd Decoder, ∀ s, exec i s = s.closeDec (f s.params s.dec)) ∨
    (unitOf i = .dos ∧ ∃ f : Params → Dos → CommandEnd Dos, ∀ s, exec i s = s.closeDos (f s.params s.dos)) := by
  cases i with
  | encInit cap => exact .inl ⟨rfl, fun p _ => encInitCommand p (capOf cap), fun _ => rfl⟩
  | encSet chunk => exact .inl ⟨rfl, fun p => encSetCommand p chunk, fun _ => rfl⟩
  | encNext => exact .inl ⟨rfl, encNextCommand, fun _ => rfl⟩
  | encFlush => exact .inl ⟨rfl, encFlushCommand, fun _ => rfl⟩
  | encAbort code => exact .inl ⟨rfl, fun _ => encAbortCommand code, fun _ => rfl⟩
  | encStatus => exact .inl ⟨rfl, fun _ => encStatusCommand, fun _ => rfl⟩
  | decInit cap => exact .inr (.inl ⟨rfl, fun p _ => decInitCommand p (capOf cap), fun _ => rfl⟩)
  | decSet chunk => exact .inr (.inl ⟨rfl, fun p => decSetCommand p chunk, fun _ => rfl⟩)
  | decNext => exact .inr (.inl ⟨rfl, decNextCommand, fun _ => rfl⟩)
  | decFlush => exact .inr (.inl ⟨rfl, decFlushCommand, fun _ => rfl⟩)
  | decAbort code => exact .inr (.inl ⟨rfl, fun _ => decAbortCommand code, fun _ => rfl⟩)
  | decStatus => exact .inr (.inl ⟨rfl, fun _ => decStatusCommand, fun _ => rfl⟩)
  | dosInit cap => exact .inr (.inr ⟨rfl, fun p _ => dosInitCommand p (capOf cap), fun _ => rfl⟩)
  | dosSet chunk => exact .inr (.inr ⟨rfl, fun p => dosSetCommand p chunk, fun _ => rfl⟩)
  | dosFinish => exact .inr (.inr ⟨rfl, dosFinishCommand, fun _ => rfl⟩)
  | dosAbort code => exact .inr (.inr ⟨rfl, fun _ => dosAbortCommand code, fun _ => rfl⟩)
  | dosStatus => exact .inr (.inr ⟨rfl, fun _ => dosStatusCommand, fun _ => rfl⟩)

/-- Settles O9: a command's end is closed on its own unit, and closing sets that unit and the record alone. -/
theorem onlyTheAddressedUnitChanges : Obligations.OnlyTheAddressedUnitChanges := by
  unfold Obligations.OnlyTheAddressedUnitChanges
  intro i s t h
  obtain ⟨hu, f, hf⟩ | ⟨hu, f, hf⟩ | ⟨hu, f, hf⟩ := exec_runs_on_unitOf i <;> rw [hf s] at h <;> rw [hu]
  · obtain ⟨u, r, -, rfl⟩ := State.closeEnc_eq_next h
    refine ⟨rfl, rfl, fun v hv => ?_⟩
    cases v with
    | enc => exact absurd rfl hv
    | dec | dos => rfl
  · obtain ⟨u, r, -, rfl⟩ := State.closeDec_eq_next h
    refine ⟨rfl, rfl, fun v hv => ?_⟩
    cases v with
    | dec => exact absurd rfl hv
    | enc | dos => rfl
  · obtain ⟨u, r, -, rfl⟩ := State.closeDos_eq_next h
    refine ⟨rfl, rfl, fun v hv => ?_⟩
    cases v with
    | dos => exact absurd rfl hv
    | enc | dec => rfl

/-- Settles O10: the command's function is given the same parameters and the same unit in both states, so it ends in
the same way, and each state is closed with that end. -/
theorem answersDependOnTheAddressedUnitAlone : Obligations.AnswersDependOnTheAddressedUnitAlone := by
  unfold Obligations.AnswersDependOnTheAddressedUnitAlone
  intro i s s' t hp hs h
  obtain ⟨hu, f, hf⟩ | ⟨hu, f, hf⟩ | ⟨hu, f, hf⟩ := exec_runs_on_unitOf i <;> rw [hf s] at h <;> rw [hu] at hs ⊢
  · have hs : s'.enc = s.enc := hs
    obtain ⟨u, r, he, rfl⟩ := State.closeEnc_eq_next h
    exact ⟨(s'.setEnc u).deliver r, r, by rw [hf s', hp, hs, he, State.closeEnc_respond], rfl, rfl, rfl⟩
  · have hs : s'.dec = s.dec := hs
    obtain ⟨u, r, he, rfl⟩ := State.closeDec_eq_next h
    exact ⟨(s'.setDec u).deliver r, r, by rw [hf s', hp, hs, he, State.closeDec_respond], rfl, rfl, rfl⟩
  · have hs : s'.dos = s.dos := hs
    obtain ⟨u, r, he, rfl⟩ := State.closeDos_eq_next h
    exact ⟨(s'.setDos u).deliver r, r, by rw [hf s', hp, hs, he, State.closeDos_respond], rfl, rfl, rfl⟩

end Sys2Proof.Machine

/-!
PROOFS for the scope family, part 2: how a procedure or a command ends without stopping the model, and the run of the
decode machine from a legal unit (R86 to R103).
-/

namespace Sys2Proof.Machine

open Sys2Proof.Config

/-! ### Ending without a stop -/

/-- A procedure does not stop the model: a value it gives satisfies `B`, an early end of its command satisfies `E`. -/
def Flow.Meets {σ ε α : Type} (x : Flow σ ε α) (B : σ → α → Prop) (E : σ → ε → Prop) : Prop :=
  match x with
  | .back u a => B u a
  | .ended u e => E u e
  | .stop _ => False

/-- A command ends with a response. -/
def CommandEnd.Completes {σ : Type} (e : CommandEnd σ) : Prop := ∃ u r, e = .respond u r

section
variable {σ ε α β : Type} {B B' : σ → α → Prop} {E E' : σ → ε → Prop} {C : σ → β → Prop}

@[simp] theorem Flow.meets_back (u : σ) (a : α) : (Flow.back u a : Flow σ ε α).Meets B E ↔ B u a := Iff.rfl
@[simp] theorem Flow.meets_ended (u : σ) (e : ε) : (Flow.ended u e : Flow σ ε α).Meets B E ↔ E u e := Iff.rfl
@[simp] theorem Flow.meets_stop (f : Fault) : ¬ (Flow.stop f : Flow σ ε α).Meets B E := id

/-- Sequencing: what the first procedure gives is what the second one starts from. -/
theorem Flow.Meets.bind {x : Flow σ ε α} {k : σ → α → Flow σ ε β} (hx : x.Meets B E')
    (hk : ∀ u a, B u a → (k u a).Meets C E) (he : ∀ u e, E' u e → E u e) : (x.bind k).Meets C E := by
  cases x with
  | back u a => exact hk u a hx
  | ended u e => exact he u e hx
  | stop f => exact hx.elim

/-- What a procedure meets may be weakened. -/
theorem Flow.Meets.mono {x : Flow σ ε α} (hx : x.Meets B E) (hb : ∀ u a, B u a → B' u a)
    (he : ∀ u e, E u e → E' u e) : x.Meets B' E' := by
  cases x with
  | back u a => exact hb u a hx
  | ended u e => exact he u e hx
  | stop f => exact hx

/-- A command that a check may refuse completes when it completes after the check has passed. -/
theorem checked_completes {refusal : Option Response} {u : σ} {go : CommandEnd σ}
    (h : refusal = none → go.Completes) : (checked refusal u go).Completes := by
  cases refusal with
  | some r => exact ⟨u, r, rfl⟩
  | none => exact h rfl

end

/-! ### Reading what legal units hold -/

/-- Bytes that are held are read. -/
theorem memRead_of_bytesHeld {m : Mem} {size a n : Nat} (hs : a + n ≤ size) (h : bytesHeld m a n) :
    ∃ bs, memRead m size a n = .ok bs ∧ readBytes? m a n = some bs ∧ bs.length = n := by
  obtain ⟨bs, hbs⟩ := Option.isSome_iff_exists.mp h
  exact ⟨bs, memRead_of_held hs hbs, hbs, readBytes?_length hbs⟩

/-- Two reads from one address begin with the same byte. -/
theorem readBytes?_headD_eq {m : Mem} {a n k : Nat} {xs ys : List Byte} (hx : readBytes? m a n = some xs)
    (hy : readBytes? m a k = some ys) (hn : 0 < n) (hk : 0 < k) : xs.headD 0#8 = ys.headD 0#8 := by
  have h0 := ((readBytes?_eq_some_iff m a n xs).mp hx).2 0 hn
  have h1 := ((readBytes?_eq_some_iff m a k ys).mp hy).2 0 hk
  rw [List.headD_eq_head?_getD, List.headD_eq_head?_getD, List.head?_eq_getElem?, List.head?_eq_getElem?, ← h0, ← h1]

/-- Bytes written directly behind bytes that are held. -/
theorem bytesHeld_writeBytes_append {m : Mem} {a n : Nat} {bs : List Byte} (h : bytesHeld m a n) :
    bytesHeld (writeBytes m (a + n) bs) a (n + bs.length) := by
  obtain ⟨old, hold⟩ := Option.isSome_iff_exists.mp h
  rw [bytesHeld, readBytes?_writeBytes_append hold]; rfl

/-- The bytes a write has stored are held. -/
theorem bytesHeld_writeBytes_self (m : Mem) (a : Nat) (bs : List Byte) :
    bytesHeld (writeBytes m a bs) a bs.length := by
  rw [bytesHeld, readBytes?_writeBytes_self]; rfl

/-- A part of a legal unit's chunk can be read. -/
theorem readChunk_of_legal {p : Params} {c : Common} (h : c.Legal p) {a n : Nat} (hn : a + n ≤ c.inlen) :
    ∃ bs, readChunk p c a n = .ok bs ∧ readBytes? c.input a n = some bs ∧ bs.length = n := by
  obtain ⟨-, hlen, -, hheld, -⟩ := h
  exact memRead_of_bytesHeld (by omega) (bytesHeld_mono hheld (by omega) (by omega))

/-- A ready unit that takes an acceptable chunk keeps legal common fields (R46). -/
theorem Common.Legal.installed {p : Params} {c : Common} (h : c.Legal p) {s : List Byte} (hs : s.length ≤ p.maxIn) :
    Common.Legal p { c with input := writeBytes c.input 0 s, inlen := s.length, inptr := 0 } := by
  obtain ⟨-, -, hmem, -, herr⟩ := h
  exact ⟨Nat.zero_le _, hs, memWithin_writeBytes hmem (by omega), bytesHeld_writeBytes_self _ _ _, herr⟩

/-- Consuming more of the chunk keeps legal common fields. -/
theorem Common.Legal.advanced {p : Params} {c : Common} (h : c.Legal p) {q : Nat} (hq : q ≤ c.inlen) :
    Common.Legal p { c with inptr := q } := by
  obtain ⟨-, hlen, hmem, hheld, herr⟩ := h
  exact ⟨hq, hlen, hmem, hheld, herr⟩

/-! ### The state of a decode run -/

/-- What holds of a decoder at every point of a run that has produced the bytes `OUTM[0..o)`: its fields are legal, and
those bytes have been written. -/
structure DecRunning (p : Params) (d : Decoder) (o : Nat) : Prop where
  legal : d.SharedLegal p
  ready : d.Ready
  fits : o ≤ d.cap
  aligned : o % 8 = 0
  held : bytesHeld d.outm 0 o

/-- One decoder has the same common fields and the same Remainder as another: a unit of the decode machine writes neither
(R89 to R91). -/
def Decoder.SameReader (d e : Decoder) : Prop := e.toCommon = d.toCommon ∧ e.rem = d.rem ∧ e.remlen = d.remlen

namespace DecRunning

variable {p : Params} {d : Decoder} {o : Nat}

theorem common (h : DecRunning p d o) : d.toCommon.Legal p := h.legal.1

/-- A ready decoder's capacity is a whole number of words (R7). -/
theorem cap_aligned (h : DecRunning p d o) : d.cap % 8 = 0 := (h.legal.2.1 h.ready.1).2.1

theorem range (h : DecRunning p d o) : d.RangeLegal := h.legal.2.2.2

/-- Storing whole words behind the output. -/
theorem store (h : DecRunning p d o) {bs : List Byte} (hw : bs.length % 8 = 0) (hc : o + bs.length ≤ d.cap) :
    DecRunning p { d with outm := writeBytes d.outm o bs } (o + bs.length) := by
  obtain ⟨⟨hcommon, hcap, hout, hrange⟩, hready, -, haligned, hheld⟩ := h
  have hheld' := bytesHeld_writeBytes_append (bs := bs) hheld
  rw [Nat.zero_add] at hheld'
  exact ⟨⟨hcommon, hcap, memWithin_writeBytes hout hc, hrange⟩, hready, hc, by omega, hheld'⟩

/-- Taking another legal range. -/
theorem setRange (h : DecRunning p d o) {m : DecMain} {n : Nat}
    (hr : (m = .start ∧ n = 0) ∨ (m ≠ .start ∧ n % 8 = 0 ∧ 8 ≤ n ∧ n ≤ MAX_EXTRA)) :
    DecRunning p { d with main := m, cnt := n } o := by
  obtain ⟨⟨hcommon, hcap, hout, -, -, hrem⟩, hready, hfits, haligned, hheld⟩ := h
  refine ⟨⟨hcommon, hcap, hout, fun hm => ?_, fun hm => ?_, hrem⟩, hready, hfits, haligned, hheld⟩
  · obtain ⟨-, hn⟩ | ⟨hne, -⟩ := hr
    · exact hn
    · exact absurd hm hne
  · obtain ⟨hs, -⟩ | ⟨-, hn⟩ := hr
    · exact absurd hs hm
    · exact hn

/-- Paying whole words of a range. -/
theorem pay (h : DecRunning p d o) {k : Nat} (hk : k % 8 = 0) (hm : d.main ≠ .start) :
    DecRunning p (payRange d k) o := by
  obtain ⟨-, hrange, -⟩ := h.range
  obtain ⟨hn, -, hmax⟩ := hrange hm
  unfold payRange
  split
  · exact h.setRange (.inl ⟨rfl, rfl⟩)
  · exact h.setRange (.inr ⟨hm, by omega, by omega, by omega⟩)

/-- Another position in the chunk, and another Remainder that is held. -/
theorem setReader (h : DecRunning p d o) {q n : Nat} {m : Mem} (hq : q ≤ d.inlen) (hn : n ≤ 9)
    (hm : memWithin m REM_CAP) (hheld : bytesHeld m 0 n) :
    DecRunning p { d with inptr := q, rem := m, remlen := n } o := by
  obtain ⟨⟨hcommon, hcap, hout, hstart, hrange, -⟩, hready, hfits, haligned, hout'⟩ := h
  exact ⟨⟨hcommon.advanced hq, hcap, hout, hstart, hrange, hn, hm, hheld⟩, hready, hfits, haligned, hout'⟩

/-- A part of the Remainder can be read. -/
theorem readRem_ok (h : DecRunning p d o) {a n : Nat} (hn : a + n ≤ d.remlen) :
    ∃ bs, readRem d a n = .ok bs ∧ readBytes? d.rem a n = some bs ∧ bs.length = n := by
  obtain ⟨-, -, hlen, -, hheld⟩ := h.range
  have hcap : REM_CAP = 10 := rfl
  exact memRead_of_bytesHeld (by omega) (bytesHeld_mono hheld (by omega) (by omega))

/-- Taking bytes out of the front of the Remainder goes on with a shorter one. -/
theorem dropRem_meets (h : DecRunning p d o) {α : Type} {t : Nat} {k : Decoder → DecFlow α} {B : Decoder → α → Prop}
    {E : Decoder → Nat → Prop} (ht : t ≤ d.remlen)
    (hk : ∀ m, DecRunning p { d with rem := m, remlen := d.remlen - t } o →
      (k { d with rem := m, remlen := d.remlen - t }).Meets B E) : (dropRem d t k).Meets B E := by
  obtain ⟨-, -, hlen, hmem, -⟩ := h.range
  have hcap : REM_CAP = 10 := rfl
  obtain ⟨rest, -, hrest, hl⟩ := h.readRem_ok (a := t) (n := d.remlen - t) (by omega)
  rw [dropRem_of_held k ht (by omega) hrest]
  have hheld := bytesHeld_writeBytes_self d.rem 0 rest
  rw [hl] at hheld
  exact hk _ (h.setReader h.common.1 (by omega) (memWithin_writeBytes hmem (by omega)) hheld)

/-- Moving chunk bytes behind the Remainder goes on with a memory that holds both. -/
theorem appendRem_meets (h : DecRunning p d o) {α : Type} {n : Nat} {k : Decoder → DecFlow α} {B : Decoder → α → Prop}
    {E : Decoder → Nat → Prop} (hn : d.inptr + n ≤ d.inlen) (hr : d.remlen + n ≤ REM_CAP)
    (hk : ∀ m, memWithin m REM_CAP → bytesHeld m 0 (d.remlen + n) →
      (∀ i ≤ d.remlen, readBytes? m 0 i = readBytes? d.rem 0 i) →
      (k { d with rem := m, inptr := d.inptr + n }).Meets B E) : (appendRem p d n k).Meets B E := by
  obtain ⟨-, -, -, hmem, hheld⟩ := h.range
  obtain ⟨-, hlen, -⟩ := h.common
  obtain ⟨bs, -, hbs, hl⟩ := readChunk_of_legal h.common hn
  rw [appendRem_of_held k (by omega) hr hbs]
  have hheld' := bytesHeld_writeBytes_append (bs := bs) hheld
  rw [Nat.zero_add, hl] at hheld'
  exact hk _ (memWithin_writeBytes hmem (by omega)) hheld'
    fun i hi => readBytes?_writeBytes_outside (.inl (by omega))

end DecRunning

/-! ### One decode unit -/

/-- Every unit but a zero run consumes a byte. -/
theorem one_le_syncBytes {d : Decoder} (hm : d.main ≠ .zeroRange) (b0 : Byte) : 1 ≤ syncBytes d b0 := by
  unfold syncBytes
  split
  · exact one_le_head b0
  · omega
  · contradiction

/-- No unit needs more bytes than the Remainder has room for. -/
theorem syncBytes_le_ten (d : Decoder) (b0 : Byte) : syncBytes d b0 ≤ 10 := by
  unfold syncBytes
  split
  · exact head_le_ten b0
  · omega
  · omega

/-- Only the tag of an all-zero word starts a zero range (R83). -/
theorem headD_of_unpackHead_zeroRange {s : List Byte} (h : (unpackHead s).main = .zeroRange) :
    s.headD 0#8 = TAG_ZERO := by
  rw [← tagClass_eq_zero_iff]
  unfold unpackHead rangeState at h
  simp only at h
  split at h
  · assumption
  · split at h <;> cases h
  · cases h

/-- What a unit of `n` packed bytes, run at `d`, leaves: a run in order, the reader as it was, and a zero range only after
the tag and the count byte that start one. -/
structure UnitRan (p : Params) (d : Decoder) (n : Nat) (e : Decoder) (o : Nat) : Prop where
  running : DecRunning p e o
  reader : d.SameReader e
  zero : e.main = .zeroRange → 2 ≤ n

section
variable {p : Params} {d : Decoder} {o : Nat}

/-- A Start group runs, or there is no space for its word. -/
theorem startUnit_meets (h : DecRunning p d o) {s : List Byte} (hs : s.length = head (s.headD 0#8)) :
    (startUnit d o s).Meets (UnitRan p d s.length) (fun e o' => e = d ∧ o' = o ∧ d.cap < o + 8) := by
  obtain ⟨hc, he⟩ | ⟨hc, he⟩ := startUnit_cases d o s <;> rw [he]
  · exact ⟨rfl, rfl, hc⟩
  · have hl := unpackHead_word_length s
    have hstored := h.store (bs := (unpackHead s).word) (by omega) (by omega)
    rw [hl] at hstored
    refine ⟨hstored.setRange ?_, ⟨rfl, rfl, rfl⟩, fun hz => ?_⟩
    · obtain hstart | ⟨hm, hn⟩ := unpackHead_state s
      · exact .inl hstart
      · exact .inr ⟨by rcases hm with hm | hm <;> simp [hm], hn⟩
    · rw [hs, headD_of_unpackHead_zeroRange hz]; decide

/-- A verbatim word runs, or there is no space for it. -/
theorem verbUnit_meets (h : DecRunning p d o) {s : List Byte} (hs : s.length = 8) (hm : d.main = .verbatimRange) :
    (verbUnit d o s).Meets (UnitRan p d s.length) (fun e o' => e = d ∧ o' = o ∧ d.cap < o + 8) := by
  obtain ⟨hc, he⟩ | ⟨hc, he⟩ := verbUnit_cases d o hs <;> rw [he]
  · exact ⟨rfl, rfl, hc⟩
  · have hstored := h.store (bs := s) (by omega) (by omega)
    rw [hs] at hstored
    exact ⟨hstored.pay (by omega) (by simp [hm]), ⟨by simp, by simp, by simp⟩, fun _ => by omega⟩

/-- `RunUnit` on the bytes its unit needs. -/
theorem runUnit_meets (h : DecRunning p d o) {s : List Byte} (hs : s.length = syncBytes d (s.headD 0#8))
    (hm : d.main ≠ .zeroRange) :
    (runUnit d o s).Meets (UnitRan p d s.length) (fun e o' => e = d ∧ o' = o ∧ d.cap < o + 8) := by
  cases hmain : d.main with
  | start =>
    rw [(runUnit_eq d o s).1 hmain]
    exact startUnit_meets h (by rwa [syncBytes, hmain] at hs)
  | verbatimRange =>
    rw [(runUnit_eq d o s).2 hmain]
    exact verbUnit_meets h (by rwa [syncBytes, hmain] at hs) hmain
  | zeroRange => exact absurd hmain hm

/-- A zero run pays its range or fills the output; on a full output it ends. -/
theorem zeroUnit_meets (h : DecRunning p d o) (hm : d.main = .zeroRange) :
    (zeroUnit d o).Meets
      (fun e o' => DecRunning p e o' ∧ d.SameReader e ∧ o < d.cap ∧ (e.main = .start ∨ o' = d.cap))
      (fun e o' => e = d ∧ o' = o) := by
  obtain ⟨-, he⟩ | ⟨hc, he⟩ := zeroUnit_cases d h.fits <;> rw [he]
  · exact ⟨rfl, rfl⟩
  · have hcap := h.cap_aligned
    have ho := h.aligned
    obtain ⟨-, hrange, -⟩ := h.range
    obtain ⟨hn, -⟩ := hrange (by simp [hm])
    have hl : (zeros (min d.cnt (d.cap - o))).length = min d.cnt (d.cap - o) := List.length_replicate
    have hstored := h.store (bs := zeros (min d.cnt (d.cap - o))) (by omega) (by omega)
    rw [hl] at hstored
    refine ⟨hstored.pay (by omega) (by simp [hm]), ⟨by simp, by simp, by simp⟩, hc, ?_⟩
    rw [payRange_main]
    by_cases hpaid : d.cnt ≤ d.cap - o
    · exact .inl (if_pos (by simp only; omega))
    · exact .inr (by omega)

end

/-! ### The bound of the decode loops (log 4) -/

/-- A bound on the passes a decode loop has still to make before its last one: one for each byte left, and one more for a
zero range that has space. -/
def passesLeft (d : Decoder) (o : Nat) : Nat :=
  d.remlen + d.inleft + if d.main = .zeroRange ∧ o < d.cap then 1 else 0

theorem passesLeft_lt_decodeFuel (d : Decoder) (o : Nat) : passesLeft d o < decodeFuel d := by
  unfold passesLeft decodeFuel; split <;> omega

/-- A unit leaves fewer passes: it takes its bytes, two of them where it starts a zero range. -/
theorem passesLeft_lt_of_unit {p : Params} {d c e e' : Decoder} {o' n : Nat} (hran : UnitRan p c n e o') (hn : 1 ≤ n)
    (hmain : e'.main = e.main) (hleft : e'.remlen + e'.inleft + n ≤ d.remlen + d.inleft) (o : Nat) :
    passesLeft e' o' < passesLeft d o := by
  have hz := hran.zero
  unfold passesLeft
  rw [hmain]
  split
  · next h => have := hz h.1; omega
  · omega

/-- A zero run leaves fewer passes. -/
theorem passesLeft_lt_of_zeroUnit {d e : Decoder} {o o' : Nat} (hm : d.main = .zeroRange) (hreader : d.SameReader e)
    (hc : o < d.cap) (hend : e.main = .start ∨ o' = d.cap) : passesLeft e o' < passesLeft d o := by
  obtain ⟨hcommon, -, hlen⟩ := hreader
  have hdone : ¬ (e.main = .zeroRange ∧ o' < e.cap) := by
    rw [hcommon]
    rintro ⟨hz, hlt⟩
    obtain hs | ho := hend
    · rw [hs] at hz; cases hz
    · omega
  rw [passesLeft, passesLeft, if_neg hdone, if_pos ⟨hm, hc⟩, hlen, Common.inleft, Common.inleft, hcommon]
  omega

/-! ### One pass of each loop, before it goes on with `k` -/

section
variable {p : Params} {d : Decoder} {o : Nat} {α : Type} {B : Decoder → α → Prop} {k : Decoder → Nat → DecFlow α}

/-- A unit whose bytes are the front of the Remainder runs, and leaves the Remainder shorter (R100 step 3). -/
theorem runUnit_dropRem_meets (h : DecRunning p d o) (hm : d.main ≠ .zeroRange) {s : List Byte}
    (hs : s.length = syncBytes d (s.headD 0#8)) (hl : s.length ≤ d.remlen)
    (hk : ∀ e o', DecRunning p e o' → passesLeft e o' < passesLeft d o → (k e o').Meets B (DecRunning p)) :
    ((runUnit d o s).bind fun d o => dropRem d s.length fun d => k d o).Meets B (DecRunning p) := by
  have hpos := one_le_syncBytes hm (s.headD 0#8)
  refine (runUnit_meets h hs hm).bind (fun e o' hran => ?_) (fun e o' he => by rw [he.1, he.2.1]; exact h)
  obtain ⟨hcommon, -, hrl⟩ := hran.reader
  refine hran.running.dropRem_meets (by omega) fun m hrun => hk _ _ hrun ?_
  refine passesLeft_lt_of_unit hran (by omega) (by rfl) ?_ o
  simp only [Common.inleft, hcommon]
  omega

/-- A unit whose bytes begin in the Remainder and end in the chunk runs, and leaves the Remainder empty (R100 step 4). -/
theorem appendRem_runUnit_meets (h : DecRunning p d o) (hm : d.main ≠ .zeroRange) {b0 : List Byte} (hlen : 1 ≤ d.remlen)
    (hb0 : readBytes? d.rem 0 1 = some b0) (hlt : d.remlen < syncBytes d (b0.headD 0#8))
    (hall : syncBytes d (b0.headD 0#8) ≤ d.remlen + d.inleft)
    (hk : ∀ e o', DecRunning p e o' → passesLeft e o' < passesLeft d o → (k e o').Meets B (DecRunning p)) :
    (appendRem p d (syncBytes d (b0.headD 0#8) - d.remlen) fun d' =>
      .access (readRem d' 0 (syncBytes d (b0.headD 0#8))) fun s =>
        (runUnit d' o s).bind fun d o => k { d with remlen := 0 } o).Meets B (DecRunning p) := by
  have hten := syncBytes_le_ten d (b0.headD 0#8)
  have hcur := h.common.1
  obtain ⟨-, -, hlen9, -⟩ := h.range
  unfold Common.inleft at hall
  refine h.appendRem_meets (by omega) (by simp only [REM_CAP]; omega) fun m hmem hheld hsame => ?_
  rw [Nat.add_sub_cancel' (by omega)] at hheld
  have hrun := h.setReader (q := d.inptr + (syncBytes d (b0.headD 0#8) - d.remlen)) (m := m) (by omega)
    hlen9 hmem (bytesHeld_mono hheld (by omega) (by omega))
  obtain ⟨s, hread, hs, hl⟩ := memRead_of_bytesHeld (size := REM_CAP) (by simpa using hten) hheld
  have hhead := readBytes?_headD_eq hs ((hsame 1 hlen).trans hb0) (by omega) (by omega)
  rw [readRem, hread, Flow.access_ok]
  refine (runUnit_meets hrun (by rw [hl, hhead]; rfl) hm).bind (fun e o' hran => ?_)
    (fun e o' he => by rw [he.1, he.2.1]; exact hrun)
  obtain ⟨hcommon, -, -⟩ := hran.reader
  obtain ⟨-, -, -, hmem', -⟩ := hran.running.range
  have hrun' := hran.running.setReader (n := 0) hran.running.common.1 (by omega) hmem' rfl
  refine hk _ _ hrun' (passesLeft_lt_of_unit hran (by omega) (by rfl) ?_ o)
  simp only [Common.inleft, hcommon]
  omega

/-- The rest of the chunk moves behind the Remainder, where it has room (R100 step 5, R102). -/
theorem appendRem_rest_meets {a : α} (h : DecRunning p d o) (hl : d.remlen + d.inleft ≤ 9) :
    (appendRem p d d.inleft fun e => .back { e with remlen := d.remlen + d.inleft } a).Meets
      (fun e b => b = a ∧ DecRunning p e o ∧ e.inptr = e.inlen) (DecRunning p) := by
  have hcur := h.common.1
  have hend : d.inptr + d.inleft = d.inlen := by unfold Common.inleft; omega
  refine h.appendRem_meets (by omega) (by simp only [REM_CAP]; omega) fun m hmem hheld _ => ?_
  exact ⟨rfl, h.setReader (by omega) hl hmem hheld, hend⟩

/-- A unit read from the chunk runs, and the cursor moves behind its bytes (R101). -/
theorem unit_advance_meets (h : DecRunning p d o) {x : DecFlow Nat} {n : Nat}
    (hx : x.Meets (UnitRan p d n) (fun e o' => e = d ∧ o' = o ∧ d.cap < o + 8)) (hn : 1 ≤ n) (hl : n ≤ d.inleft)
    (hk : ∀ e o', DecRunning p e o' → passesLeft e o' < passesLeft d o → (k e o').Meets B (DecRunning p)) :
    (x.bind fun d o => k { d with inptr := d.inptr + n } o).Meets B (DecRunning p) := by
  have hcur := h.common.1
  unfold Common.inleft at hl
  refine hx.bind (fun e o' hran => ?_) (fun e o' he => by rw [he.1, he.2.1]; exact h)
  obtain ⟨hcommon, -, hrl⟩ := hran.reader
  obtain ⟨-, -, hlen9, hmem, hheld⟩ := hran.running.range
  have hrun := hran.running.setReader (q := e.inptr + n) (by rw [hcommon]; omega) hlen9 hmem hheld
  refine hk _ _ hrun (passesLeft_lt_of_unit hran hn (by rfl) ?_ o)
  simp only [Common.inleft, hcommon]
  omega

/-- A zero run makes one pass (R91). -/
theorem zeroUnit_pass_meets (h : DecRunning p d o) (hm : d.main = .zeroRange)
    (hk : ∀ e o', DecRunning p e o' → passesLeft e o' < passesLeft d o → (k e o').Meets B (DecRunning p)) :
    ((zeroUnit d o).bind k).Meets B (DecRunning p) := by
  refine (zeroUnit_meets h hm).bind (fun e o' he => ?_) (fun e o' he => by rw [he.1, he.2]; exact h)
  obtain ⟨hrun, hreader, hc, hend⟩ := he
  exact hk e o' hrun (passesLeft_lt_of_zeroUnit hm hreader hc hend)

end

/-! ### The loops -/

section
variable {p : Params}

/-- Phase 1 ends with a run in order; where phases 2 and 3 do not follow, the chunk is consumed (R100). -/
theorem syncPhase_meets (fuel : Nat) (d : Decoder) (o : Nat) (h : DecRunning p d o) (hf : passesLeft d o < fuel) :
    (syncPhase p fuel d o).Meets (fun e r => DecRunning p e r.1 ∧ (r.2 = false → e.inptr = e.inlen))
      (DecRunning p) := by
  induction fuel generalizing d o with
  | zero => omega
  | succ fuel ih =>
    have hk : ∀ e o', DecRunning p e o' → passesLeft e o' < passesLeft d o → (syncPhase p fuel e o').Meets
        (fun e r => DecRunning p e r.1 ∧ (r.2 = false → e.inptr = e.inlen)) (DecRunning p) :=
      fun e o' hrun hlt => ih e o' hrun (by omega)
    rw [syncPhase]
    split
    · exact ⟨h, by simp⟩
    next hlen =>
    split
    next hm => exact zeroUnit_pass_meets h hm hk
    next hm =>
    obtain ⟨b0, hb0, hread0, -⟩ := h.readRem_ok (a := 0) (n := 1) (by omega)
    rw [hb0, Flow.access_ok]
    have hpos := one_le_syncBytes hm (b0.headD 0#8)
    have hten := syncBytes_le_ten d (b0.headD 0#8)
    simp only
    split
    next hneed =>
      obtain ⟨s, hs, hreads, hsl⟩ := h.readRem_ok (a := 0) (n := syncBytes d (b0.headD 0#8)) (by omega)
      have hhead := readBytes?_headD_eq hreads hread0 (by omega) (by omega)
      rw [hs, Flow.access_ok, ← hsl]
      exact runUnit_dropRem_meets h hm (by rw [hsl, hhead]) (by omega) hk
    next hneed =>
    split
    next hall =>
      split
      · exact h
      · exact appendRem_runUnit_meets h hm (by omega) hread0 (by omega) hall hk
    next hall =>
      refine (appendRem_rest_meets h (by omega)).mono (fun e r he => ?_) (fun _ _ he => he)
      obtain ⟨hr, hrun, hend⟩ := he
      exact ⟨by rw [hr]; exact hrun, fun _ => hend⟩

/-- Phase 2 gives back at most 9 bytes of the chunk (R101). -/
theorem mainPhase_meets (fuel : Nat) (d : Decoder) (o : Nat) (h : DecRunning p d o) (hf : passesLeft d o < fuel) :
    (mainPhase p fuel d o).Meets (fun e o' => DecRunning p e o' ∧ e.inleft ≤ 9) (DecRunning p) := by
  induction fuel generalizing d o with
  | zero => omega
  | succ fuel ih =>
    have hk : ∀ e o', DecRunning p e o' → passesLeft e o' < passesLeft d o → (mainPhase p fuel e o').Meets
        (fun e o' => DecRunning p e o' ∧ e.inleft ≤ 9) (DecRunning p) :=
      fun e o' hrun hlt => ih e o' hrun (by omega)
    rw [mainPhase]
    have hleft : d.inptr + d.inleft = d.inlen := by have := h.common.1; unfold Common.inleft; omega
    cases hm : d.main with
    | zeroRange => exact zeroUnit_pass_meets h hm hk
    | verbatimRange =>
      simp only
      split
      next hshort => exact ⟨h, by omega⟩
      next hlong =>
        obtain ⟨s, hs, -, hsl⟩ := readChunk_of_legal h.common (a := d.inptr) (n := 8) (by omega)
        rw [hs, Flow.access_ok, ← hsl]
        exact unit_advance_meets h (verbUnit_meets h hsl hm) (by omega) (by omega) hk
    | start =>
      simp only
      split
      next hshort => exact ⟨h, by simp only [FAST_MARGIN] at hshort; omega⟩
      next hlong =>
        simp only [FAST_MARGIN, Nat.not_lt] at hlong
        obtain ⟨b0, hb0, hread0, -⟩ := readChunk_of_legal h.common (a := d.inptr) (n := 1) (by omega)
        rw [hb0, Flow.access_ok]
        have hpos := one_le_head (b0.headD 0#8)
        have hten : head (b0.headD 0#8) ≤ 10 := head_le_ten _
        obtain ⟨s, hs, hreads, hsl⟩ :=
          readChunk_of_legal h.common (a := d.inptr) (n := head (b0.headD 0#8)) (by omega)
        have hhead := readBytes?_headD_eq hreads hread0 (by omega) (by omega)
        rw [hs, Flow.access_ok, ← hsl]
        exact unit_advance_meets h (startUnit_meets h (by rw [hsl, hhead])) (by omega) (by omega) hk

/-- Phase 3 consumes the chunk (R102). -/
theorem internPhase_meets {d : Decoder} {o : Nat} (h : DecRunning p d o) (hl : d.inleft ≤ 9) :
    (internPhase p d o).Meets (fun e o' => DecRunning p e o' ∧ e.inptr = e.inlen) (DecRunning p) := by
  obtain ⟨-, -, -, hmem, -⟩ := h.range
  have hempty := h.setReader (n := 0) h.common.1 (by omega) hmem rfl
  have hrest := appendRem_rest_meets (a := o) hempty (by simpa using hl)
  simp only [Nat.zero_add] at hrest
  refine hrest.mono (fun e o' he => ?_) (fun _ _ he => he)
  obtain ⟨ho, hrun, hend⟩ := he
  exact ⟨ho ▸ hrun, hend⟩

/-- The bytes of the next unit, from the Remainder and from the chunk, and its first byte (R103). -/
theorem drain_reads {d : Decoder} {o : Nat} (h : DecRunning p d o) {b0 : List Byte} {n : Nat}
    (hb0 : (if 0 < d.remlen then readRem d 0 1 else readChunk p d.toCommon d.inptr 1) = .ok b0)
    (hn : 1 ≤ n) (hall : n ≤ d.remlen + d.inleft) :
    ∃ front back, readRem d 0 (min n d.remlen) = .ok front ∧
      readChunk p d.toCommon d.inptr (n - min n d.remlen) = .ok back ∧
      (front ++ back).length = n ∧ (front ++ back).headD 0#8 = b0.headD 0#8 := by
  have hcur := h.common.1
  unfold Common.inleft at hall
  obtain ⟨front, hfront, hreadf, hfl⟩ := h.readRem_ok (a := 0) (n := min n d.remlen) (by omega)
  obtain ⟨back, hback, hreadb, hbl⟩ :=
    readChunk_of_legal h.common (a := d.inptr) (n := n - min n d.remlen) (by omega)
  refine ⟨front, back, hfront, hback, by rw [List.length_append]; omega, ?_⟩
  split at hb0
  next hpos =>
    obtain ⟨-, hread0⟩ := (memRead_eq_ok_iff _ _ _ _ _).mp hb0
    rw [← readBytes?_headD_eq hreadf hread0 (by omega) (by omega)]
    cases front with
    | nil => simp only [List.length_nil] at hfl; omega
    | cons b bs => rfl
  next hzero =>
    obtain ⟨-, hread0⟩ := (memRead_eq_ok_iff _ _ _ _ _).mp hb0
    rw [List.eq_nil_of_length_eq_zero (l := front) (by omega), List.nil_append]
    exact readBytes?_headD_eq hreadb hread0 (by omega) (by omega)

/-- The first byte of what is left can be read (R103). -/
theorem drain_first_byte {d : Decoder} {o : Nat} (h : DecRunning p d o) (hl : d.remlen + d.inleft ≠ 0) :
    ∃ b0, (if 0 < d.remlen then readRem d 0 1 else readChunk p d.toCommon d.inptr 1) = .ok b0 := by
  unfold Common.inleft at hl
  split
  · obtain ⟨b0, hb0, -⟩ := h.readRem_ok (a := 0) (n := 1) (by omega)
    exact ⟨b0, hb0⟩
  · obtain ⟨b0, hb0, -⟩ := readChunk_of_legal h.common (a := d.inptr) (n := 1) (by omega)
    exact ⟨b0, hb0⟩

/-- The drain ends with a run in order (R103). -/
theorem drain_meets (fuel : Nat) (d : Decoder) (o : Nat) (h : DecRunning p d o) (hf : passesLeft d o < fuel) :
    (drain p fuel d o).Meets (DecRunning p) (DecRunning p) := by
  induction fuel generalizing d o with
  | zero => omega
  | succ fuel ih =>
    rw [drain]
    split
    next hm => exact zeroUnit_pass_meets h hm fun e o' hrun hlt => ih e o' hrun (by omega)
    next hm =>
    split
    · exact h
    next hleft =>
    obtain ⟨b0, hb0⟩ := drain_first_byte h hleft
    rw [hb0, Flow.access_ok]
    have hpos := one_le_syncBytes hm (b0.headD 0#8)
    simp only
    split
    · exact h
    split
    · exact h
    next hall hspace =>
    obtain ⟨front, back, hfront, hback, hl, hhead⟩ := drain_reads h hb0 hpos (by omega)
    have hcur := h.common.1
    unfold Common.inleft at hall
    rw [hfront, Flow.access_ok, hback, Flow.access_ok]
    refine h.dropRem_meets (by omega) fun m hdropped => ?_
    obtain ⟨-, -, hlen9, hmem, hheld⟩ := hdropped.range
    have hrun := hdropped.setReader
      (q := d.inptr + (syncBytes d (b0.headD 0#8) - min (syncBytes d (b0.headD 0#8)) d.remlen))
      (by simp only; omega) hlen9 hmem hheld
    refine (runUnit_meets hrun (by rw [hl, hhead]; rfl) hm).bind (fun e o' hran => ?_)
      (fun e o' he => by rw [he.1, he.2.1]; exact hrun)
    obtain ⟨hcommon, -, hrl⟩ := hran.reader
    have hlt := passesLeft_lt_of_unit (d := d) hran (by omega) rfl
      (by simp only [Common.inleft, hcommon, hrl]; omega) o
    exact ih e o' hran.running (by omega)

/-- `DecRun(U, false)` ends with a run in order, and consumes the chunk unless the output is full (R99). -/
theorem decRun_next_meets {d : Decoder} {o : Nat} (h : DecRunning p d o) :
    (decRun p d o false).Meets (fun e o' => DecRunning p e o' ∧ e.inptr = e.inlen) (DecRunning p) := by
  rw [decRun, if_neg Bool.false_ne_true]
  refine (syncPhase_meets _ d o h (passesLeft_lt_decodeFuel d o)).bind (fun e r he => ?_) (fun _ _ he => he)
  obtain ⟨hrun, hend⟩ := he
  split
  next hgo =>
    refine (mainPhase_meets _ e r.1 hrun (passesLeft_lt_decodeFuel e r.1)).bind (fun e' o' he' => ?_) (fun _ _ he => he)
    exact internPhase_meets he'.1 he'.2
  next hstop => exact ⟨hrun, hend (by simpa using hstop)⟩

/-- `DecRun(U, true)` ends with a run in order (R99, R103). -/
theorem decRun_flush_meets {d : Decoder} {o : Nat} (h : DecRunning p d o) :
    (decRun p d o true).Meets (DecRunning p) (DecRunning p) := by
  rw [decRun, if_pos rfl]
  exact drain_meets _ d o h (passesLeft_lt_decodeFuel d o)

end

end Sys2Proof.Machine

/-!
PROOFS for the scope family, part 3: the run of the encode machine from a legal unit (R116 to R123).
-/

namespace Sys2Proof.Machine

open Sys2Proof.Config

/-! ### The length of a packed word -/

/-- The tag of a word whose non-zero bytes are given by flags. -/
def tagOfFlags (flags : List Bool) : Byte :=
  ((List.range 8).map fun i => if flags.getD i false = true then 1#8 <<< i else 0#8).sum

theorem tag_eq_tagOfFlags (w : List Byte) : tag w = tagOfFlags (w.map fun b => decide (b ≠ 0#8)) := by
  have hflag : ∀ i, (w.map fun b => decide (b ≠ 0#8)).getD i false = true ↔ w.getD i 0#8 ≠ 0#8 := by
    intro i
    rw [List.getD_eq_getElem?_getD, List.getD_eq_getElem?_getD, List.getElem?_map]
    cases w[i]? <;> simp
  simp only [tag, tagOfFlags, hflag]

theorem tagBits_tagOfFlags : ∀ b0 b1 b2 b3 b4 b5 b6 b7 : Bool,
    tagBits (tagOfFlags [b0, b1, b2, b3, b4, b5, b6, b7]) = [b0, b1, b2, b3, b4, b5, b6, b7] := by
  decide

/-- The bits of a word's tag mark its non-zero bytes (R78). -/
theorem tagBits_tag {w : List Byte} (hw : w.length = 8) : tagBits (tag w) = w.map fun b => decide (b ≠ 0#8) := by
  rw [tag_eq_tagOfFlags]
  match w, hw with
  | [_, _, _, _, _, _, _, _], _ => exact tagBits_tagOfFlags _ _ _ _ _ _ _ _

/-- A packed word is its tag and as many bytes as the tag's population count (R82). -/
theorem packWord_length {w : List Byte} (hw : w.length = 8) : (packWord w).length = 1 + popcount (tag w) := by
  rw [popcount_eq_count, tagBits_tag hw, packWord, List.length_cons, Nat.add_comm, List.count_eq_countP,
    List.countP_map, List.countP_eq_length_filter]
  congr 3
  funext b
  simp

/-- A head has its packed word, and for a range its count byte (R81). -/
theorem packWord_length_add_count {w : List Byte} (hw : w.length = 8) :
    (packWord w).length + (if tagClass (tag w) = .lit then 0 else 1) = head (tag w) := by
  rw [packWord_length hw, head]
  by_cases hlit : tagClass (tag w) = .lit
  · have hne := (tagClass_eq_lit_iff _).mp hlit
    rw [if_pos hlit, if_neg (by simpa using hne)]
  · rw [if_neg hlit, if_pos]
    by_contra hne
    exact hlit ((tagClass_eq_lit_iff _).mpr (by simpa using hne))

/-! ### The state of an encode run -/

/-- What holds of ENC's common fields and of its output memory at every point of a run, whatever part of the machine is
at work. -/
structure EncBase (p : Params) (c : Common) (out : Mem) : Prop where
  common : c.Legal p
  ready : c.Ready
  cap : encCapLegal p c.cap
  words : c.inlen % 8 = 0
  within : memWithin out c.cap

/-- What holds of ENC at every point of the main machine that has produced the bytes `OUT[0..o)`. A pending zero range has
space for its count byte, since the head that started it did (R120). -/
structure EncRunning (p : Params) (u : Enc) (o : Nat) : Prop where
  base : EncBase p u.toCommon u.out
  main : u.MainLegal
  cont : u.cont = .none
  cend : u.cend = 0
  fits : o ≤ u.cap
  held : bytesHeld u.out 0 o
  space : u.main = .zeroRangeWriting → o < u.cap

/-- What holds of ENC in the scan of a continuation whose range ends at `OUT[e]` so far (R119). -/
structure EncContinuing (p : Params) (u : Enc) (e : Nat) : Prop where
  base : EncBase p u.toCommon u.out
  main : u.main = .start
  mcnt : u.mcnt = 0
  cont : u.cont = .continuing
  cursor : u.inptr % 8 = 0
  words : e % 8 = 1
  bound : e ≤ 2041
  held : bytesHeld u.out 1 (e - 1)

/-- What holds of ENC in the scan of a zero range with the count `n` so far, which may be the longest one (R122). -/
structure EncZeroScan (p : Params) (u : Enc) (o n : Nat) : Prop where
  running : EncRunning p { u with main := .start, mcnt := 0 } o
  main : u.main = .zeroRangeWriting
  mcnt : u.mcnt = n
  words : n % 8 = 0
  bound : n ≤ MAX_EXTRA
  space : o < u.cap

/-- A command of ENC ends in a legal unit. -/
abbrev endsLegal (p : Params) (u : Enc) (_ : Response) : Prop := u.Legal p

theorem Enc.mainLegal_start {u : Enc} (hm : u.main = .start) (hn : u.mcnt = 0) (hi : u.inptr % 8 = 0) : u.MainLegal :=
  ⟨fun _ => ⟨hn, hi⟩, fun h => by simp [hm] at h, fun h => by simp [hm] at h⟩

theorem Enc.mainLegal_zero {u : Enc} (hm : u.main = .zeroRangeWriting) (hw : u.mcnt % 8 = 0) (hn : u.mcnt ≤ 2032)
    (hi : u.inptr % 8 = 0) : u.MainLegal :=
  ⟨fun h => by simp [hm] at h, fun _ => ⟨hw, hn, hi⟩, fun h => by simp [hm] at h⟩

theorem Enc.mainLegal_verbatim {u : Enc} (hm : u.main = .verbatimRangeWriting) (h1 : 1 ≤ u.mcnt)
    (hn : u.mcnt ≤ MAX_EXTRA) (hl : u.mcnt ≤ u.inlen - u.inptr) (hi : (u.inptr + u.mcnt) % 8 = 0) : u.MainLegal :=
  ⟨fun h => by simp [hm] at h, fun h => by simp [hm] at h, fun _ => ⟨h1, hn, hl, hi⟩⟩

namespace EncBase

variable {p : Params} {c : Common} {m : Mem}

theorem legal {u : Enc} (h : EncBase p u.toCommon u.out) (hm : u.MainLegal) (hc : u.ContLegal) : u.Legal p := by
  obtain ⟨hcommon, ⟨hcfg, hfailed⟩, hcap, hwords, hout⟩ := h
  exact ⟨hcommon, fun hn => by simp [hcfg] at hn, fun _ => hcap, hwords, hout, hm, hc, fun hf => by simp [hfailed] at hf⟩

/-- Writing inside the output buffer. -/
theorem put (h : EncBase p c m) {a : Nat} {bs : List Byte} (hc : a + bs.length ≤ c.cap) :
    EncBase p c (writeBytes m a bs) :=
  ⟨h.common, h.ready, h.cap, h.words, memWithin_writeBytes h.within hc⟩

/-- Moving the cursor within the chunk. -/
theorem moved (h : EncBase p c m) {q : Nat} (hq : q ≤ c.inlen) : EncBase p { c with inptr := q } m :=
  ⟨h.common.advanced hq, h.ready, h.cap, h.words, h.within⟩

end EncBase

namespace EncRunning

variable {p : Params} {u : Enc} {o : Nat}

theorem legal (h : EncRunning p u o) : u.Legal p :=
  h.base.legal h.main
    ⟨fun hc => absurd h.cont hc, fun _ => h.cend, fun hc => by simp [h.cont] at hc⟩

/-- Writing behind the output. -/
theorem put (h : EncRunning p u o) {bs : List Byte} (hc : o + bs.length ≤ u.cap) (hm : u.main ≠ .zeroRangeWriting) :
    EncRunning p { u with out := writeBytes u.out o bs } (o + bs.length) := by
  have hheld := bytesHeld_writeBytes_append (bs := bs) h.held
  rw [Nat.zero_add] at hheld
  exact ⟨h.base.put hc, h.main, h.cont, h.cend, hc, hheld, fun hz => absurd hz hm⟩

/-- Moving the cursor, and taking another legal state of the main machine. -/
theorem moved (h : EncRunning p u o) {q n : Nat} {m : EncMain} (hq : q ≤ u.inlen)
    (hm : Enc.MainLegal { u with inptr := q, main := m, mcnt := n }) (hz : m = .zeroRangeWriting → o < u.cap) :
    EncRunning p { u with inptr := q, main := m, mcnt := n } o :=
  ⟨h.base.moved hq, hm, h.cont, h.cend, h.fits, h.held, hz⟩

end EncRunning

section
variable {p : Params} {u : Enc} {o : Nat} {final : Bool}

/-- A legal unit whose output is held ends the command (R116). -/
theorem emitE_meets {α : Type} {B : Enc → α → Prop} (hl : u.Legal p) (hc : o ≤ u.cap) (hheld : bytesHeld u.out 0 o) :
    (emitE u o final).Meets B (endsLegal p) := by
  obtain ⟨bs, -, hbs, -⟩ := memRead_of_bytesHeld (by omega : 0 + o ≤ u.cap) hheld
  by_cases ho : 0 < o
  · rw [emitE_output final ho hc hbs]; exact hl
  · rw [Nat.eq_zero_of_not_pos ho, emitE_nothing]; exact hl

/-- The main machine can end the command at every point (R117). -/
theorem EncRunning.emit {α : Type} {B : Enc → α → Prop} (h : EncRunning p u o) :
    (emitE u o final).Meets B (endsLegal p) :=
  emitE_meets h.legal h.fits h.held

/-- A word of the chunk can be read at a word boundary before its end. -/
theorem EncBase.read_word {m : Mem} (h : EncBase p u.toCommon m) (hi : u.inptr % 8 = 0) (hne : u.inptr ≠ u.inlen) :
    u.inptr + 8 ≤ u.inlen ∧ ∃ w, readChunk p u.toCommon u.inptr 8 = .ok w ∧ w.length = 8 := by
  have hw := h.words
  have hcur := h.common.1
  have hlt : u.inptr + 8 ≤ u.inlen := by omega
  obtain ⟨w, hread, -, hl⟩ := readChunk_of_legal h.common hlt
  exact ⟨hlt, w, hread, hl⟩

end

/-! ### The continuation -/

section
variable {p : Params} {final : Bool}

/-- The scan of a continuation finds the range's end, or ends the command (R119). -/
theorem contLoop_meets (fuel : Nat) (u : Enc) (e : Nat) (h : EncContinuing p u e) (hf : (2041 - e) / 8 < fuel) :
    (contLoop p final fuel u e).Meets (EncContinuing p) (endsLegal p) := by
  induction fuel generalizing u e with
  | zero => omega
  | succ fuel ih =>
    have hwords := h.words
    have hbound := h.bound
    have hcap : 2048 ≤ u.cap := h.base.cap.1
    by_cases hfull : e - 1 = MAX_EXTRA
    · rw [contLoop_full p final fuel u e hfull]; exact h
    simp only [MAX_EXTRA] at hfull
    by_cases hi : u.inptr = u.inlen
    · rw [contLoop_drained p final fuel u e (by simpa using hfull) hi]
      cases final with
      | true => exact h
      | false =>
        refine EncBase.legal h.base
          (Enc.mainLegal_start h.main h.mcnt h.cursor) ⟨fun _ => h.main, fun hc => absurd h.cont hc, fun _ => ?_⟩
        exact ⟨hwords, by simp only; omega, h.held⟩
    · obtain ⟨hlt, w, hread, hl⟩ := h.base.read_word h.cursor hi
      rw [contLoop_word (by simpa using hfull) hi hread (by omega)]
      split
      · have hheld := bytesHeld_writeBytes_append (bs := w) h.held
        have he : 1 + (e - 1) = e := by omega
        have he' : e - 1 + w.length = e + 8 - 1 := by omega
        rw [he, he'] at hheld
        have hbase := (h.base.put (a := e) (bs := w) (by omega)).moved (q := u.inptr + 8) hlt
        have hcursor := h.cursor
        exact ih _ _ ⟨hbase, h.main, h.mcnt, h.cont, by simp only; omega,
          by omega, by omega, hheld⟩ (by omega)
      · exact h

/-- A continuation that has ended has written its count byte and its words (R119). -/
theorem contScan_meets {u : Enc} (h : EncContinuing p u u.cend) :
    (contScan p u final).Meets (EncRunning p) (endsLegal p) := by
  refine (contLoop_meets scanFuel u u.cend h (by simp only [scanFuel, MAX_COUNT]; omega)).bind
    (fun v e hv => ?_) (fun _ _ he => he)
  have hwords := hv.words
  have hbound := hv.bound
  have hcap : 2048 ≤ v.cap := hv.base.cap.1
  have hone : 0 + [BitVec.ofNat 8 ((e - 1) / 8)].length ≤ v.cap := by simp only [List.length_singleton]; omega
  rw [putOut_of_le _ hone]
  refine ⟨hv.base.put hone,
    Enc.mainLegal_start hv.main hv.mcnt hv.cursor, rfl, rfl, by simp only; omega, ?_, fun hz => ?_⟩
  · refine (bytesHeld_iff _ _ _).mpr fun i hi => ?_
    rw [Nat.zero_add, readByte?_writeBytes]
    split
    next hfirst => simp only [List.length_singleton] at hfirst; simp [show i = 0 by omega]
    next hrest =>
      simp only [List.length_singleton] at hrest
      have hbyte := (bytesHeld_iff _ _ _).mp hv.held (i - 1) (by omega)
      rwa [Nat.add_sub_cancel' (by omega)] at hbyte
  · have hmain : v.main = .zeroRangeWriting := hz
    rw [hv.main] at hmain; cases hmain

/-- The continuation part of a run leads from a legal ready unit to the main machine, or ends the command (R117). -/
theorem contPhase_meets {u : Enc} (hl : u.Legal p) (hready : u.Ready) :
    (contPhase p u final).Meets (EncRunning p) (endsLegal p) := by
  obtain ⟨hcommon, -, hcap, hwords, hout, hmain, ⟨hstart, hcend, hcont⟩, -⟩ := hl
  have hbase : EncBase p u.toCommon u.out := ⟨hcommon, hready, hcap hready.1, hwords, hout⟩
  have hcursor : u.cont ≠ .none → u.main = .start ∧ u.mcnt = 0 ∧ u.inptr % 8 = 0 := fun hc =>
    ⟨hstart hc, hmain.1 (hstart hc)⟩
  cases hc : u.cont with
  | none =>
    rw [contPhase_none p u final hc]
    refine ⟨hbase, hmain, hc, hcend (by simp [hc]), Nat.zero_le _, rfl, fun _ => ?_⟩
    have : 2048 ≤ u.cap := hbase.cap.1
    omega
  | initializing =>
    obtain ⟨hm, hn, hi⟩ := hcursor (by simp [hc])
    rw [contPhase, hc]
    exact contScan_meets ⟨hbase, hm, hn, rfl, hi, rfl,
      by rw [contEnter_cend]; omega, rfl⟩
  | continuing =>
    obtain ⟨hm, hn, hi⟩ := hcursor (by simp [hc])
    obtain ⟨he, hle, hheld⟩ := hcont hc
    rw [contPhase, hc]
    exact contScan_meets ⟨hbase, hm, hn, hc, hi, he, by omega, hheld⟩

end

/-! ### The main machine -/

/-- A bound on the passes the main machine has still to make before its last one: one for each byte of the chunk, and one
more for a pending zero range. -/
def encPassesLeft (u : Enc) : Nat := u.inleft + if u.main = .zeroRangeWriting then 1 else 0

theorem encPassesLeft_lt_encodeFuel (u : Enc) : encPassesLeft u < encodeFuel u := by
  unfold encPassesLeft encodeFuel; split <;> omega

/-- The peek of a verbatim range stops at a word boundary within the chunk, after at most 255 words (R121). -/
theorem peekVerb_ok {p : Params} {c : Common} (hc : c.Legal p) (hwords : c.inlen % 8 = 0) {a : Nat} (ha : a % 8 = 0)
    (fuel j : Nat) (hj : j % 8 = 0) (hle : j ≤ MAX_EXTRA) (hq : a + j ≤ c.inlen) (hf : (MAX_EXTRA - j) / 8 < fuel) :
    ∃ k, peekVerb p c fuel j (a + j) = .ok (k, a + k) ∧ k % 8 = 0 ∧ k ≤ MAX_EXTRA ∧ a + k ≤ c.inlen := by
  simp only [MAX_EXTRA] at hle hf ⊢
  induction fuel generalizing j with
  | zero => omega
  | succ fuel ih =>
    rw [peekVerb]
    split
    next hmore =>
      simp only [MAX_EXTRA] at hmore
      obtain ⟨w, hw, -⟩ := readChunk_of_legal hc (by omega : a + j + 8 ≤ c.inlen)
      rw [hw]
      simp only
      split
      · exact ih (j + 8) (by omega) (by omega) (by omega) (by omega)
      · exact ⟨j, rfl, hj, hle, hq⟩
    next hend => exact ⟨j, rfl, hj, hle, hq⟩

section
variable {p : Params} {u : Enc} {o : Nat} {final : Bool}

/-- `StartVerb` opens the range, or leaves it to the next command (R121). -/
theorem startVerb_meets (h : EncRunning p u o) (hm : u.main = .start) (hc : o + 1 ≤ u.cap) :
    (startVerb p u o final).Meets
      (fun v o' => EncRunning p v o' ∧ v.inleft = u.inleft ∧ v.main ≠ .zeroRangeWriting) (endsLegal p) := by
  obtain ⟨hn, hi⟩ := h.main.1 hm
  obtain ⟨j, hpeek, hj, hmax, hin⟩ := peekVerb_ok h.base.common h.base.words hi scanFuel 0 rfl (Nat.zero_le _)
    h.base.common.1 (by decide)
  by_cases hend : j = MAX_EXTRA ∨ u.inptr + j < u.inlen ∨ final = true
  · rw [startVerb_closed hpeek hend hc]
    have hput := h.put (bs := [BitVec.ofNat 8 (j / 8)]) (by simpa using hc) (by simp [hm])
    split
    next hpos =>
      have hextra : j ≤ u.inlen - u.inptr := by omega
      have hboundary : (u.inptr + j) % 8 = 0 := by omega
      exact ⟨hput.moved h.base.common.1 (Enc.mainLegal_verbatim rfl hpos hmax hextra hboundary) (by simp), rfl, by simp⟩
    next hzero => exact ⟨hput, rfl, by simp [hm]⟩
  · obtain ⟨hne, hge, hfinal⟩ := not_or.mp hend |>.imp_right not_or.mp
    rw [Bool.eq_false_of_not_eq_true hfinal, startVerb_open hpeek hne (by omega)]
    exact emitE_meets (EncBase.legal h.base h.main ⟨fun _ => hm, fun _ => h.cend, by simp⟩) h.fits h.held

/-- `StartWord` consumes a word, or ends the command (R120). -/
theorem startWord_meets (h : EncRunning p u o) (hm : u.main = .start) :
    (startWord p u o final).Meets (fun v o' => EncRunning p v o' ∧ encPassesLeft v < encPassesLeft u)
      (endsLegal p) := by
  obtain ⟨hn, hi⟩ := h.main.1 hm
  by_cases hne : u.inptr = u.inlen
  · rw [startWord_drained p u o final hne]; exact h.emit
  obtain ⟨hlt, w, hread, hl⟩ := h.base.read_word hi hne
  rw [startWord_word hne hread]
  split
  · exact h.emit
  next hspace =>
  have hlen := packWord_length_add_count hl
  have hfit : o + (packWord w).length ≤ u.cap := by omega
  have hmoved := (h.moved (q := u.inptr + 8) hlt
    (Enc.mainLegal_start hm hn (by simp only; omega)) (by simp [hm])).put hfit (by simp [hm])
  have hleft : encPassesLeft u = u.inleft := by rw [encPassesLeft, if_neg (by simp [hm])]; rfl
  have hread8 : u.inlen - (u.inptr + 8) + 8 = u.inleft := by unfold Common.inleft; omega
  rw [putOut_of_le _ hfit]
  cases hclass : tagClass (tag w) with
  | zero =>
    rw [hclass, if_neg (by simp)] at hlen
    refine ⟨hmoved.moved hlt (Enc.mainLegal_zero rfl rfl (by simp only; omega) (by simp only; omega)) (fun _ => ?_), ?_⟩
    · simp only; omega
    · rw [hleft, encPassesLeft, if_pos rfl]; simp only [Common.inleft] at hread8 ⊢; omega
  | verb =>
    rw [hclass, if_neg (by simp)] at hlen
    refine (startVerb_meets hmoved hm (by simp only; omega)).mono (fun v o' hv => ?_) (fun _ _ he => he)
    obtain ⟨hrun, heq, hz⟩ := hv
    refine ⟨hrun, ?_⟩
    rw [hleft, encPassesLeft, if_neg hz, heq]
    simp only [Common.inleft] at hread8 ⊢
    omega
  | lit =>
    refine ⟨hmoved, ?_⟩
    rw [hleft, encPassesLeft, if_neg (by simp [hm])]
    simp only [Common.inleft] at hread8 ⊢
    omega

/-- A zero range that is not the longest one is a legal state of the main machine. -/
theorem EncZeroScan.toRunning {n : Nat} (h : EncZeroScan p u o n) (hn : n ≠ MAX_EXTRA) : EncRunning p u o := by
  obtain ⟨⟨hbase, hmain, hcont, hcend, hfits, hheld, -⟩, hm, hmcnt, hwords, hbound, hspace⟩ := h
  obtain ⟨-, hi⟩ := hmain.1 rfl
  simp only [MAX_EXTRA] at hn hbound
  exact ⟨hbase,
    Enc.mainLegal_zero hm (by omega) (by omega) hi, hcont, hcend, hfits, hheld, fun _ => hspace⟩

/-- The scan of a zero range finds its end, or ends the command (R122). -/
theorem zLoop_meets (fuel : Nat) (u : Enc) (n : Nat) (h : EncZeroScan p u o n) (hf : (MAX_EXTRA - n) / 8 < fuel) :
    (zLoop p o final fuel u n).Meets (fun v k => EncZeroScan p v o k ∧ v.inleft ≤ u.inleft) (endsLegal p) := by
  induction fuel generalizing u n with
  | zero => omega
  | succ fuel ih =>
    rw [zLoop]
    split
    · exact ⟨h, Nat.le_refl _⟩
    next hmax =>
    have hrun := h.toRunning hmax
    split
    · split
      · exact ⟨h, Nat.le_refl _⟩
      · exact hrun.emit
    next hne =>
    obtain ⟨-, -, hi⟩ := hrun.main.2.1 h.main
    obtain ⟨hlt, w, hread, -⟩ := hrun.base.read_word hi hne
    rw [hread, Flow.access_ok]
    split
    · exact ⟨h, Nat.le_refl _⟩
    · have hbound := h.bound
      have hwords := h.words
      simp only [MAX_EXTRA] at hmax hbound hf
      have hmoved := h.running.moved (q := u.inptr + 8) hlt
        (Enc.mainLegal_start rfl rfl (by simp only; omega)) (by simp)
      have hscan : EncZeroScan p { u with inptr := u.inptr + 8, mcnt := n + 8 } o (n + 8) :=
        ⟨hmoved, h.main, rfl, by omega, by simp only [MAX_EXTRA]; omega, h.space⟩
      refine (ih _ _ hscan (by simp only [MAX_EXTRA]; omega)).mono (fun v k hv => ?_) (fun _ _ he => he)
      obtain ⟨hend, hle⟩ := hv
      refine ⟨hend, ?_⟩
      simp only [Common.inleft] at hle ⊢
      omega

/-- `ZScan` writes the count byte of its range and goes back to `Start`, or ends the command (R122). -/
theorem zScan_meets (h : EncRunning p u o) (hm : u.main = .zeroRangeWriting) :
    (zScan p u o final).Meets (fun v o' => EncRunning p v o' ∧ encPassesLeft v < encPassesLeft u) (endsLegal p) := by
  obtain ⟨hw, hn, hi⟩ := h.main.2.1 hm
  have hscan : EncZeroScan p u o u.mcnt :=
    ⟨h.moved h.base.common.1 (Enc.mainLegal_start rfl rfl hi) (by simp), hm, rfl, hw,
      by simp only [MAX_EXTRA]; omega, h.space hm⟩
  refine (zLoop_meets scanFuel u u.mcnt hscan (by simp only [MAX_EXTRA, scanFuel, MAX_COUNT]; omega)).bind
    (fun v n hv => ?_) (fun _ _ he => he)
  obtain ⟨hv, hle⟩ := hv
  have hspace := hv.space
  have hone : o + [BitVec.ofNat 8 (n / 8)].length ≤ v.cap := by simp only [List.length_singleton]; omega
  rw [if_neg (by omega), putOut_of_le _ hone]
  refine ⟨hv.running.put hone (by simp), ?_⟩
  rw [encPassesLeft, encPassesLeft, if_pos hm, if_neg (by simp)]
  simp only [Common.inleft] at hle ⊢
  omega

/-- `VWrite` copies some bytes of its range and goes back to `Start`, or ends the command (R123). -/
theorem vWrite_meets (h : EncRunning p u o) (hm : u.main = .verbatimRangeWriting) :
    (vWrite p u o final).Meets (fun v o' => EncRunning p v o' ∧ encPassesLeft v < encPassesLeft u) (endsLegal p) := by
  obtain ⟨hpos, hmax, hin, hwords⟩ := h.main.2.2 hm
  have hcur := h.base.common.1
  by_cases hk : min u.mcnt (u.cap - o) = 0
  · rw [vWrite_no_space p u o final hk]; exact h.emit
  obtain ⟨bs, hread, -, hl⟩ := readChunk_of_legal h.base.common
    (a := u.inptr) (n := min u.mcnt (u.cap - o)) (by omega)
  have hfit : o + bs.length ≤ u.cap := by omega
  rw [vWrite_some (by omega) hread, putOut_of_le _ hfit]
  simp only
  split
  next hsome =>
    have hmoved := (h.moved (q := u.inptr + min u.mcnt (u.cap - o)) (m := .verbatimRangeWriting)
      (n := u.mcnt - min u.mcnt (u.cap - o)) (by omega)
      (Enc.mainLegal_verbatim rfl (by simp only; omega) (by simp only; omega) (by simp only; omega)
        (by simp only; omega)) (by simp)).put hfit (by simp)
    rw [hl] at hmoved
    rw [hm]
    exact hmoved.emit
  next hnone =>
    have hmoved := (h.moved (q := u.inptr + min u.mcnt (u.cap - o)) (m := .start) (n := 0) (by omega)
      (Enc.mainLegal_start rfl rfl (by simp only; omega)) (by simp)).put hfit (by simp)
    rw [hl] at hmoved
    refine ⟨hmoved, ?_⟩
    rw [encPassesLeft, encPassesLeft, if_neg (by simp), if_neg (by simp [hm])]
    simp only [Common.inleft]
    omega

/-- One pass of the main machine leaves fewer passes, or ends the command (R117). -/
theorem encPass_meets (h : EncRunning p u o) :
    (encPass p u o final).Meets (fun v o' => EncRunning p v o' ∧ encPassesLeft v < encPassesLeft u) (endsLegal p) := by
  rw [encPass]
  cases hm : u.main with
  | start => exact startWord_meets h hm
  | zeroRangeWriting => exact zScan_meets h hm
  | verbatimRangeWriting => exact vWrite_meets h hm

end

/-- The main machine ends the command in a legal unit (R117). -/
theorem encLoop_meets {p : Params} {final : Bool} (fuel : Nat) (u : Enc) (o : Nat) (h : EncRunning p u o)
    (hf : encPassesLeft u < fuel) : (encLoop p final fuel u o).Meets (fun _ _ => False) (endsLegal p) := by
  induction fuel generalizing u o with
  | zero => omega
  | succ fuel ih =>
    rw [encLoop]
    refine (encPass_meets h).bind (fun v o' hv => ?_) (fun _ _ he => he)
    obtain ⟨hrun, hlt⟩ := hv
    exact ih v o' hrun (by omega)

/-- `EncRun` from a legal ready unit ends the command in a legal unit (R117). -/
theorem encRun_meets {p : Params} {u : Enc} {final : Bool} (hl : u.Legal p) (hready : u.Ready) :
    (encRun p u final).Meets (fun _ _ => False) (endsLegal p) :=
  (contPhase_meets hl hready).bind (fun v o hv => encLoop_meets _ v o hv (encPassesLeft_lt_encodeFuel v))
    (fun _ _ he => he)

end Sys2Proof.Machine

/-!
PROOFS for the scope family, part 4: every command of a legal unit completes (R12, R44).
-/

namespace Sys2Proof.Machine

open Sys2Proof.Config

section
variable {p : Params}

/-! ### A decoder at a command boundary -/

/-- A legal ready DEC starts a run with nothing produced (R110, R111). -/
theorem Decoder.Legal.running {d : Decoder} (h : d.Legal p) (hready : d.Ready) : DecRunning p d 0 :=
  ⟨h.1, hready, Nat.zero_le _, rfl, rfl⟩

/-- A legal ready DOS starts a run behind the output of the runs before it (R113, R114). -/
theorem Dos.Legal.running {u : Dos} (h : u.Legal p) (hready : u.Ready) : DecRunning p u.toDecoder u.w := by
  obtain ⟨hshared, -, -, hfits, haligned, hheld, -⟩ := h
  exact ⟨hshared, hready, hfits, haligned, hheld⟩

/-- Installing an acceptable chunk in a decoder keeps a run in order (R46). -/
theorem DecRunning.installed {d : Decoder} {o : Nat} (h : DecRunning p d o) {s : List Byte} (hs : s.length ≤ p.maxIn) :
    DecRunning p { d with input := writeBytes d.input 0 s, inlen := s.length, inptr := 0 } o := by
  obtain ⟨⟨hcommon, hshared⟩, hready, hfits, haligned, hheld⟩ := h
  exact ⟨⟨hcommon.installed hs, hshared⟩, hready, hfits, haligned, hheld⟩

/-- The output of a run can be read. -/
theorem DecRunning.read_output {d : Decoder} {o : Nat} (h : DecRunning p d o) :
    ∃ bs, memRead d.outm d.cap 0 o = .ok bs := by
  have hfits := h.fits
  obtain ⟨bs, hbs, -⟩ := memRead_of_bytesHeld (by omega : 0 + o ≤ d.cap) h.held
  exact ⟨bs, hbs⟩

theorem DecRunning.outputDec_completes {d : Decoder} {o : Nat} (h : DecRunning p d o) : (outputDec d o).Completes := by
  obtain ⟨bs, hbs⟩ := h.read_output
  exact ⟨d, .output bs, by rw [outputDec, hbs, CommandEnd.access_ok]⟩

theorem DecRunning.emitDec_completes {d : Decoder} {o : Nat} (h : DecRunning p d o) : (emitDec d o).Completes := by
  unfold emitDec
  split
  · exact h.outputDec_completes
  · exact ⟨d, .none, rfl⟩

/-! ### The commands -/

/-- A SET that only installs its chunk completes: the checks leave a chunk that fits `U.IN` (R46, R142). -/
theorem set_completes {σ : Type} (s : List Byte) (whole : Bool) (u : σ) (c : Common) (k : Common → σ) :
    (checked (precheckSet p whole s.length c) u
      (.access (installChunk p s c) fun c' => .respond (k c') .ok)).Completes :=
  checked_completes fun hpre => by
    obtain ⟨-, -, hs, -⟩ := (precheckSet_eq_none_iff p whole s.length c).mp hpre
    rw [installChunk_of_le _ hs]
    exact ⟨_, .ok, rfl⟩

theorem encSetCommand_completes (s : List Byte) (u : Enc) : (encSetCommand p s u).Completes :=
  set_completes s true u u.toCommon _

theorem decSetCommand_completes (s : List Byte) (d : Decoder) : (decSetCommand p s d).Completes :=
  set_completes s false d d.toCommon _

/-- ENC.NEXT and ENC.FLUSH of a legal unit complete (R126, R127). -/
theorem encRunCommand_completes {u : Enc} (h : u.Legal p) (final : Bool) : (encRunCommand p final u).Completes :=
  checked_completes fun hpre => by
    have hrun := encRun_meets (final := final) h ((precheck_eq_none_iff _).mp hpre)
    cases hend : encRun p u final with
    | back v o => rw [hend] at hrun; exact hrun.elim
    | ended v r => exact ⟨v, r, rfl⟩
    | stop f => rw [hend] at hrun; exact hrun.elim

/-- DEC.NEXT of a legal unit completes (R110). -/
theorem decNextCommand_completes {d : Decoder} (h : d.Legal p) : (decNextCommand p d).Completes :=
  checked_completes fun hpre => by
    have hrun := decRun_next_meets (h.running ((precheck_eq_none_iff _).mp hpre))
    cases hend : decRun p d 0 false with
    | back e o => rw [hend] at hrun; exact hrun.1.emitDec_completes
    | ended e o => rw [hend] at hrun; exact DecRunning.emitDec_completes hrun
    | stop f => rw [hend] at hrun; exact hrun.elim

/-- DEC.FLUSH of a legal unit completes (R111). -/
theorem decFlushCommand_completes {d : Decoder} (h : d.Legal p) : (decFlushCommand p d).Completes :=
  checked_completes fun hpre => by
    have hrun := decRun_flush_meets (h.running ((precheck_eq_none_iff _).mp hpre))
    cases hend : decRun p d 0 true with
    | back e o =>
      rw [hend] at hrun
      simp only
      split
      · exact DecRunning.outputDec_completes hrun
      · split
        · exact ⟨e, .done, rfl⟩
        · exact ⟨_, _, rfl⟩
    | ended e o => rw [hend] at hrun; exact DecRunning.emitDec_completes hrun
    | stop f => rw [hend] at hrun; exact hrun.elim

/-- DOS.SET of a legal unit completes (R113). -/
theorem dosSetCommand_completes {u : Dos} (h : u.Legal p) (s : List Byte) : (dosSetCommand p s u).Completes :=
  checked_completes fun hpre => by
    obtain ⟨hready, -, hs, -⟩ := (precheckSet_eq_none_iff p false s.length u.toCommon).mp hpre
    rw [installChunk_of_le _ hs, CommandEnd.access_ok]
    have hrun := decRun_next_meets ((h.running hready).installed hs)
    split
    · exact ⟨_, .ok, rfl⟩
    · exact ⟨_, _, rfl⟩
    next f hstop => rw [hstop] at hrun; exact hrun.elim

/-- DOS.FINISH of a legal unit completes (R114). -/
theorem dosFinishCommand_completes {u : Dos} (h : u.Legal p) : (dosFinishCommand p u).Completes :=
  checked_completes fun hpre => by
    have hrun := decRun_flush_meets (h.running ((precheck_eq_none_iff _).mp hpre))
    cases hend : decRun p u.toDecoder u.w true with
    | back e o =>
      rw [hend] at hrun
      simp only
      split
      · obtain ⟨bs, hbs⟩ := DecRunning.read_output hrun
        exact ⟨dosAt e 0, .result bs, by rw [hbs, CommandEnd.access_ok]⟩
      · exact ⟨_, _, rfl⟩
    | ended e o => exact ⟨_, _, rfl⟩
    | stop f => rw [hend] at hrun; exact hrun.elim

/-- ENC.INIT completes with either answer (R124). -/
theorem encInitCommand_completes (cap : Nat) : (encInitCommand p cap).Completes := by
  unfold encInitCommand
  split
  · exact ⟨_, .ok, rfl⟩
  · exact ⟨_, _, rfl⟩

end

/-! ### From a command's end to the machine's next state -/

theorem State.closeEnc_completes {s : State} {e : CommandEnd Enc} (h : e.Completes) : ∃ t, s.closeEnc e = .next t := by
  obtain ⟨u, r, rfl⟩ := h
  exact ⟨_, rfl⟩

theorem State.closeDec_completes {s : State} {e : CommandEnd Decoder} (h : e.Completes) :
    ∃ t, s.closeDec e = .next t := by
  obtain ⟨u, r, rfl⟩ := h
  exact ⟨_, rfl⟩

theorem State.closeDos_completes {s : State} {e : CommandEnd Dos} (h : e.Completes) : ∃ t, s.closeDos e = .next t := by
  obtain ⟨u, r, rfl⟩ := h
  exact ⟨_, rfl⟩

/-- Settles O14: each command of the addressed unit completes. SET, NEXT, FLUSH and FINISH need the run of a machine from
a legal unit; INIT and STATUS always answer, and ABORT has only checks before its failure. -/
theorem everyCommandCompletesInLegalStates : Obligations.EveryCommandCompletesInLegalStates := by
  unfold Obligations.EveryCommandCompletesInLegalStates
  intro i s hlegal
  obtain ⟨-, henc, hdec, hdos⟩ := hlegal
  cases i with
  | encInit cap => exact State.closeEnc_completes (encInitCommand_completes _)
  | encSet chunk => exact State.closeEnc_completes (encSetCommand_completes chunk _)
  | encNext => exact State.closeEnc_completes (encRunCommand_completes henc false)
  | encFlush => exact State.closeEnc_completes (encRunCommand_completes henc true)
  | encAbort code => exact State.closeEnc_completes (checked_completes fun _ => ⟨_, _, rfl⟩)
  | encStatus => exact State.closeEnc_completes ⟨_, _, rfl⟩
  | decInit cap => exact State.closeDec_completes ⟨_, _, rfl⟩
  | decSet chunk => exact State.closeDec_completes (decSetCommand_completes chunk _)
  | decNext => exact State.closeDec_completes (decNextCommand_completes hdec)
  | decFlush => exact State.closeDec_completes (decFlushCommand_completes hdec)
  | decAbort code => exact State.closeDec_completes (checked_completes fun _ => ⟨_, _, rfl⟩)
  | decStatus => exact State.closeDec_completes ⟨_, _, rfl⟩
  | dosInit cap => exact State.closeDos_completes ⟨_, _, rfl⟩
  | dosSet chunk => exact State.closeDos_completes (dosSetCommand_completes hdos chunk)
  | dosFinish => exact State.closeDos_completes (dosFinishCommand_completes hdos)
  | dosAbort code => exact State.closeDos_completes (checked_completes fun _ => ⟨_, _, rfl⟩)
  | dosStatus => exact State.closeDos_completes ⟨_, _, rfl⟩

end Sys2Proof.Machine

/-!
PROOFS for the state family, part 1: what a command can leave, and that every step keeps the legal states (R19 to R38, R97).
-/

namespace Sys2Proof.Machine

open Sys2Proof.Config

/-! ### What a command can leave -/

/-- Whenever a command ends with a response, the unit it leaves and the response satisfy `P`. -/
def CommandEnd.Leaves {σ : Type} (e : CommandEnd σ) (P : σ → Response → Prop) : Prop :=
  match e with
  | .respond u r => P u r
  | .stop _ => True

section
variable {σ α : Type} {P Q : σ → Response → Prop}

@[simp] theorem CommandEnd.leaves_respond (u : σ) (r : Response) : (CommandEnd.respond u r).Leaves P ↔ P u r := Iff.rfl
@[simp] theorem CommandEnd.leaves_stop (f : Fault) : (CommandEnd.stop f : CommandEnd σ).Leaves P := trivial

theorem CommandEnd.leaves_access {x : Except Fault α} {k : α → CommandEnd σ}
    (h : ∀ a, x = .ok a → (k a).Leaves P) : (CommandEnd.access x k).Leaves P := by
  cases x with
  | ok a => exact h a rfl
  | error f => trivial

/-- What a command leaves may be weakened. -/
theorem CommandEnd.Leaves.mono {e : CommandEnd σ} (h : e.Leaves P) (hpq : ∀ u r, P u r → Q u r) : e.Leaves Q := by
  cases e with
  | respond u r => exact hpq u r h
  | stop f => trivial

/-- A checked command leaves the unit it was given with a refusal, or what it leaves once the check has passed. -/
theorem checked_leaves {refusal : Option Response} {u : σ} {go : CommandEnd σ} (hu : ∀ r, refusal = some r → P u r)
    (hgo : refusal = none → go.Leaves P) : (checked refusal u go).Leaves P := by
  cases refusal with
  | some r => exact hu r rfl
  | none => exact hgo rfl

end

/-! ### Reset and INIT -/

section
variable {p : Params}

theorem memWithin_nil (n : Nat) : memWithin [] n := ⟨memWf_nil, by simp⟩

theorem Common.reset_legal (p : Params) : Common.reset.Legal p :=
  ⟨Nat.le_refl _, Nat.zero_le _, memWithin_nil _, rfl, fun _ => rfl⟩

/-- The common fields right after an INIT with a legal capacity. -/
theorem Common.configured_legal (p : Params) (cap : Nat) : Common.Legal p { Common.reset with cap := cap, cfg := true } :=
  Common.reset_legal p

theorem Enc.reset_legal (p : Params) : Enc.reset.Legal p :=
  ⟨Common.reset_legal p, fun _ => rfl, nofun, rfl, memWithin_nil _, Enc.mainLegal_start rfl rfl rfl,
    ⟨fun _ => rfl, fun _ => rfl, nofun⟩, nofun⟩

theorem Enc.configured_legal {cap : Nat} (h : encCapLegal p cap) : Enc.Legal p { Enc.reset with cap := cap, cfg := true } :=
  ⟨Common.configured_legal p cap, nofun, fun _ => h, rfl, memWithin_nil _, Enc.mainLegal_start rfl rfl rfl,
    ⟨fun _ => rfl, fun _ => rfl, nofun⟩, nofun⟩

theorem Decoder.reset_rangeLegal : Decoder.reset.RangeLegal :=
  ⟨fun _ => rfl, fun h => absurd rfl h, Nat.zero_le _, memWithin_nil _, rfl⟩

theorem Decoder.reset_sharedLegal (p : Params) : Decoder.reset.SharedLegal p :=
  ⟨Common.reset_legal p, nofun, memWithin_nil _, Decoder.reset_rangeLegal⟩

theorem Decoder.reset_legal (p : Params) : Decoder.reset.Legal p :=
  ⟨Decoder.reset_sharedLegal p, fun _ => rfl, nofun⟩

theorem Dos.reset_legal (p : Params) : Dos.reset.Legal p :=
  ⟨Decoder.reset_sharedLegal p, fun _ => rfl, nofun, Nat.le_refl _, rfl, rfl, fun _ => rfl⟩

/-- A decoder right after an INIT with a legal capacity starts a run with nothing produced (R108, R112). -/
theorem DecRunning.configured {cap : Nat} (h : decCapLegal p cap) :
    DecRunning p { Decoder.reset with cap := cap, cfg := true } 0 :=
  ⟨⟨Common.configured_legal p cap, fun _ => h, memWithin_nil _, Decoder.reset_rangeLegal⟩, ⟨rfl, rfl⟩,
    Nat.zero_le _, rfl, rfl⟩

/-! ### From a run back to a command boundary -/

/-- Failing keeps legal common fields: a failed unit may record any code (R141). -/
theorem Common.Legal.failWith {c : Common} (h : c.Legal p) (e : ErrCode) : (failWith e c).Legal p := by
  obtain ⟨hcur, hlen, hmem, hheld, -⟩ := h
  exact ⟨hcur, hlen, hmem, hheld, nofun⟩

namespace DecRunning

variable {d : Decoder} {o : Nat}

/-- DEC may end a command at every point of a run. -/
theorem dec_legal (h : DecRunning p d o) : d.Legal p := by
  obtain ⟨hcfg, hfailed⟩ := h.ready
  exact ⟨h.legal, fun hn => by simp [hcfg] at hn, fun hf => by simp [hfailed] at hf⟩

theorem failed_sharedLegal (h : DecRunning p d o) (e : ErrCode) : (failDecoder e d).SharedLegal p := by
  obtain ⟨hcommon, hshared⟩ := h.legal
  exact ⟨hcommon.failWith e, hshared⟩

/-- DEC may fail with one of its fatal errors at every point of a run. -/
theorem dec_failed_legal (h : DecRunning p d o) {e : ErrCode} (he : e = .malformed ∨ e = .upstream) :
    (failDecoder e d).Legal p :=
  ⟨h.failed_sharedLegal e, fun hn => by simp [h.ready.1] at hn, fun _ => by rcases he with rfl | rfl <;> simp⟩

/-- DOS may end a command at every point of a run at which the chunk is consumed (R113). -/
theorem dos_legal (h : DecRunning p d o) (hend : d.inptr = d.inlen) : (dosAt d o).Legal p := by
  obtain ⟨hcfg, hfailed⟩ := h.ready
  exact ⟨h.legal, fun hn => by simp [hcfg] at hn, fun hf => by simp [hfailed] at hf, h.fits, h.aligned, h.held,
    fun _ => hend⟩

/-- DOS may fail with one of its fatal errors at every point of a run; `DOS.W` counts the units before the failure (R141). -/
theorem dos_failed_legal (h : DecRunning p d o) {e : ErrCode} (he : e = .malformed ∨ e = .capacity ∨ e = .upstream) :
    (dosAt (failDecoder e d) o).Legal p :=
  ⟨h.failed_sharedLegal e, fun hn => by simp [h.ready.1] at hn, fun _ => by rcases he with rfl | rfl | rfl <;> simp,
    h.fits, h.aligned, h.held, nofun⟩

/-- A run that has produced output is also one from the start of the output memory (R114). -/
theorem rewound (h : DecRunning p d o) : DecRunning p d 0 := ⟨h.legal, h.ready, Nat.zero_le _, rfl, rfl⟩

end DecRunning

/-! ### The commands of ENC -/

/-- An accepted SET keeps the main machine legal: no verbatim range is pending, since one still has unread bytes of the chunk
before (R32, R125). -/
theorem Enc.MainLegal.installed {u : Enc} (h : u.MainLegal) (hcur : u.inlen ≤ u.inptr) (m : Mem) (n : Nat) :
    Enc.MainLegal { u with input := m, inlen := n, inptr := 0 } := by
  obtain ⟨hstart, hzero, hverb⟩ := h
  refine ⟨fun hm => ⟨(hstart hm).1, rfl⟩, fun hm => ?_, fun hm => ?_⟩
  · obtain ⟨hw, hn, -⟩ := hzero hm
    exact ⟨hw, hn, rfl⟩
  · obtain ⟨hpos, -, hunread, -⟩ := hverb hm
    omega

theorem encInitCommand_legal (cap : Nat) : (encInitCommand p cap).Leaves fun u _ => u.Legal p := by
  unfold encInitCommand
  split
  next h => exact Enc.configured_legal h
  next => exact Enc.reset_legal p

theorem encSetCommand_legal {u : Enc} (h : u.Legal p) (s : List Byte) :
    (encSetCommand p s u).Leaves fun v _ => v.Legal p :=
  checked_leaves (fun _ _ => h) fun hpre => by
    obtain ⟨hready, hcur, hs, hwords⟩ := (precheckSet_eq_none_iff p true s.length u.toCommon).mp hpre
    obtain ⟨hcommon, -, hcap, -, hout, hmain, hcont, -⟩ := h
    rw [installChunk_of_le _ hs, CommandEnd.access_ok]
    exact EncBase.legal ⟨hcommon.installed hs, hready, hcap hready.1, hwords rfl, hout⟩ (hmain.installed hcur _ _) hcont

theorem encRunCommand_legal {u : Enc} (h : u.Legal p) (final : Bool) :
    (encRunCommand p final u).Leaves fun v _ => v.Legal p :=
  checked_leaves (fun _ _ => h) fun hpre => by
    have hrun := encRun_meets (final := final) h ((precheck_eq_none_iff _).mp hpre)
    cases hend : encRun p u final with
    | back v o => trivial
    | ended v r => rw [hend] at hrun; exact hrun
    | stop f => trivial

theorem encAbortCommand_legal {u : Enc} (h : u.Legal p) (code : BitVec 24) :
    (encAbortCommand code u).Leaves fun v _ => v.Legal p :=
  checked_leaves (fun _ _ => h) fun hpre => by
    obtain ⟨hcfg, -⟩ := (precheck_eq_none_iff _).mp hpre
    obtain ⟨hcommon, -, hcap, hwords, hout, hmain, hcont, -⟩ := h
    exact ⟨hcommon.failWith _, fun hn => by simp [hcfg] at hn, hcap, hwords, hout, hmain, hcont, fun _ => rfl⟩

/-! ### The commands of DEC -/

theorem decInitCommand_legal (cap : Nat) : (decInitCommand p cap).Leaves fun d _ => d.Legal p := by
  unfold decInitCommand initDecoder
  split
  next h => exact (DecRunning.configured h).dec_legal
  next => exact Decoder.reset_legal p

theorem decSetCommand_legal {d : Decoder} (h : d.Legal p) (s : List Byte) :
    (decSetCommand p s d).Leaves fun e _ => e.Legal p :=
  checked_leaves (fun _ _ => h) fun hpre => by
    obtain ⟨hready, -, hs, -⟩ := (precheckSet_eq_none_iff p false s.length d.toCommon).mp hpre
    rw [installChunk_of_le _ hs, CommandEnd.access_ok]
    exact ((h.running hready).installed hs).dec_legal

/-- An OUTPUT or a NONE leaves the decoder as the run left it. -/
theorem outputDec_leaves (d : Decoder) (o : Nat) : (outputDec d o).Leaves fun e _ => e = d :=
  CommandEnd.leaves_access fun _ _ => rfl

theorem emitDec_leaves (d : Decoder) (o : Nat) : (emitDec d o).Leaves fun e _ => e = d := by
  unfold emitDec
  split
  · exact outputDec_leaves d o
  · rfl

theorem decNextCommand_legal {d : Decoder} (h : d.Legal p) : (decNextCommand p d).Leaves fun e _ => e.Legal p :=
  checked_leaves (fun _ _ => h) fun hpre => by
    have hrun := decRun_next_meets (h.running ((precheck_eq_none_iff _).mp hpre))
    cases hend : decRun p d 0 false with
    | back e o => rw [hend] at hrun; exact (emitDec_leaves e o).mono fun _ _ he => he ▸ hrun.1.dec_legal
    | ended e o => rw [hend] at hrun; exact (emitDec_leaves e o).mono fun _ _ he => he ▸ DecRunning.dec_legal hrun
    | stop f => trivial

theorem decFlushCommand_legal {d : Decoder} (h : d.Legal p) : (decFlushCommand p d).Leaves fun e _ => e.Legal p :=
  checked_leaves (fun _ _ => h) fun hpre => by
    have hrun := decRun_flush_meets (h.running ((precheck_eq_none_iff _).mp hpre))
    cases hend : decRun p d 0 true with
    | back e o =>
      rw [hend] at hrun
      have hrun : DecRunning p e o := hrun
      simp only
      split
      · exact (outputDec_leaves e o).mono fun _ _ he => he ▸ hrun.dec_legal
      · split
        · exact hrun.dec_legal
        · exact hrun.dec_failed_legal (.inl rfl)
    | ended e o => rw [hend] at hrun; exact (emitDec_leaves e o).mono fun _ _ he => he ▸ DecRunning.dec_legal hrun
    | stop f => trivial

theorem decAbortCommand_legal {d : Decoder} (h : d.Legal p) (code : BitVec 24) :
    (decAbortCommand code d).Leaves fun e _ => e.Legal p :=
  checked_leaves (fun _ _ => h) fun hpre =>
    (h.running ((precheck_eq_none_iff _).mp hpre)).dec_failed_legal (.inr rfl)

/-! ### The commands of DOS -/

theorem dosInitCommand_legal (cap : Nat) : (dosInitCommand p cap).Leaves fun u _ => u.Legal p := by
  unfold dosInitCommand initDecoder
  split
  next h => exact (DecRunning.configured h).dos_legal rfl
  next => exact Dos.reset_legal p

theorem dosSetCommand_legal {u : Dos} (h : u.Legal p) (s : List Byte) :
    (dosSetCommand p s u).Leaves fun v _ => v.Legal p :=
  checked_leaves (fun _ _ => h) fun hpre => by
    obtain ⟨hready, -, hs, -⟩ := (precheckSet_eq_none_iff p false s.length u.toCommon).mp hpre
    rw [installChunk_of_le _ hs, CommandEnd.access_ok]
    have hrun := decRun_next_meets ((h.running hready).installed hs)
    split
    next e o hend => rw [hend] at hrun; exact hrun.1.dos_legal hrun.2
    next e o hend => rw [hend] at hrun; exact DecRunning.dos_failed_legal hrun (.inr (.inl rfl))
    next => trivial

/-- A quiescent unit has consumed its chunk (R104). -/
theorem Decoder.inptr_eq_of_quiescent {d : Decoder} (h : d.quiescent = true) : d.inptr = d.inlen := by
  obtain ⟨-, -, hend⟩ := of_decide_eq_true h
  exact hend

theorem dosFinishCommand_legal {u : Dos} (h : u.Legal p) : (dosFinishCommand p u).Leaves fun v _ => v.Legal p :=
  checked_leaves (fun _ _ => h) fun hpre => by
    have hrun := decRun_flush_meets (h.running ((precheck_eq_none_iff _).mp hpre))
    cases hend : decRun p u.toDecoder u.w true with
    | back d o =>
      rw [hend] at hrun
      have hrun : DecRunning p d o := hrun
      simp only
      split
      next hq => exact CommandEnd.leaves_access fun _ _ => hrun.rewound.dos_legal (d.inptr_eq_of_quiescent hq)
      next => exact hrun.dos_failed_legal (.inl rfl)
    | ended d o => rw [hend] at hrun; exact DecRunning.dos_failed_legal hrun (.inr (.inl rfl))
    | stop f => trivial

theorem dosAbortCommand_legal {u : Dos} (h : u.Legal p) (code : BitVec 24) :
    (dosAbortCommand code u).Leaves fun v _ => v.Legal p :=
  checked_leaves (fun _ _ => h) fun hpre =>
    (h.running ((precheck_eq_none_iff _).mp hpre)).dos_failed_legal (.inr (.inr rfl))

end

/-! ### The machine -/

theorem State.Legal.closeEnc {s t : State} {e : CommandEnd Enc} (hs : s.Legal) (he : e.Leaves fun u _ => u.Legal s.params)
    (h : s.closeEnc e = .next t) : t.Legal := by
  obtain ⟨u, r, rfl, rfl⟩ := State.closeEnc_eq_next h
  obtain ⟨hp, -, hdec, hdos⟩ := hs
  exact ⟨hp, he, hdec, hdos⟩

theorem State.Legal.closeDec {s t : State} {e : CommandEnd Decoder} (hs : s.Legal)
    (he : e.Leaves fun d _ => d.Legal s.params) (h : s.closeDec e = .next t) : t.Legal := by
  obtain ⟨d, r, rfl, rfl⟩ := State.closeDec_eq_next h
  obtain ⟨hp, henc, -, hdos⟩ := hs
  exact ⟨hp, henc, he, hdos⟩

theorem State.Legal.closeDos {s t : State} {e : CommandEnd Dos} (hs : s.Legal) (he : e.Leaves fun u _ => u.Legal s.params)
    (h : s.closeDos e = .next t) : t.Legal := by
  obtain ⟨u, r, rfl, rfl⟩ := State.closeDos_eq_next h
  obtain ⟨hp, henc, hdec, -⟩ := hs
  exact ⟨hp, henc, hdec, he⟩

/-- Every command keeps the legal states. -/
theorem exec_keeps_legal {i : Instr} {s t : State} (hs : s.Legal) (h : exec i s = .next t) : t.Legal := by
  have ⟨_, henc, hdec, hdos⟩ := hs
  cases i with
  | encInit cap => exact hs.closeEnc (encInitCommand_legal _) h
  | encSet chunk => exact hs.closeEnc (encSetCommand_legal henc chunk) h
  | encNext => exact hs.closeEnc (encRunCommand_legal henc false) h
  | encFlush => exact hs.closeEnc (encRunCommand_legal henc true) h
  | encAbort code => exact hs.closeEnc (encAbortCommand_legal henc code) h
  | encStatus => exact hs.closeEnc (e := encStatusCommand s.enc) henc h
  | decInit cap => exact hs.closeDec (decInitCommand_legal _) h
  | decSet chunk => exact hs.closeDec (decSetCommand_legal hdec chunk) h
  | decNext => exact hs.closeDec (decNextCommand_legal hdec) h
  | decFlush => exact hs.closeDec (decFlushCommand_legal hdec) h
  | decAbort code => exact hs.closeDec (decAbortCommand_legal hdec code) h
  | decStatus => exact hs.closeDec (e := decStatusCommand s.dec) hdec h
  | dosInit cap => exact hs.closeDos (dosInitCommand_legal _) h
  | dosSet chunk => exact hs.closeDos (dosSetCommand_legal hdos chunk) h
  | dosFinish => exact hs.closeDos (dosFinishCommand_legal hdos) h
  | dosAbort code => exact hs.closeDos (dosAbortCommand_legal hdos code) h
  | dosStatus => exact hs.closeDos (e := dosStatusCommand s.dos) hdos h

/-- A reset event leads to a legal state from any state with legal parameters (R154). -/
theorem State.resetUnits_legal {s : State} (hp : s.params.Legal) : s.resetUnits.Legal :=
  ⟨hp, Enc.reset_legal _, Decoder.reset_legal _, Dos.reset_legal _⟩

/-- Settles O12: the reference parameters are legal, and so is every unit at reset. -/
theorem resetStateIsLegal : Obligations.ResetStateIsLegal := by
  unfold Obligations.ResetStateIsLegal
  exact State.resetUnits_legal (s := State.reset) (by decide)

/-- Settles O13: a step that is no command changes no unit or resets them all, and a command leaves its unit legal because
the runs of the machines keep their invariants (`DecRunning`, `EncRunning`). -/
theorem everyStepKeepsLegalStates : Obligations.EveryStepKeepsLegalStates := by
  unfold Obligations.EveryStepKeepsLegalStates
  intro s t hs h
  have haccept : s.accept.Legal := hs
  obtain ⟨-, rfl⟩ | ⟨-, rfl⟩ | ⟨-, rfl⟩ | ⟨i, -, hexec⟩ := step_cases h
  · exact hs
  · exact State.resetUnits_legal haccept.1
  · exact haccept
  · exact exec_keeps_legal haccept hexec

end Sys2Proof.Machine

/-!
PROOFS for the state family, part 2: the refusals of units that are not ready (R142), and the common fields a run leaves as they
are (R86 to R103, R116 to R123).
-/

namespace Sys2Proof.Machine

open Sys2Proof.Config

/-! ### Refusals (R142 steps 2 and 3) -/

/-- A SET has the first checks of every command. -/
theorem precheckSet_of_precheck {p : Params} {whole : Bool} {len : Nat} {c : Common} {r : Response}
    (h : precheck c = some r) : precheckSet p whole len c = some r := by
  rw [precheckSet, h]

section
variable {s : State} {check : Option Response} {r : Response}

/-- A refusal is delivered, and nothing else changes. -/
theorem State.closeEnc_refused {go : CommandEnd Enc} (h : check = some r) :
    s.closeEnc (checked check s.enc go) = .next (s.deliver r) := by rw [h]; rfl

theorem State.closeDec_refused {go : CommandEnd Decoder} (h : check = some r) :
    s.closeDec (checked check s.dec go) = .next (s.deliver r) := by rw [h]; rfl

theorem State.closeDos_refused {go : CommandEnd Dos} (h : check = some r) :
    s.closeDos (checked check s.dos go) = .next (s.deliver r) := by rw [h]; rfl

end

/-- What the first checks refuse is refused by every command but INIT and STATUS. -/
theorem exec_refused {i : Instr} {s : State} {r : Response} (hi : needsReady i = true)
    (h : precheck (s.common (unitOf i)) = some r) : exec i s = .next (s.deliver r) := by
  cases i with
  | encInit _ | encStatus | decInit _ | decStatus | dosInit _ | dosStatus => cases hi
  | encSet _ => exact State.closeEnc_refused (precheckSet_of_precheck h)
  | encNext | encFlush | encAbort _ => exact State.closeEnc_refused h
  | decSet _ => exact State.closeDec_refused (precheckSet_of_precheck h)
  | decNext | decFlush | decAbort _ => exact State.closeDec_refused h
  | dosSet _ => exact State.closeDos_refused (precheckSet_of_precheck h)
  | dosFinish | dosAbort _ => exact State.closeDos_refused h

/-- Settles O16: NOTCFG and FAILED are what the first checks answer. -/
theorem unreadyUnitsRefuseCommands : Obligations.UnreadyUnitsRefuseCommands := by
  unfold Obligations.UnreadyUnitsRefuseCommands
  intro i s hi
  refine ⟨fun hcfg => ?_, fun hcfg hfailed => ?_⟩
  · exact exec_refused hi ((precheck_eq_some_iff _ _).mpr (.inl ⟨hcfg, rfl⟩))
  · exact exec_refused hi ((precheck_eq_some_iff _ _).mpr (.inr ⟨hcfg, hfailed, rfl⟩))

/-! ### What a run leaves of the common fields -/

/-- Wherever a procedure gives a value or ends its command, the unit it leaves satisfies `P`. -/
def Flow.Leaves {σ ε α : Type} (x : Flow σ ε α) (P : σ → Prop) : Prop :=
  match x with
  | .back u _ => P u
  | .ended u _ => P u
  | .stop _ => True

section
variable {σ ε α β : Type} {P : σ → Prop}

theorem Flow.Leaves.bind {x : Flow σ ε α} {k : σ → α → Flow σ ε β} (hx : x.Leaves P)
    (hk : ∀ u a, P u → (k u a).Leaves P) : (x.bind k).Leaves P := by
  cases x with
  | back u a => exact hk u a hx
  | ended u e => exact hx
  | stop f => trivial

theorem Flow.leaves_access {x : Except Fault α} {k : α → Flow σ ε β} (hk : ∀ a, (k a).Leaves P) :
    (Flow.access x k).Leaves P := by
  cases x with
  | ok a => exact hk a
  | error f => trivial

end

/-- `c'` is `c` but for the cursor: of the common fields, a run writes INPTR alone. -/
def Common.MovedTo (c c' : Common) : Prop := ∃ q, c' = { c with inptr := q }

theorem Common.MovedTo.refl (c : Common) : c.MovedTo c := ⟨c.inptr, rfl⟩

theorem Common.MovedTo.move {c c' : Common} (h : c.MovedTo c') (q : Nat) : c.MovedTo { c' with inptr := q } := by
  obtain ⟨_, rfl⟩ := h
  exact ⟨q, rfl⟩

theorem Common.MovedTo.failed_eq {c c' : Common} (h : c.MovedTo c') : c'.failed = c.failed := by
  obtain ⟨_, rfl⟩ := h
  rfl

section
variable {p : Params} {c : Common} {α : Type}

/-! ### The decode machine moves the cursor alone -/

/-- Of the common fields of `c`, a decode procedure has moved the cursor alone. -/
abbrev DecFlow.Moves (c : Common) (x : DecFlow α) : Prop := Flow.Leaves x fun d => c.MovedTo d.toCommon

variable {d : Decoder}

theorem startUnit_moves (h : c.MovedTo d.toCommon) (o : Nat) (s : List Byte) : DecFlow.Moves c (startUnit d o s) := by
  unfold startUnit
  split
  · exact h
  · exact Flow.leaves_access fun _ => h

theorem payRange_moves (h : c.MovedTo d.toCommon) (k : Nat) : c.MovedTo (payRange d k).toCommon := by
  rwa [payRange_toCommon]

theorem verbUnit_moves (h : c.MovedTo d.toCommon) (o : Nat) (s : List Byte) : DecFlow.Moves c (verbUnit d o s) := by
  unfold verbUnit
  split
  · exact h
  · exact Flow.leaves_access fun m => payRange_moves (d := { d with outm := m }) h 8

theorem zeroUnit_moves (h : c.MovedTo d.toCommon) (o : Nat) : DecFlow.Moves c (zeroUnit d o) := by
  unfold zeroUnit
  split
  · exact h
  · exact Flow.leaves_access fun m => payRange_moves (d := { d with outm := m }) h _

theorem runUnit_moves (h : c.MovedTo d.toCommon) (o : Nat) (s : List Byte) : DecFlow.Moves c (runUnit d o s) := by
  unfold runUnit
  split
  · exact startUnit_moves h o s
  · exact verbUnit_moves h o s
  · trivial

theorem dropRem_moves {t : Nat} {k : Decoder → DecFlow α} (h : c.MovedTo d.toCommon)
    (hk : ∀ e, c.MovedTo e.toCommon → DecFlow.Moves c (k e)) : DecFlow.Moves c (dropRem d t k) :=
  Flow.leaves_access fun _ => Flow.leaves_access fun _ => hk _ h

theorem appendRem_moves {n : Nat} {k : Decoder → DecFlow α} (h : c.MovedTo d.toCommon)
    (hk : ∀ e, c.MovedTo e.toCommon → DecFlow.Moves c (k e)) : DecFlow.Moves c (appendRem p d n k) :=
  Flow.leaves_access fun _ => Flow.leaves_access fun _ => hk _ (h.move _)

theorem syncPhase_moves (fuel : Nat) (d : Decoder) (o : Nat) (h : c.MovedTo d.toCommon) :
    DecFlow.Moves c (syncPhase p fuel d o) := by
  induction fuel generalizing d o with
  | zero => trivial
  | succ fuel ih =>
    rw [syncPhase]
    split
    · exact h
    split
    · exact (zeroUnit_moves h o).bind fun e o' he => ih e o' he
    refine Flow.leaves_access fun b0 => ?_
    simp only
    split
    · exact Flow.leaves_access fun s => (runUnit_moves h o s).bind fun e o' he => dropRem_moves he fun e he => ih e o' he
    split
    · split
      · exact h
      · exact appendRem_moves h fun e he => Flow.leaves_access fun s =>
          (runUnit_moves he o s).bind fun e o' he => ih _ o' he
    · exact appendRem_moves h fun e he => he

theorem mainPhase_moves (fuel : Nat) (d : Decoder) (o : Nat) (h : c.MovedTo d.toCommon) :
    DecFlow.Moves c (mainPhase p fuel d o) := by
  induction fuel generalizing d o with
  | zero => trivial
  | succ fuel ih =>
    rw [mainPhase]
    cases d.main with
    | zeroRange => exact (zeroUnit_moves h o).bind fun e o' he => ih e o' he
    | verbatimRange =>
      simp only
      split
      · exact h
      · exact Flow.leaves_access fun s => (verbUnit_moves h o s).bind fun e o' he => ih _ o' (he.move _)
    | start =>
      simp only
      split
      · exact h
      · exact Flow.leaves_access fun b0 => Flow.leaves_access fun s =>
          (startUnit_moves h o s).bind fun e o' he => ih _ o' (he.move _)

theorem internPhase_moves (h : c.MovedTo d.toCommon) (o : Nat) : DecFlow.Moves c (internPhase p d o) :=
  appendRem_moves (d := { d with remlen := 0 }) h fun _ he => he

theorem drain_moves (fuel : Nat) (d : Decoder) (o : Nat) (h : c.MovedTo d.toCommon) :
    DecFlow.Moves c (drain p fuel d o) := by
  induction fuel generalizing d o with
  | zero => trivial
  | succ fuel ih =>
    rw [drain]
    split
    · exact (zeroUnit_moves h o).bind fun e o' he => ih e o' he
    split
    · exact h
    refine Flow.leaves_access fun b0 => ?_
    simp only
    split
    · exact h
    split
    · exact h
    exact Flow.leaves_access fun front => Flow.leaves_access fun back => dropRem_moves h fun e he =>
      (runUnit_moves (d := { e with inptr := _ }) (he.move _) o _).bind fun e o' he => ih e o' he

/-- A decode run writes no common field but INPTR. -/
theorem decRun_moves (d : Decoder) (o : Nat) (final : Bool) : DecFlow.Moves d.toCommon (decRun p d o final) := by
  have h := Common.MovedTo.refl d.toCommon
  unfold decRun
  split
  · exact drain_moves _ d o h
  · refine (syncPhase_moves _ d o h).bind fun e r he => ?_
    split
    · exact (mainPhase_moves _ e r.1 he).bind fun e' o' he' => internPhase_moves he' o'
    · exact he

/-! ### The encode machine moves the cursor alone -/

/-- Of the common fields of `c`, an encode procedure has moved the cursor alone. -/
abbrev EncFlow.Moves (c : Common) (x : EncFlow α) : Prop := Flow.Leaves x fun u => c.MovedTo u.toCommon

variable {u : Enc} {final : Bool}

theorem emitE_moves (h : c.MovedTo u.toCommon) (o : Nat) : EncFlow.Moves c (emitE u o final : EncFlow α) := by
  unfold emitE
  split
  · exact Flow.leaves_access fun _ => h
  · split <;> exact h

theorem putOut_moves {a : Nat} {bs : List Byte} {k : Enc → EncFlow α} (h : c.MovedTo u.toCommon)
    (hk : ∀ v, c.MovedTo v.toCommon → EncFlow.Moves c (k v)) : EncFlow.Moves c (putOut u a bs k) :=
  Flow.leaves_access fun _ => hk _ h

theorem contLoop_moves (fuel : Nat) (u : Enc) (e : Nat) (h : c.MovedTo u.toCommon) :
    EncFlow.Moves c (contLoop p final fuel u e) := by
  induction fuel generalizing u e with
  | zero => trivial
  | succ fuel ih =>
    rw [contLoop]
    split
    · exact h
    split
    · split <;> exact h
    refine Flow.leaves_access fun w => ?_
    split
    · exact putOut_moves h fun v hv => ih _ _ (hv.move _)
    · exact h

theorem contScan_moves (h : c.MovedTo u.toCommon) : EncFlow.Moves c (contScan p u final) :=
  (contLoop_moves _ u _ h).bind fun _ _ hv => putOut_moves hv fun _ hw => hw

theorem startVerb_moves (h : c.MovedTo u.toCommon) (o : Nat) : EncFlow.Moves c (startVerb p u o final) := by
  refine Flow.leaves_access fun jq => ?_
  split
  · refine putOut_moves h fun v hv => ?_
    split <;> exact hv
  · exact emitE_moves (u := { u with cont := .initializing }) h o

theorem startWord_moves (h : c.MovedTo u.toCommon) (o : Nat) : EncFlow.Moves c (startWord p u o final) := by
  unfold startWord
  split
  · exact emitE_moves h o
  refine Flow.leaves_access fun w => ?_
  split
  · exact emitE_moves h o
  refine putOut_moves h fun v hv => ?_
  cases tagClass (tag w) with
  | zero => exact hv.move _
  | verb => exact startVerb_moves (u := { v with inptr := v.inptr + 8 }) (hv.move _) _
  | lit => exact hv.move _

theorem zLoop_moves (o fuel : Nat) (u : Enc) (n : Nat) (h : c.MovedTo u.toCommon) :
    EncFlow.Moves c (zLoop p o final fuel u n) := by
  induction fuel generalizing u n with
  | zero => trivial
  | succ fuel ih =>
    rw [zLoop]
    split
    · exact h
    split
    · split
      · exact h
      · exact emitE_moves h o
    refine Flow.leaves_access fun w => ?_
    split
    · exact h
    · exact ih _ _ (h.move _)

theorem zScan_moves (h : c.MovedTo u.toCommon) (o : Nat) : EncFlow.Moves c (zScan p u o final) := by
  refine (zLoop_moves o _ u _ h).bind fun v n hv => ?_
  split
  · exact emitE_moves hv o
  · exact putOut_moves hv fun _ hw => hw

theorem vWrite_moves (h : c.MovedTo u.toCommon) (o : Nat) : EncFlow.Moves c (vWrite p u o final) := by
  unfold vWrite
  simp only
  split
  · exact emitE_moves h o
  refine Flow.leaves_access fun bs => putOut_moves h fun v hv => ?_
  split
  · exact emitE_moves (u := { v with inptr := _, mcnt := _ }) (hv.move _) _
  · exact hv.move _

theorem encPass_moves (h : c.MovedTo u.toCommon) (o : Nat) : EncFlow.Moves c (encPass p u o final) := by
  unfold encPass
  split
  · exact startWord_moves h o
  · exact zScan_moves h o
  · exact vWrite_moves h o

theorem encLoop_moves (fuel : Nat) (u : Enc) (o : Nat) (h : c.MovedTo u.toCommon) :
    EncFlow.Moves c (encLoop p final fuel u o) := by
  induction fuel generalizing u o with
  | zero => trivial
  | succ fuel ih => exact (encPass_moves h o).bind fun v o' hv => ih v o' hv

theorem contPhase_moves (h : c.MovedTo u.toCommon) : EncFlow.Moves c (contPhase p u final) := by
  unfold contPhase
  split
  · exact h
  · exact contScan_moves (u := contEnter u) h
  · exact contScan_moves h

/-- An encode run writes no common field but INPTR. -/
theorem encRun_moves (u : Enc) (final : Bool) : EncFlow.Moves u.toCommon (encRun p u final) :=
  (contPhase_moves (Common.MovedTo.refl _)).bind fun v o hv => encLoop_moves _ v o hv

end

end Sys2Proof.Machine

/-!
PROOFS for the state family, part 3: how FAILED is set and cleared (R20, R21, R139 to R144).
-/

namespace Sys2Proof.Machine

open Sys2Proof.Config

/-! ### What a command does to FAILED -/

/-- The fatal errors of a unit, with the info they carry: an ABORT forwards the host's code, the others carry none (R139). -/
def FatalIn : UnitName → ErrCode → BitVec 24 → Prop
  | .enc, e, _ => e = .upstream
  | .dec, e, info => e = .upstream ∨ (e = .malformed ∧ info = 0#24)
  | .dos, e, info => e = .upstream ∨ (e = .malformed ∧ info = 0#24) ∨ (e = .capacity ∧ info = 0#24)

theorem fatalIn_upstream (v : UnitName) (code : BitVec 24) : FatalIn v .upstream code := by
  cases v with
  | enc => exact rfl
  | dec | dos => exact Or.inl rfl

theorem fatalIn_malformed {v : UnitName} (h : v ≠ .enc) : FatalIn v .malformed 0#24 := by
  cases v with
  | enc => exact absurd rfl h
  | dec => exact Or.inr ⟨rfl, rfl⟩
  | dos => exact Or.inr (.inl ⟨rfl, rfl⟩)

theorem fatalIn_capacity : FatalIn .dos .capacity 0#24 := Or.inr (.inr ⟨rfl, rfl⟩)

/-- From the common fields `c` a command of the unit `v` leaves `c'` with the response `r`: FAILED as it was, or set by one of
the unit's fatal errors, which is recorded and answered (R141). -/
def KeepsOrFails (v : UnitName) (c c' : Common) (r : Response) : Prop :=
  c'.failed = c.failed ∨
    ∃ e info, FatalIn v e info ∧ c'.failed = true ∧ c'.err = e.code ∧ r = .error e info

theorem KeepsOrFails.of_movedTo {v : UnitName} {c c' : Common} (h : c.MovedTo c') (r : Response) :
    KeepsOrFails v c c' r := .inl h.failed_eq

theorem KeepsOrFails.of_fatal {v : UnitName} {e : ErrCode} {info : BitVec 24} (h : FatalIn v e info) (c c' : Common) :
    KeepsOrFails v c (failWith e c') (raise e info) := .inr ⟨e, info, h, rfl, rfl, rfl⟩

/-- A refusal keeps FAILED. -/
theorem checked_keepsOrFails {σ : Type} {v : UnitName} {common : σ → Common} {check : Option Response} {u : σ}
    {go : CommandEnd σ} (h : go.Leaves fun w r => KeepsOrFails v (common u) (common w) r) :
    (checked check u go).Leaves fun w r => KeepsOrFails v (common u) (common w) r :=
  checked_leaves (fun _ _ => .inl rfl) fun _ => h

section
variable {p : Params}

/-- An accepted chunk keeps FAILED. -/
theorem installChunk_failed_eq {s : List Byte} {c c' : Common} (h : installChunk p s c = .ok c') : c'.failed = c.failed := by
  obtain ⟨-, rfl⟩ := (installChunk_eq_ok_iff p s c c').mp h
  rfl

/-- What every command of ENC but INIT does: FAILED is kept, or set by one of ENC's fatal errors. -/
abbrev EncKeepsOrFails (u : Enc) (e : CommandEnd Enc) : Prop :=
  e.Leaves fun v r => KeepsOrFails .enc u.toCommon v.toCommon r

theorem encSetCommand_keepsOrFails (s : List Byte) (u : Enc) : EncKeepsOrFails u (encSetCommand p s u) :=
  checked_keepsOrFails (common := Enc.toCommon) <|
    CommandEnd.leaves_access fun _ hc => .inl (installChunk_failed_eq hc)

theorem encRunCommand_keepsOrFails (final : Bool) (u : Enc) : EncKeepsOrFails u (encRunCommand p final u) :=
  checked_keepsOrFails (common := Enc.toCommon) <| by
    have hrun := encRun_moves (p := p) u final
    cases hend : encRun p u final with
    | back v o => trivial
    | ended v r => rw [hend] at hrun; exact .of_movedTo hrun r
    | stop f => trivial

theorem encAbortCommand_keepsOrFails (code : BitVec 24) (u : Enc) : EncKeepsOrFails u (encAbortCommand code u) :=
  checked_keepsOrFails (common := Enc.toCommon) (.of_fatal (fatalIn_upstream _ code) _ _)

/-- What every command of DEC but INIT does: FAILED is kept, or set by one of DEC's fatal errors. -/
abbrev DecKeepsOrFails (d : Decoder) (e : CommandEnd Decoder) : Prop :=
  e.Leaves fun e r => KeepsOrFails .dec d.toCommon e.toCommon r

theorem decSetCommand_keepsOrFails (s : List Byte) (d : Decoder) : DecKeepsOrFails d (decSetCommand p s d) :=
  checked_keepsOrFails (common := Decoder.toCommon) <|
    CommandEnd.leaves_access fun _ hc => .inl (installChunk_failed_eq hc)

theorem outputDec_keepsOrFails {d e : Decoder} (h : d.toCommon.MovedTo e.toCommon) (o : Nat) :
    DecKeepsOrFails d (outputDec e o) :=
  (outputDec_leaves e o).mono fun _ r he => .of_movedTo (he ▸ h) r

theorem emitDec_keepsOrFails {d e : Decoder} (h : d.toCommon.MovedTo e.toCommon) (o : Nat) :
    DecKeepsOrFails d (emitDec e o) :=
  (emitDec_leaves e o).mono fun _ r he => .of_movedTo (he ▸ h) r

theorem decNextCommand_keepsOrFails (d : Decoder) : DecKeepsOrFails d (decNextCommand p d) :=
  checked_keepsOrFails (common := Decoder.toCommon) <| by
    have hrun := decRun_moves (p := p) d 0 false
    cases hend : decRun p d 0 false with
    | back e o => rw [hend] at hrun; exact emitDec_keepsOrFails hrun o
    | ended e o => rw [hend] at hrun; exact emitDec_keepsOrFails hrun o
    | stop f => trivial

theorem decFlushCommand_keepsOrFails (d : Decoder) : DecKeepsOrFails d (decFlushCommand p d) :=
  checked_keepsOrFails (common := Decoder.toCommon) <| by
    have hrun := decRun_moves (p := p) d 0 true
    cases hend : decRun p d 0 true with
    | back e o =>
      rw [hend] at hrun
      simp only
      split
      · exact outputDec_keepsOrFails hrun o
      split
      · exact .of_movedTo hrun .done
      · exact .of_fatal (fatalIn_malformed (v := .dec) nofun) _ _
    | ended e o => rw [hend] at hrun; exact emitDec_keepsOrFails hrun o
    | stop f => trivial

theorem decAbortCommand_keepsOrFails (code : BitVec 24) (d : Decoder) : DecKeepsOrFails d (decAbortCommand code d) :=
  checked_keepsOrFails (common := Decoder.toCommon) (.of_fatal (fatalIn_upstream _ code) _ _)

/-- What every command of DOS but INIT does: FAILED is kept, or set by one of DOS's fatal errors. -/
abbrev DosKeepsOrFails (u : Dos) (e : CommandEnd Dos) : Prop :=
  e.Leaves fun v r => KeepsOrFails .dos u.toCommon v.toCommon r

theorem dosFull_keepsOrFails (u : Dos) (d : Decoder) (o : Nat) : DosKeepsOrFails u (dosFull d o) :=
  .of_fatal fatalIn_capacity _ _

theorem dosSetCommand_keepsOrFails (s : List Byte) (u : Dos) : DosKeepsOrFails u (dosSetCommand p s u) :=
  checked_keepsOrFails (common := fun u : Dos => u.toCommon) <| CommandEnd.leaves_access fun c hc => by
    have hrun := decRun_moves (p := p) { u.toDecoder with toCommon := c } u.w false
    split
    next d o hend =>
      rw [hend] at hrun
      exact .inl (hrun.failed_eq.trans (installChunk_failed_eq hc))
    next d o _ => exact dosFull_keepsOrFails u d o
    next => trivial

theorem dosFinishCommand_keepsOrFails (u : Dos) : DosKeepsOrFails u (dosFinishCommand p u) :=
  checked_keepsOrFails (common := fun u : Dos => u.toCommon) <| by
    have hrun := decRun_moves (p := p) u.toDecoder u.w true
    cases hend : decRun p u.toDecoder u.w true with
    | back d o =>
      rw [hend] at hrun
      simp only
      split
      · exact CommandEnd.leaves_access fun _ _ => .of_movedTo hrun _
      · exact .of_fatal (fatalIn_malformed (v := .dos) nofun) _ _
    | ended d o => exact dosFull_keepsOrFails u d o
    | stop f => trivial

theorem dosAbortCommand_keepsOrFails (code : BitVec 24) (u : Dos) : DosKeepsOrFails u (dosAbortCommand code u) :=
  checked_keepsOrFails (common := fun u : Dos => u.toCommon) (.of_fatal (fatalIn_upstream _ code) _ _)

/-- INIT leaves no unit failed, whatever it answers (R108, R112, R124). -/
theorem encInitCommand_clears (cap : Nat) : (encInitCommand p cap).Leaves fun u _ => u.failed = false := by
  unfold encInitCommand
  split <;> exact rfl

theorem initDecoder_clears (cap : Nat) : (initDecoder p cap).1.failed = false := by
  unfold initDecoder
  split <;> rfl

end

/-! ### What a step does to FAILED -/

/-- The command is the unit's INIT. -/
def InitOf : UnitName → Instr → Prop
  | .enc, i => ∃ cap, i = .encInit cap
  | .dec, i => ∃ cap, i = .decInit cap
  | .dos, i => ∃ cap, i = .dosInit cap

/-- What a command of the unit `v` may do to it: an INIT clears FAILED, any other command keeps it or fails. -/
def ClearsKeepsOrFails (v : UnitName) (i : Instr) (c c' : Common) (r : Response) : Prop :=
  (InitOf v i ∧ c'.failed = false) ∨ KeepsOrFails v c c' r

section
variable {i : Instr} {s t : State}

theorem State.closeEnc_clearsKeepsOrFails {e : CommandEnd Enc}
    (he : e.Leaves fun u r => ClearsKeepsOrFails .enc i s.enc.toCommon u.toCommon r) (h : s.closeEnc e = .next t) :
    ∃ r, t.delivered = s.delivered ++ [r] ∧ ClearsKeepsOrFails .enc i s.enc.toCommon t.enc.toCommon r := by
  obtain ⟨u, r, rfl, rfl⟩ := State.closeEnc_eq_next h
  exact ⟨r, rfl, he⟩

theorem State.closeDec_clearsKeepsOrFails {e : CommandEnd Decoder}
    (he : e.Leaves fun d r => ClearsKeepsOrFails .dec i s.dec.toCommon d.toCommon r) (h : s.closeDec e = .next t) :
    ∃ r, t.delivered = s.delivered ++ [r] ∧ ClearsKeepsOrFails .dec i s.dec.toCommon t.dec.toCommon r := by
  obtain ⟨d, r, rfl, rfl⟩ := State.closeDec_eq_next h
  exact ⟨r, rfl, he⟩

theorem State.closeDos_clearsKeepsOrFails {e : CommandEnd Dos}
    (he : e.Leaves fun u r => ClearsKeepsOrFails .dos i s.dos.toCommon u.toCommon r) (h : s.closeDos e = .next t) :
    ∃ r, t.delivered = s.delivered ++ [r] ∧ ClearsKeepsOrFails .dos i s.dos.toCommon t.dos.toCommon r := by
  obtain ⟨u, r, rfl, rfl⟩ := State.closeDos_eq_next h
  exact ⟨r, rfl, he⟩

/-- Every command does to FAILED of its unit what its unit allows, and answers accordingly. -/
theorem exec_clearsKeepsOrFails (h : exec i s = .next t) :
    ∃ r, t.delivered = s.delivered ++ [r] ∧
      ClearsKeepsOrFails (unitOf i) i (s.common (unitOf i)) (t.common (unitOf i)) r := by
  cases i with
  | encInit cap =>
    exact State.closeEnc_clearsKeepsOrFails ((encInitCommand_clears _).mono fun _ _ hu => .inl ⟨⟨cap, rfl⟩, hu⟩) h
  | encSet chunk => exact State.closeEnc_clearsKeepsOrFails ((encSetCommand_keepsOrFails chunk _).mono fun _ _ => .inr) h
  | encNext => exact State.closeEnc_clearsKeepsOrFails ((encRunCommand_keepsOrFails false _).mono fun _ _ => .inr) h
  | encFlush => exact State.closeEnc_clearsKeepsOrFails ((encRunCommand_keepsOrFails true _).mono fun _ _ => .inr) h
  | encAbort code => exact State.closeEnc_clearsKeepsOrFails ((encAbortCommand_keepsOrFails code _).mono fun _ _ => .inr) h
  | encStatus => exact State.closeEnc_clearsKeepsOrFails (e := encStatusCommand s.enc) (.inr (.inl rfl)) h
  | decInit cap =>
    exact State.closeDec_clearsKeepsOrFails (e := decInitCommand _ _) (.inl ⟨⟨cap, rfl⟩, initDecoder_clears _⟩) h
  | decSet chunk => exact State.closeDec_clearsKeepsOrFails ((decSetCommand_keepsOrFails chunk _).mono fun _ _ => .inr) h
  | decNext => exact State.closeDec_clearsKeepsOrFails ((decNextCommand_keepsOrFails _).mono fun _ _ => .inr) h
  | decFlush => exact State.closeDec_clearsKeepsOrFails ((decFlushCommand_keepsOrFails _).mono fun _ _ => .inr) h
  | decAbort code => exact State.closeDec_clearsKeepsOrFails ((decAbortCommand_keepsOrFails code _).mono fun _ _ => .inr) h
  | decStatus => exact State.closeDec_clearsKeepsOrFails (e := decStatusCommand s.dec) (.inr (.inl rfl)) h
  | dosInit cap =>
    exact State.closeDos_clearsKeepsOrFails (e := dosInitCommand _ _) (.inl ⟨⟨cap, rfl⟩, initDecoder_clears _⟩) h
  | dosSet chunk => exact State.closeDos_clearsKeepsOrFails ((dosSetCommand_keepsOrFails chunk _).mono fun _ _ => .inr) h
  | dosFinish => exact State.closeDos_clearsKeepsOrFails ((dosFinishCommand_keepsOrFails _).mono fun _ _ => .inr) h
  | dosAbort code => exact State.closeDos_clearsKeepsOrFails ((dosAbortCommand_keepsOrFails code _).mono fun _ _ => .inr) h
  | dosStatus => exact State.closeDos_clearsKeepsOrFails (e := dosStatusCommand s.dos) (.inr (.inl rfl)) h

end

/-- A unit that is the same in two states has the same common fields. -/
theorem common_eq_of_sameUnit {s t : State} {v : UnitName} (h : sameUnit s t v) : t.common v = s.common v := by
  cases v with
  | enc => exact congrArg Enc.toCommon h
  | dec => exact congrArg Decoder.toCommon h
  | dos => exact congrArg (fun u : Dos => u.toCommon) h

/-- A reset event leaves no unit failed (R154). -/
theorem State.resetUnits_clears (s : State) (v : UnitName) : (s.resetUnits.common v).failed = false := by
  cases v <;> rfl

/-- Every way in which a step leaves FAILED of a unit: as it was; cleared, by a reset event or the unit's INIT; or set, by one
of the unit's fatal errors. -/
theorem step_failed_cases {s t : State} (h : step s = .next t) (v : UnitName) :
    (t.common v).failed = (s.common v).failed ∨
    ((t.common v).failed = false ∧ (s.arrival = .reset ∨ ∃ i, s.arrival = .command i ∧ InitOf v i)) ∨
    ∃ e info, FatalIn v e info ∧ (t.common v).failed = true ∧ (t.common v).err = e.code ∧
      t.delivered = s.delivered ++ [.error e info] := by
  obtain ⟨-, rfl⟩ | ⟨ha, rfl⟩ | ⟨-, rfl⟩ | ⟨i, ha, hexec⟩ := step_cases h
  · exact .inl rfl
  · exact .inr (.inl ⟨State.resetUnits_clears _ v, .inl ha⟩)
  · exact .inl (by cases v <;> rfl)
  · by_cases hv : v = unitOf i
    · subst hv
      have haccept : s.accept.common (unitOf i) = s.common (unitOf i) := by cases unitOf i <;> rfl
      obtain ⟨r, hr, ⟨hinit, hclear⟩ | hkeep | ⟨e, info, hfatal, hset, herr, rfl⟩⟩ := exec_clearsKeepsOrFails hexec
      · exact .inr (.inl ⟨hclear, .inr ⟨i, ha, hinit⟩⟩)
      · exact .inl (hkeep.trans (congrArg Common.failed haccept))
      · exact .inr (.inr ⟨e, info, hfatal, hset, herr, hr⟩)
    · obtain ⟨-, -, hothers⟩ := onlyTheAddressedUnitChanges i _ _ hexec
      have hsame : t.common v = s.common v := (common_eq_of_sameUnit (hothers v hv)).trans (by cases v <;> rfl)
      exact .inl (congrArg Common.failed hsame)

section
variable {s t : State} {v : UnitName}

/-- A unit becomes FAILED only by one of its fatal errors. -/
theorem step_sets_failed (h : step s = .next t) (hs : (s.common v).failed = false) (ht : (t.common v).failed = true) :
    ∃ e info, FatalIn v e info ∧ (t.common v).err = e.code ∧ t.delivered = s.delivered ++ [.error e info] := by
  obtain hkeep | ⟨hclear, -⟩ | ⟨e, info, hfatal, -, herr, hr⟩ := step_failed_cases h v
  · rw [hkeep, hs] at ht; cases ht
  · rw [hclear] at ht; cases ht
  · exact ⟨e, info, hfatal, herr, hr⟩

/-- FAILED is cleared only by a reset event or the unit's INIT. -/
theorem step_clears_failed (h : step s = .next t) (hs : (s.common v).failed = true) (ht : (t.common v).failed = false) :
    s.arrival = .reset ∨ ∃ i, s.arrival = .command i ∧ InitOf v i := by
  obtain hkeep | ⟨-, hby⟩ | ⟨-, -, -, hset, -⟩ := step_failed_cases h v
  · rw [hkeep, hs] at ht; cases ht
  · exact hby
  · rw [hset] at ht; cases ht

end

/-- Settles O18, by the cases of what a step does to FAILED of each unit. -/
theorem failedIsSetByFatalErrorsAndClearedByInitOrReset :
    Obligations.FailedIsSetByFatalErrorsAndClearedByInitOrReset := by
  unfold Obligations.FailedIsSetByFatalErrorsAndClearedByInitOrReset
  intro s t h
  refine ⟨fun hs ht => ?_, fun hs ht => ?_, fun hs ht => ?_, fun hs ht => ?_, fun hs ht => ?_, fun hs ht => ?_⟩
  · obtain ⟨_, code, rfl, herr, hr⟩ := step_sets_failed (v := .enc) h hs ht
    exact ⟨herr, code, hr⟩
  · obtain ⟨_, code, rfl | ⟨rfl, rfl⟩, herr, hr⟩ := step_sets_failed (v := .dec) h hs ht
    · exact .inl ⟨herr, code, hr⟩
    · exact .inr ⟨herr, hr⟩
  · obtain ⟨_, code, rfl | ⟨rfl, rfl⟩ | ⟨rfl, rfl⟩, herr, hr⟩ := step_sets_failed (v := .dos) h hs ht
    · exact .inl ⟨herr, code, hr⟩
    · exact .inr (.inl ⟨herr, hr⟩)
    · exact .inr (.inr ⟨herr, hr⟩)
  · exact (step_clears_failed (v := .enc) h hs ht).imp_right fun ⟨_, ha, cap, hi⟩ => ⟨cap, hi ▸ ha⟩
  · exact (step_clears_failed (v := .dec) h hs ht).imp_right fun ⟨_, ha, cap, hi⟩ => ⟨cap, hi ▸ ha⟩
  · exact (step_clears_failed (v := .dos) h hs ht).imp_right fun ⟨_, ha, cap, hi⟩ => ⟨cap, hi ▸ ha⟩

end Sys2Proof.Machine

/-!
PROOFS for the state family, part 4: the layouts of the status registers (R39, R40). A register is its fields put together, so
reading one passes over the fields below it and cuts off those above.
-/

namespace Sys2Proof.Machine

/-- The fields of `ENC.STAT` of more than one bit (R39). -/
theorem encStatus_fields (u : Enc) :
    (encStatus u).extractLsb' 0 2 = u.main.code ∧ (encStatus u).extractLsb' 2 2 = u.cont.code ∧
    (encStatus u).extractLsb' 8 4 = u.err ∧ (encStatus u).extractLsb' 12 4 = 0#4 ∧
    (encStatus u).extractLsb' 16 12 = BitVec.ofNat 12 u.mcnt ∧ (encStatus u).extractLsb' 28 12 = BitVec.ofNat 12 u.cend ∧
    (encStatus u).extractLsb' 40 24 = BitVec.ofNat 24 u.inleft := by
  simp (disch := decide) only [encStatus, BitVec.extractLsb'_append_eq_of_add_le, BitVec.extractLsb'_append_eq_of_le,
    Nat.reduceSub, BitVec.extractLsb'_eq_self, and_self]

/-- The flags of `ENC.STAT`, and the zero bit above them (R39). -/
theorem encStatus_flags (u : Enc) :
    (encStatus u).getLsbD 4 = u.cfg ∧ (encStatus u).getLsbD 5 = u.failed ∧
    (encStatus u).getLsbD 6 = u.inpend ∧ (encStatus u).getLsbD 7 = false := by
  simp only [encStatus, BitVec.getLsbD_append]
  simp

/-- The fields that `DEC.STAT` and `DOS.STAT` share, of more than one bit, and the top one (R40). -/
theorem decoderStatus_fields (top : Nat) (d : Decoder) :
    (decoderStatus top d).extractLsb' 0 2 = d.main.code ∧ (decoderStatus top d).extractLsb' 2 2 = 0#2 ∧
    (decoderStatus top d).extractLsb' 8 4 = d.err ∧ (decoderStatus top d).extractLsb' 12 4 = BitVec.ofNat 4 d.remlen ∧
    (decoderStatus top d).extractLsb' 16 12 = BitVec.ofNat 12 d.cnt ∧ (decoderStatus top d).extractLsb' 28 12 = 0#12 ∧
    (decoderStatus top d).extractLsb' 40 24 = BitVec.ofNat 24 top := by
  simp (disch := decide) only [decoderStatus, BitVec.extractLsb'_append_eq_of_add_le, BitVec.extractLsb'_append_eq_of_le,
    Nat.reduceSub, BitVec.extractLsb'_eq_self, and_self]

/-- The flags of `DEC.STAT` and `DOS.STAT`, and the zero bit above them (R40). -/
theorem decoderStatus_flags (top : Nat) (d : Decoder) :
    (decoderStatus top d).getLsbD 4 = d.cfg ∧ (decoderStatus top d).getLsbD 5 = d.failed ∧
    (decoderStatus top d).getLsbD 6 = d.inpend ∧ (decoderStatus top d).getLsbD 7 = false := by
  simp only [decoderStatus, BitVec.getLsbD_append]
  simp

/-- A field that holds a count within its width reads as the count. -/
theorem field_toNat {w n : Nat} {x : BitVec w} (h : x = BitVec.ofNat w n) (hn : n < 2 ^ w) : x.toNat = n := by
  rw [h, BitVec.toNat_ofNat, Nat.mod_eq_of_lt hn]

/-- INLEFT is no more than INLEN, so it fits its field when INLEN fits its register (R24). -/
theorem Common.inleft_lt {c : Common} {n : Nat} (h : c.inlen < n) : c.inleft < n := by
  unfold Common.inleft; omega

/-- Settles O55: the codes are the model's, and the fields are those of `encStatus_fields` and `encStatus_flags`. -/
theorem encStatusLayout : Obligations.EncStatusLayout := by
  unfold Obligations.EncStatusLayout
  refine ⟨rfl, rfl, rfl, rfl, rfl, rfl, fun u hmcnt hcend hinlen => ?_⟩
  obtain ⟨main, cont, err, zero12, mcnt, cend, inleft⟩ := encStatus_fields u
  obtain ⟨cfg, failed, inpend, zero7⟩ := encStatus_flags u
  exact ⟨main, cont, cfg, failed, inpend, zero7, err, zero12, field_toNat mcnt hmcnt, field_toNat cend hcend,
    field_toNat inleft (Common.inleft_lt hinlen)⟩

/-- The layout of DEC's and DOS's status registers, whatever count stands in the top field (R40). -/
theorem decoderStatus_layout {top : Nat} {d : Decoder} (hcnt : d.cnt < 2 ^ 12) (hrem : d.remlen < 2 ^ 4)
    (htop : top < 2 ^ 24) :
    let v := decoderStatus top d
    v.extractLsb' 0 2 = d.main.code ∧ v.extractLsb' 2 2 = 0#2 ∧ v.getLsbD 4 = d.cfg ∧ v.getLsbD 5 = d.failed ∧
    v.getLsbD 6 = decide (d.inptr < d.inlen) ∧ v.getLsbD 7 = false ∧ v.extractLsb' 8 4 = d.err ∧
    (v.extractLsb' 12 4).toNat = d.remlen ∧ (v.extractLsb' 16 12).toNat = d.cnt ∧ v.extractLsb' 28 12 = 0#12 ∧
    (v.extractLsb' 40 24).toNat = top := by
  obtain ⟨main, zero2, err, remlen, cnt, zero28, topField⟩ := decoderStatus_fields top d
  obtain ⟨cfg, failed, inpend, zero7⟩ := decoderStatus_flags top d
  exact ⟨main, zero2, cfg, failed, inpend, zero7, err, field_toNat remlen hrem, field_toNat cnt hcnt, zero28,
    field_toNat topField htop⟩

/-- Settles O56: the two registers have one layout, whose top field is INLEFT in DEC and `DOS.W` in DOS. -/
theorem decoderStatusLayouts : Obligations.DecoderStatusLayouts := by
  unfold Obligations.DecoderStatusLayouts
  refine ⟨rfl, rfl, rfl, fun d hcnt hrem hinlen => ?_, fun u hcnt hrem hw => ?_⟩
  · exact decoderStatus_layout hcnt hrem (Common.inleft_lt hinlen)
  · exact decoderStatus_layout hcnt hrem hw

end Sys2Proof.Machine

/-!
PROOFS for the memory family: the data bytes of STATUS (R49), the chunk an accepted SET stores (R46, R12), and commands to
different units in either order (R52).
-/

namespace Sys2Proof.Machine

open Sys2Proof.Config

/-! ### The data bytes of STATUS (R49) -/

@[simp] theorem statusBytes_length (v : BitVec 64) : (statusBytes v).length = 8 := by simp [statusBytes]

theorem statusBytes_getElem? (v : BitVec 64) {k : Nat} (hk : k < 8) :
    (statusBytes v)[k]? = some (v.extractLsb' (8 * k) 8) := by
  rw [statusBytes, List.getElem?_map, List.getElem?_range hk, Option.map_some]

/-- Settles O54: the data of a STATUS response are the register's `statusBytes`. -/
theorem statusBytesAreLittleEndian : Obligations.StatusBytesAreLittleEndian := by
  unfold Obligations.StatusBytesAreLittleEndian
  exact fun v => ⟨statusBytes_length v, fun _ hk => statusBytes_getElem? v hk⟩

/-! ### What an accepted SET stores (R46) -/

/-- From the memory `m` to `m'`, the bytes `s` have been put at the front, and every byte behind them is as it was. -/
def StoresChunk (s : List Byte) (m m' : Mem) : Prop :=
  (∀ k, k < s.length → readByte? m' k = s[k]?) ∧ ∀ a, s.length ≤ a → readByte? m' a = readByte? m a

theorem storesChunk_writeBytes (s : List Byte) (m : Mem) : StoresChunk s m (writeBytes m 0 s) := by
  refine ⟨fun k hk => ?_, fun a ha => readByte?_writeBytes_outside (by omega)⟩
  rw [readByte?_writeBytes, if_pos (by omega), Nat.sub_zero]

/-- Moving the cursor leaves the stored chunk in place. -/
theorem StoresChunk.moved {s : List Byte} {m : Mem} {c c' : Common} (h : StoresChunk s m c.input) (hmove : c.MovedTo c') :
    StoresChunk s m c'.input := by
  obtain ⟨_, rfl⟩ := hmove
  exact h

section
variable {p : Params} {s : List Byte}

theorem installChunk_storesChunk {c c' : Common} (h : installChunk p s c = .ok c') : StoresChunk s c.input c'.input := by
  obtain ⟨-, rfl⟩ := (installChunk_eq_ok_iff p s c c').mp h
  exact storesChunk_writeBytes s c.input

/-- No refusal of the checks of a SET is an OK (R142). -/
theorem precheckSet_ne_ok {whole : Bool} {len : Nat} {c : Common} : precheckSet p whole len c ≠ some .ok := by
  intro h
  obtain hpre | ⟨-, -, hr⟩ | ⟨-, -, hr, -⟩ := precheckSet_some h
  · obtain ⟨-, hr⟩ | ⟨-, -, hr⟩ := (precheck_eq_some_iff c .ok).mp hpre <;> cases hr
  · cases hr
  · cases hr

/-- If the command is answered OK, it stores the chunk `s` in the unit's input memory, which `input` selects. -/
abbrev StoresWhenOk {σ : Type} (input : σ → Mem) (s : List Byte) (u : σ) (e : CommandEnd σ) : Prop :=
  e.Leaves fun v r => r = .ok → StoresChunk s (input u) (input v)

/-- A SET stores its chunk when it is answered OK, if what follows the chunk's installation does. -/
theorem set_storesWhenOk {σ : Type} {input : σ → Mem} {whole : Bool} {u : σ} {c : Common} {k : Common → CommandEnd σ}
    (hk : ∀ c', installChunk p s c = .ok c' → StoresWhenOk input s u (k c')) :
    StoresWhenOk input s u (checked (precheckSet p whole s.length c) u (.access (installChunk p s c) k)) :=
  checked_leaves (fun _ hrefused hok => absurd (hok ▸ hrefused) precheckSet_ne_ok) fun _ => CommandEnd.leaves_access hk

theorem encSetCommand_storesWhenOk (u : Enc) : StoresWhenOk (fun u => u.input) s u (encSetCommand p s u) :=
  set_storesWhenOk fun _ hc _ => installChunk_storesChunk hc

theorem decSetCommand_storesWhenOk (d : Decoder) : StoresWhenOk (fun d => d.input) s d (decSetCommand p s d) :=
  set_storesWhenOk fun _ hc _ => installChunk_storesChunk hc

/-- DOS decodes the chunk at once, and the run moves no common field but the cursor. -/
theorem dosSetCommand_storesWhenOk (u : Dos) : StoresWhenOk (fun u => u.input) s u (dosSetCommand p s u) :=
  set_storesWhenOk fun c hc => by
    have hrun := decRun_moves (p := p) { u.toDecoder with toCommon := c } u.w false
    split
    next d o hend =>
      rw [hend] at hrun
      exact fun _ => (installChunk_storesChunk hc).moved hrun
    next => exact nofun
    next => trivial

end

/-! ### From a command's end to the unit and the response in the machine's next state -/

section
variable {s t : State} {r : Response}

theorem State.closeEnc_leaves {P : Enc → Response → Prop} {e : CommandEnd Enc} (he : e.Leaves P)
    (h : s.closeEnc e = .next t) (hr : t.delivered = s.delivered ++ [r]) : P t.enc r := by
  obtain ⟨u, q, rfl, rfl⟩ := State.closeEnc_eq_next h
  have hq : q = r := by simpa using hr
  exact hq ▸ he

theorem State.closeDec_leaves {P : Decoder → Response → Prop} {e : CommandEnd Decoder} (he : e.Leaves P)
    (h : s.closeDec e = .next t) (hr : t.delivered = s.delivered ++ [r]) : P t.dec r := by
  obtain ⟨u, q, rfl, rfl⟩ := State.closeDec_eq_next h
  have hq : q = r := by simpa using hr
  exact hq ▸ he

theorem State.closeDos_leaves {P : Dos → Response → Prop} {e : CommandEnd Dos} (he : e.Leaves P)
    (h : s.closeDos e = .next t) (hr : t.delivered = s.delivered ++ [r]) : P t.dos r := by
  obtain ⟨u, q, rfl, rfl⟩ := State.closeDos_eq_next h
  have hq : q = r := by simpa using hr
  exact hq ▸ he

end

/-- Settles O24: each unit's SET stores its chunk when its response is OK, and the last response delivered is its own. -/
theorem acceptedSetsStoreExactlyTheChunk : Obligations.AcceptedSetsStoreExactlyTheChunk := by
  unfold Obligations.AcceptedSetsStoreExactlyTheChunk
  intro chunk s t
  refine ⟨fun h hok => ?_, fun h hok => ?_, fun h hok => ?_⟩
  · exact State.closeEnc_leaves (encSetCommand_storesWhenOk s.enc) h hok rfl
  · exact State.closeDec_leaves (decSetCommand_storesWhenOk s.dec) h hok rfl
  · exact State.closeDos_leaves (dosSetCommand_storesWhenOk s.dos) h hok rfl

/-! ### Commands to different units (R52) -/

theorem sameUnit.symm {s t : State} {v : UnitName} (h : sameUnit s t v) : sameUnit t s v := by
  cases v <;> exact Eq.symm h

theorem sameUnit.trans {s t w : State} {v : UnitName} (h : sameUnit s t v) (h' : sameUnit t w v) : sameUnit s w v := by
  cases v <;> exact Eq.trans h' h

/-- Settles O11. Neither command changes the other's unit (O9), so each ends in the other order as it did in the first (O10);
a unit that neither addresses is the same throughout. -/
theorem commandsToDifferentUnitsCommute : Obligations.CommandsToDifferentUnitsCommute := by
  unfold Obligations.CommandsToDifferentUnitsCommute
  intro i j s a b hij hi hj
  obtain ⟨hpi, hqi, hia⟩ := onlyTheAddressedUnitChanges i s a hi
  obtain ⟨hpj, hqj, hjb⟩ := onlyTheAddressedUnitChanges j a b hj
  obtain ⟨a', q, hj', hba', hbq, haq⟩ :=
    answersDependOnTheAddressedUnitAlone j a s b hpi.symm (hia _ hij.symm).symm hj
  obtain ⟨hpj', hqj', hja'⟩ := onlyTheAddressedUnitChanges j s a' hj'
  obtain ⟨b', r, hi', hab', har, hbr⟩ := answersDependOnTheAddressedUnitAlone i s a' a hpj' (hja' _ hij) hi
  obtain ⟨hpi', hqi', hib'⟩ := onlyTheAddressedUnitChanges i a' b' hi'
  have hunits (v : UnitName) : sameUnit b b' v := by
    by_cases hvi : v = unitOf i
    · subst hvi
      exact (hjb _ hij).symm.trans hab'
    · by_cases hvj : v = unitOf j
      · subst hvj
        exact hba'.trans (hib' _ hvi)
      · have hsb : sameUnit s b v := (hia v hvi).trans (hjb v hvj)
        have hsb' : sameUnit s b' v := (hja' v hvj).trans (hib' v hvi)
        exact hsb.symm.trans hsb'
  refine ⟨a', b', r, q, hj', hi', hunits .enc, hunits .dec, hunits .dos, ?_, ?_, ?_, ?_⟩
  · rw [hpi', hpj', hpj, hpi]
  · rw [hqi', hqj', hqj, hqi]
  · rw [hbq, har, List.append_assoc, List.singleton_append]
  · rw [hbr, haq, List.append_assoc, List.singleton_append]

end Sys2Proof.Machine

/-!
PROOFS for the encoding family, part 1: the command port. Decoding and encoding are inverse (R67 to R71), the illegal words, and
the step on a transaction (R72, R132).
-/

namespace Sys2Proof

/-! ### The opcode map (R69) -/

/-- The opcodes whose ARG is a capacity or a code (R70). -/
def argOpcodes : List (BitVec 8) := [0x10#8, 0x1d#8, 0x20#8, 0x2d#8, 0x30#8, 0x3d#8]

/-- The opcodes of the SETs, whose ARG is the length of their chunk (R70). -/
def setOpcodes : List (BitVec 8) := [0x11#8, 0x21#8, 0x31#8]

/-- The opcodes whose ARG must be 0 (R70, R71). -/
def plainOpcodes : List (BitVec 8) := [0x12#8, 0x13#8, 0x1e#8, 0x22#8, 0x23#8, 0x2e#8, 0x33#8, 0x3e#8]

/-- The opcodes of R69. -/
def listedOpcodes : List (BitVec 8) := argOpcodes ++ setOpcodes ++ plainOpcodes

/-- How `decode` reads a transaction: by one of the three operand forms, for an opcode for which the encoder uses the same form,
or as an illegal word, for an opcode that is not listed. -/
inductive DecodesAs (c : Command) : Prop where
  | arg (k : BitVec 24 → Instr) (listed : opcodeOf c.word ∈ argOpcodes) (decodes : decode c = decodeArg c k)
      (encodes : ∀ a, encode (k a) = encodeArg a (opcodeOf c.word)) (wf : ∀ a, (k a).WellFormed)
  | set (k : List Byte → Instr) (listed : opcodeOf c.word ∈ setOpcodes) (decodes : decode c = decodeSet c k)
      (encodes : ∀ s, encode (k s) = encodeSet s (opcodeOf c.word)) (wf : ∀ s, chunkFits s → (k s).WellFormed)
  | plain (i : Instr) (listed : opcodeOf c.word ∈ plainOpcodes) (decodes : decode c = decodeNone c i)
      (encodes : encode i = encodeArg 0 (opcodeOf c.word)) (wf : i.WellFormed)
  | unlisted (absent : opcodeOf c.word ∉ listedOpcodes) (decodes : decode c = .error .illegal)

section
variable {c : Command} {op : BitVec 8}

theorem DecodesAs.of_arg (k : BitVec 24 → Instr) (hop : (opcodeOf c.word).toNat = op.toNat) (listed : op ∈ argOpcodes)
    (decodes : decode c = decodeArg c k) (encodes : ∀ a, encode (k a) = encodeArg a op) (wf : ∀ a, (k a).WellFormed) :
    DecodesAs c := by
  obtain rfl := BitVec.eq_of_toNat_eq hop
  exact .arg k listed decodes encodes wf

theorem DecodesAs.of_set (k : List Byte → Instr) (hop : (opcodeOf c.word).toNat = op.toNat) (listed : op ∈ setOpcodes)
    (decodes : decode c = decodeSet c k) (encodes : ∀ s, encode (k s) = encodeSet s op)
    (wf : ∀ s, chunkFits s → (k s).WellFormed) : DecodesAs c := by
  obtain rfl := BitVec.eq_of_toNat_eq hop
  exact .set k listed decodes encodes wf

theorem DecodesAs.of_plain (i : Instr) (hop : (opcodeOf c.word).toNat = op.toNat) (listed : op ∈ plainOpcodes)
    (decodes : decode c = decodeNone c i) (encodes : encode i = encodeArg 0 op) (wf : i.WellFormed) : DecodesAs c := by
  obtain rfl := BitVec.eq_of_toNat_eq hop
  exact .plain i listed decodes encodes wf

end

/-- Every transaction is read in one of the four ways. -/
theorem decodesAs (c : Command) : DecodesAs c := by
  have h : decode c = decode c := rfl
  conv at h => rhs; unfold decode
  split at h
  next hop => exact .of_arg (op := 0x10#8) .encInit hop (by decide) h (fun _ => rfl) fun _ => trivial
  next hop => exact .of_set (op := 0x11#8) .encSet hop (by decide) h (fun _ => rfl) fun _ hs => hs
  next hop => exact .of_plain (op := 0x12#8) .encNext hop (by decide) h rfl trivial
  next hop => exact .of_plain (op := 0x13#8) .encFlush hop (by decide) h rfl trivial
  next hop => exact .of_arg (op := 0x1d#8) .encAbort hop (by decide) h (fun _ => rfl) fun _ => trivial
  next hop => exact .of_plain (op := 0x1e#8) .encStatus hop (by decide) h rfl trivial
  next hop => exact .of_arg (op := 0x20#8) .decInit hop (by decide) h (fun _ => rfl) fun _ => trivial
  next hop => exact .of_set (op := 0x21#8) .decSet hop (by decide) h (fun _ => rfl) fun _ hs => hs
  next hop => exact .of_plain (op := 0x22#8) .decNext hop (by decide) h rfl trivial
  next hop => exact .of_plain (op := 0x23#8) .decFlush hop (by decide) h rfl trivial
  next hop => exact .of_arg (op := 0x2d#8) .decAbort hop (by decide) h (fun _ => rfl) fun _ => trivial
  next hop => exact .of_plain (op := 0x2e#8) .decStatus hop (by decide) h rfl trivial
  next hop => exact .of_arg (op := 0x30#8) .dosInit hop (by decide) h (fun _ => rfl) fun _ => trivial
  next hop => exact .of_set (op := 0x31#8) .dosSet hop (by decide) h (fun _ => rfl) fun _ hs => hs
  next hop => exact .of_plain (op := 0x33#8) .dosFinish hop (by decide) h rfl trivial
  next hop => exact .of_arg (op := 0x3d#8) .dosAbort hop (by decide) h (fun _ => rfl) fun _ => trivial
  next hop => exact .of_plain (op := 0x3e#8) .dosStatus hop (by decide) h rfl trivial
  next =>
    refine .unlisted ?_ h
    simp only [listedOpcodes, argOpcodes, setOpcodes, plainOpcodes, List.cons_append, List.nil_append, List.mem_cons,
      List.not_mem_nil, or_false, not_or, ← BitVec.toNat_inj]
    and_intros <;> assumption

/-! ### Decoding and encoding are inverse (R67 to R70) -/

/-- The transaction of an ARG operand is given back by its fields. -/
theorem encodeArg_argOf {c : Command} (hdata : c.data = []) : encodeArg (argOf c.word) (opcodeOf c.word) = c := by
  rw [encodeArg, commandWord_fields, ← hdata]

/-- The transaction of a chunk is given back when ARG is the chunk's length. -/
theorem encodeSet_data_self {c : Command} (hlen : c.data.length = (argOf c.word).toNat) :
    encodeSet c.data (opcodeOf c.word) = c := by
  rw [encodeSet, hlen, BitVec.ofNat_toNat, BitVec.setWidth_eq, commandWord_fields]

/-- An ARG operand is read back. -/
@[simp] theorem decodeArg_encodeArg (k : BitVec 24 → Instr) (arg : BitVec 24) (op : BitVec 8) :
    decodeArg (encodeArg arg op) k = .ok (k arg) :=
  (decodeArg_eq_ok_iff _ _ _).mpr ⟨rfl, congrArg k (argOf_commandWord arg op).symm⟩

/-- A command without operand is read back. -/
@[simp] theorem decodeNone_encodeArg (i : Instr) (op : BitVec 8) : decodeNone (encodeArg 0#24 op) i = .ok i :=
  (decodeNone_eq_ok_iff _ _ _).mpr ⟨argOf_commandWord _ _, rfl, rfl⟩

/-- A chunk is read back where its length fits ARG (R67). -/
theorem decodeSet_encodeSet (k : List Byte → Instr) {s : List Byte} (hs : chunkFits s) (op : BitVec 8) :
    decodeSet (encodeSet s op) k = .ok (k s) := by
  refine (decodeSet_eq_ok_iff _ _ _).mpr ⟨?_, rfl⟩
  rw [encodeSet_data, encodeSet_word, argOf_commandWord, BitVec.toNat_ofNat, Nat.mod_eq_of_lt hs]

end Sys2Proof

namespace Sys2Proof.Machine

/-- Settles O1: the opcode of the encoded word selects the command's own arm of the decoder, and the operand is read back from
ARG, or from the data of a SET. -/
theorem decodeOfEncodeGivesTheCommandBack : Obligations.DecodeOfEncodeGivesTheCommandBack := by
  unfold Obligations.DecodeOfEncodeGivesTheCommandBack
  intro i hwf
  cases i with
  | encInit a | encAbort a | decInit a | decAbort a | dosInit a | dosAbort a =>
    simp [decode, encode, encodeArg_word]
  | encSet s | decSet s | dosSet s =>
    simp [decode, encode, encodeSet_word, decodeSet_encodeSet _ hwf]
  | encNext | encFlush | encStatus | decNext | decFlush | decStatus | dosFinish | dosStatus =>
    simp [decode, encode, encodeArg_word]

/-- Settles O2: the encoder uses the operand form that the decoder has read, and each form's fields give the transaction back. -/
theorem encodeOfDecodeGivesTheTransactionBack : Obligations.EncodeOfDecodeGivesTheTransactionBack := by
  unfold Obligations.EncodeOfDecodeGivesTheTransactionBack
  intro c i h
  cases decodesAs c with
  | arg k _ decodes encodes wf =>
    obtain ⟨hdata, rfl⟩ := (decodeArg_eq_ok_iff c k i).mp (decodes.symm.trans h)
    exact ⟨by rw [encodes, encodeArg_argOf hdata], wf _⟩
  | set k _ decodes encodes wf =>
    obtain ⟨hlen, rfl⟩ := (decodeSet_eq_ok_iff c k i).mp (decodes.symm.trans h)
    exact ⟨by rw [encodes, encodeSet_data_self hlen], wf _ (hlen.trans_lt (argOf c.word).isLt)⟩
  | plain j _ decodes encodes wf =>
    obtain ⟨harg, hdata, rfl⟩ := (decodeNone_eq_ok_iff c j i).mp (decodes.symm.trans h)
    exact ⟨by rw [encodes, ← harg, encodeArg_argOf hdata], wf⟩
  | unlisted _ decodes => cases decodes.symm.trans h

/-! ### The illegal words (R71) -/

/-- A transaction without data is illegal exactly when its opcode is not listed, or takes no ARG and has one. -/
theorem decode_eq_illegal_iff (w : BitVec 32) :
    decode ⟨w, []⟩ = .error .illegal ↔
      opcodeOf w ∉ listedOpcodes ∨ (opcodeOf w ∈ plainOpcodes ∧ argOf w ≠ 0) := by
  have hdisjoint : ∀ b ∈ argOpcodes ++ setOpcodes, b ∈ listedOpcodes ∧ b ∉ plainOpcodes := by decide
  have hplain : ∀ b ∈ plainOpcodes, b ∈ listedOpcodes := by decide
  cases decodesAs ⟨w, []⟩ with
  | arg k listed decodes =>
    obtain ⟨hin, hnot⟩ := hdisjoint _ (List.mem_append_left _ listed)
    simp [decodes, decodeArg, hin, hnot]
  | set k listed decodes =>
    obtain ⟨hin, hnot⟩ := hdisjoint _ (List.mem_append_right _ listed)
    simp only [decodes, decodeSet, hin, hnot]
    split <;> simp
  | plain i listed decodes => simp [decodes, decodeNone, hplain _ listed, listed]
  | unlisted absent decodes => simp [decodes, absent]

/-- UNIT and OP are the halves of the opcode (R68). -/
theorem extractLsb'_opcodeOf (w : BitVec 32) :
    (opcodeOf w).extractLsb' 4 4 = w.extractLsb' 4 4 ∧ (opcodeOf w).extractLsb' 0 4 = w.extractLsb' 0 4 := by
  constructor <;> ext i hi <;> simp [opcodeOf]

/-- The listed opcodes are those with a UNIT of R68 and an OP that R69 lists for it. -/
theorem mem_listedOpcodes_iff : ∀ b : BitVec 8,
    b ∈ listedOpcodes ↔ b.extractLsb' 4 4 ∈ [1#4, 2#4, 3#4] ∧ b.extractLsb' 0 4 ∈ listedOps (b.extractLsb' 4 4) := by
  decide

/-- The listed opcodes whose ARG must be 0 are those of NEXT, FLUSH, FINISH and STATUS, told by their OP. -/
theorem mem_plainOpcodes_iff : ∀ b ∈ listedOpcodes,
    (b ∈ plainOpcodes ↔ b.extractLsb' 0 4 ∈ [0x2#4, 0x3#4, 0xe#4]) := by
  decide

/-- The decoder's illegal words are those of R71's three conditions. -/
theorem decode_eq_illegal_iff_illegalWord (w : BitVec 32) : decode ⟨w, []⟩ = .error .illegal ↔ illegalWord w := by
  obtain ⟨hunit, hop⟩ := extractLsb'_opcodeOf w
  have hlisted := mem_listedOpcodes_iff (opcodeOf w)
  have hplain := mem_plainOpcodes_iff (opcodeOf w)
  rw [hunit, hop] at hlisted
  rw [hop] at hplain
  rw [decode_eq_illegal_iff, illegalWord, ← or_assoc, ← not_and_or, ← hlisted]
  by_cases h : opcodeOf w ∈ listedOpcodes
  · rw [hplain h]; rfl
  · simp [h]

/-! ### The step on a transaction (R132) -/

section
variable {s : State} {c : Command} {rest : List HostEvent}

theorem State.accept_of_pending {e : HostEvent} (h : s.pending = e :: rest) : s.accept = { s with pending := rest } := by
  rw [State.accept, h, List.tail_cons]

/-- A step on a transaction that decodes to a command runs the command. -/
theorem step_of_decode_ok {i : Instr} (h : s.pending = .command c :: rest) (hc : decode c = .ok i) :
    step s = exec i s.accept := by
  rw [step, arrival_of_command h, arrivalOf, hc]

/-- A step on an illegal word refuses it. -/
theorem step_of_decode_illegal (h : s.pending = .command c :: rest) (hc : decode c = .error .illegal) :
    step s = .next s.accept.refuseIllegal := by
  rw [step, arrival_of_command h, arrivalOf, hc]

end

/-- Settles O3: the words the decoder calls illegal are those of R71, and the step on one delivers ILLEGAL. -/
theorem illegalWordsAreRefusedAndChangeNothing : Obligations.IllegalWordsAreRefusedAndChangeNothing := by
  unfold Obligations.IllegalWordsAreRefusedAndChangeNothing
  refine ⟨decode_eq_illegal_iff_illegalWord, by decide, fun s w rest hpending hw => ?_⟩
  rw [step_of_decode_illegal hpending ((decode_eq_illegal_iff_illegalWord w).mpr hw), State.accept_of_pending hpending]
  rfl

/-- Settles O4: the arrival is the decoded command, and taking the event leaves the rest of the queue. -/
theorem stepRunsTheDecodedCommand : Obligations.StepRunsTheDecodedCommand := by
  unfold Obligations.StepRunsTheDecodedCommand
  intro s c rest i hpending hc
  rw [step_of_decode_ok hpending hc, State.accept_of_pending hpending]

/-- Settles O5: each word is the one that the encoder writes for its command, so it decodes to it (O1). -/
theorem specWordsDecodeAsWritten : Obligations.SpecWordsDecodeAsWritten := by
  unfold Obligations.SpecWordsDecodeAsWritten
  have decode_encode := decodeOfEncodeGivesTheCommandBack
  have hchunk : chunkFits [0x01#8, 0x2a#8, 0x00#8, 0x05#8] := by decide
  exact ⟨decode_encode (.encInit 2048#24) trivial, decode_encode (.decSet _) hchunk, decode_encode .encNext trivial,
    decode_encode .decFlush trivial, decode_encode .dosFinish trivial, decode_encode (.encAbort 7#24) trivial,
    decode_encode .dosStatus trivial⟩

/-! ### One response for each command (R72) -/

/-- A command that ends in a next state has delivered one response. -/
theorem exec_delivers_one {i : Instr} {s t : State} (h : exec i s = .next t) :
    ∃ r, t.delivered = s.delivered ++ [r] := by
  have hself : sameUnit s s (unitOf i) := by cases unitOf i <;> rfl
  obtain ⟨-, r, -, -, hr, -⟩ := answersDependOnTheAddressedUnitAlone i s s t rfl hself h
  exact ⟨r, hr⟩

/-- Settles O8: an illegal word is answered with ILLEGAL, a command with its own response, and in a legal state each command
completes (O14). -/
theorem everyCommandGetsExactlyOneResponse : Obligations.EveryCommandGetsExactlyOneResponse := by
  unfold Obligations.EveryCommandGetsExactlyOneResponse
  intro s c rest hpending
  cases hc : decode c with
  | ok i =>
    rw [step_of_decode_ok hpending hc]
    exact ⟨fun t h => exec_delivers_one (s := s.accept) h, fun hlegal _ => everyCommandCompletesInLegalStates i s.accept hlegal⟩
  | error e =>
    cases e with
    | illegal =>
      rw [step_of_decode_illegal hpending hc]
      exact ⟨fun t h => by cases h; exact ⟨_, State.refuseIllegal_delivered _⟩, fun _ _ => ⟨_, rfl⟩⟩
    | dataLength =>
      have hrefused : step s = .refused .portProtocol := by rw [step, arrival_of_command hpending, arrivalOf, hc]
      rw [hrefused]
      exact ⟨fun t h => (by cases h), fun _ hne => absurd rfl hne⟩

end Sys2Proof.Machine

/-!
PROOFS for the encoding family, part 2: the words of the response port (R73, R74, R139), and the complete decode units of a whole
stream (R65, R66, R106).
-/

namespace Sys2Proof.Machine

open Sys2Proof.Config

/-! ### The response word (R73) -/

/-- The fields of a response word. -/
theorem Response.word_fields (r : Response) :
    r.word.extractLsb' 0 4 = r.kind ∧ r.word.extractLsb' 4 4 = r.errField ∧ r.word.extractLsb' 8 24 = r.len := by
  simp (disch := decide) only [Response.word, BitVec.extractLsb'_append_eq_of_add_le, BitVec.extractLsb'_append_eq_of_le,
    Nat.reduceSub, BitVec.extractLsb'_eq_self, and_self]

/-- The error field of every response but an ERROR is 0. -/
theorem Response.errField_eq_zero {r : Response} (h : ∀ e info, r ≠ .error e info) : r.errField = 0#4 := by
  cases r with
  | error e info => exact absurd rfl (h e info)
  | ok | output _ | none | done | result _ | status _ => rfl

/-- LEN counts the data bytes of OUTPUT and RESULT, where they are as many as it can count. -/
theorem len_toNat_eq_length {d : List Byte} (h : d.length < 2 ^ 24) :
    (Response.output d).len.toNat = d.length ∧ (Response.result d).len.toNat = d.length :=
  ⟨field_toNat rfl h, field_toNat rfl h⟩

/-- Settles O53: the fields are those of `Response.word_fields`, and the numbers and the data are the model's tables. -/
theorem responseWordFields : Obligations.ResponseWordFields := by
  unfold Obligations.ResponseWordFields
  refine ⟨fun r => ?_, fun e info => ?_, fun r hr => ?_, fun d hd => len_toNat_eq_length hd, fun _ => rfl, rfl, rfl, rfl, rfl,
    fun _ => rfl, rfl, rfl, fun _ => rfl, fun _ => rfl, fun _ _ => rfl, rfl, rfl, rfl, rfl, rfl, rfl, rfl, rfl, fun _ => rfl,
    fun _ => rfl, rfl, rfl, rfl, fun _ _ => rfl⟩
  · obtain ⟨kind, -, len⟩ := r.word_fields
    exact ⟨kind, len⟩
  · obtain ⟨-, err, -⟩ := (Response.error e info).word_fields
    exact ⟨err, rfl⟩
  · obtain ⟨-, err, -⟩ := r.word_fields
    exact err.trans (Response.errField_eq_zero hr)

/-! ### The complete units of a stream (R66, R106) -/

/-- The output of the complete units, if nothing is left over. -/
def finishedOutput (r : List Byte × Bool) : Option (List Byte) := if r.2 = true then some r.1 else none

@[simp] theorem finishedOutput_before (front : List Byte) (r : List Byte × Bool) :
    finishedOutput (before front r) = (finishedOutput r).map (front ++ ·) := by
  unfold finishedOutput before
  split <;> rfl

/-- A stream that ends within a verbatim range is not finished (R90). -/
theorem finishedOutput_unitsAux_verbatimRange_short (fuel k : Nat) (s : List Byte) (hs : s.length < 8 * (k + 1)) :
    finishedOutput (unitsAux fuel .verbatimRange (8 * (k + 1)) s) = none := by
  induction fuel generalizing k s with
  | zero => rfl
  | succ fuel ih =>
    rw [unitsAux]
    split
    · rfl
    next hword =>
      obtain _ | k := k
      · omega
      have hrest : 8 * (k + 1 + 1) - 8 = 8 * (k + 1) := by omega
      rw [hrest, if_neg (by omega), finishedOutput_before, ih k _ (by rw [List.length_drop]; omega), Option.map_none]

/-- A verbatim range of `k + 1` words takes as many units, each of 8 bytes (R90). -/
theorem finishedOutput_unitsAux_verbatimRange (fuel k : Nat) (s : List Byte) (hs : 8 * (k + 1) ≤ s.length) :
    finishedOutput (unitsAux (fuel + (k + 1)) .verbatimRange (8 * (k + 1)) s) =
      (finishedOutput (unitsAux fuel .start 0 (s.drop (8 * (k + 1))))).map (s.take (8 * (k + 1)) ++ ·) := by
  induction k generalizing s with
  | zero => rw [Nat.zero_add, unitsAux, if_neg (by omega), finishedOutput_before, if_pos rfl]
  | succ k ih =>
    have hrest : 8 * (k + 1 + 1) - 8 = 8 * (k + 1) := by omega
    have hwords : 8 * (k + 1 + 1) = 8 + 8 * (k + 1) := by omega
    rw [← Nat.add_assoc, unitsAux, if_neg (by omega), hrest, if_neg (by omega), finishedOutput_before,
      ih _ (by rw [List.length_drop]; omega), List.drop_drop, hwords, List.take_add, Option.map_map]
    simp only [Function.comp_def, List.append_assoc]

/-- `unpack` and the complete units agree on every stream, for bounds that cover it: a group of `unpack` is the unit of its head,
and then one more unit for a zero range, or for each word of a verbatim range. -/
theorem unpackAux_eq_finishedOutput (n fuel : Nat) (s : List Byte) (hn : s.length ≤ n) (hf : 2 * s.length < fuel) :
    unpackAux n s = finishedOutput (unitsAux fuel .start 0 s) := by
  induction n generalizing fuel s with
  | zero =>
    obtain rfl := List.length_eq_zero_iff.mp (Nat.le_zero.mp hn)
    obtain _ | fuel := fuel
    · omega
    · rfl
  | succ n ih =>
    obtain _ | fuel := fuel
    · omega
    obtain _ | ⟨t, ps⟩ := s
    · rfl
    have hhead := one_le_head t
    rw [unpackAux, unitsAux]
    simp only
    by_cases hshort : (t :: ps).length < head t
    · rw [if_pos hshort, if_pos hshort]; rfl
    rw [if_neg hshort, if_neg hshort, finishedOutput_before]
    generalize hu : unpackHead ((t :: ps).take (head t)) = u
    have hstate := unpackHead_state ((t :: ps).take (head t))
    rw [hu] at hstate
    have hrest : ((t :: ps).drop (head t)).length = (t :: ps).length - head t := List.length_drop
    obtain ⟨hm, hc⟩ | ⟨hm | hm, hmod, hpos, -⟩ := hstate
    · -- the group leaves no range
      rw [hm, hc, ← ih fuel _ (by omega) (by omega)]
    · -- a zero range: its one unit reads nothing
      obtain _ | fuel := fuel
      · omega
      rw [hm, unitsAux, finishedOutput_before, ← ih fuel _ (by omega) (by omega), Option.map_map]
      simp only [Function.comp_def, List.append_assoc]
    · -- a verbatim range: its words are all there, or the stream is malformed
      obtain ⟨k, hk⟩ : ∃ k, u.cnt = 8 * (k + 1) := ⟨u.cnt / 8 - 1, by omega⟩
      rw [hm, hk]
      by_cases hrange : (t :: ps).length < head t + 8 * (k + 1)
      · rw [finishedOutput_unitsAux_verbatimRange_short _ k _ (by omega)]
        exact if_pos hrange
      · obtain ⟨f, rfl⟩ : ∃ f, fuel = f + (k + 1) := ⟨fuel - (k + 1), by omega⟩
        have hdrop : ((t :: ps).drop (head t + 8 * (k + 1))).length = (t :: ps).length - (head t + 8 * (k + 1)) :=
          List.length_drop
        rw [finishedOutput_unitsAux_verbatimRange f k _ (by omega), List.drop_drop,
          ← ih f _ (by omega) (by omega), Option.map_map]
        simp only [if_neg hrange, Function.comp_def, List.append_assoc]

theorem unpack_eq_finishedOutput (s : List Byte) : unpack s = finishedOutput (unitsFrom .start 0 s) :=
  unpackAux_eq_finishedOutput _ _ s (Nat.le_refl _) (by omega)

/-- Settles O47: `finishedOutput` is the statement's right-hand side. -/
theorem unpackIsTheCompleteUnits : Obligations.UnpackIsTheCompleteUnits := by
  unfold Obligations.UnpackIsTheCompleteUnits
  exact unpack_eq_finishedOutput

/-! ### Lengths (R65, R93) -/

/-- Every unit produces whole words, and a zero range owes whole words. -/
theorem unitsAux_length_mod (fuel : Nat) (m : DecMain) (n : Nat) (s : List Byte) (hn : n % 8 = 0) :
    (unitsAux fuel m n s).1.length % 8 = 0 := by
  induction fuel generalizing m n s with
  | zero => rfl
  | succ fuel ih =>
    cases m with
    | zeroRange =>
      have hout := ih .start 0 s rfl
      rw [unitsAux, before, List.length_append, zeros, List.length_replicate]
      omega
    | verbatimRange =>
      rw [unitsAux]
      split
      · rfl
      next hword =>
        have hrest : (n - 8) % 8 = 0 := by omega
        have htake : (s.take 8).length = 8 := by rw [List.length_take]; omega
        rw [before, List.length_append, htake, Nat.add_mod_left]
        split
        · exact ih _ _ _ rfl
        · exact ih _ _ _ hrest
    | start =>
      cases s with
      | nil => rfl
      | cons t ps =>
        rw [unitsAux]
        split
        · rfl
        have hcnt : (unpackHead ((t :: ps).take (head t))).cnt % 8 = 0 := by
          obtain ⟨-, hzero⟩ | ⟨-, hmod, -⟩ := unpackHead_state ((t :: ps).take (head t))
          · rw [hzero]
          · exact hmod
        simp only [before]
        rw [List.length_append, unpackHead_word_length, Nat.add_mod_left]
        exact ih _ _ _ hcnt

/-- Settles O48: the complete units produce whole words, and what `unpack` answers is their output (O47). -/
theorem decodedLengthIsAMultipleOfEight : Obligations.DecodedLengthIsAMultipleOfEight := by
  unfold Obligations.DecodedLengthIsAMultipleOfEight
  have hunits : ∀ s : List Byte, (unitsFrom .start 0 s).1.length % 8 = 0 := fun s => unitsAux_length_mod _ _ _ _ rfl
  refine ⟨fun s x hx => ?_, hunits⟩
  rw [unpack_eq_finishedOutput, finishedOutput] at hx
  split at hx
  · cases hx; exact hunits s
  · cases hx

end Sys2Proof.Machine

/-!
PROOFS for the encoding family, part 3: what each command answers (R69, R74). A run of a machine ends its command only with the
responses of its rule: that is followed through the procedures, as the moves of the cursor are.
-/

namespace Sys2Proof.Machine

open Sys2Proof.Config

/-! ### How a procedure ends its command -/

/-- Wherever a procedure ends its command, it does so with `E`. -/
def Flow.EndsWith {σ ε α : Type} (x : Flow σ ε α) (E : σ → ε → Prop) : Prop :=
  match x with
  | .back _ _ => True
  | .ended u e => E u e
  | .stop _ => True

section
variable {σ ε α β : Type} {E : σ → ε → Prop}

theorem Flow.EndsWith.bind {x : Flow σ ε α} {k : σ → α → Flow σ ε β} (hx : x.EndsWith E)
    (hk : ∀ u a, (k u a).EndsWith E) : (x.bind k).EndsWith E := by
  cases x with
  | back u a => exact hk u a
  | ended u e => exact hx
  | stop f => trivial

theorem Flow.endsWith_access {x : Except Fault α} {k : α → Flow σ ε β} (hk : ∀ a, (k a).EndsWith E) :
    (Flow.access x k).EndsWith E := by
  cases x with
  | ok a => exact hk a
  | error f => trivial

end

/-! ### A drain ends early only on a full output (R87, R103) -/

/-- There is no space for a word at the output offset `o`. -/
abbrev outputFull (d : Decoder) (o : Nat) : Prop := d.cap < o + 8

theorem startUnit_endsWith_full (d : Decoder) (o : Nat) (s : List Byte) : (startUnit d o s).EndsWith outputFull := by
  unfold startUnit
  split
  next hfull => exact hfull
  next => exact Flow.endsWith_access fun _ => trivial

theorem verbUnit_endsWith_full (d : Decoder) (o : Nat) (s : List Byte) : (verbUnit d o s).EndsWith outputFull := by
  unfold verbUnit
  split
  next hfull => exact hfull
  next => exact Flow.endsWith_access fun _ => trivial

theorem zeroUnit_endsWith_full (d : Decoder) (o : Nat) : (zeroUnit d o).EndsWith outputFull := by
  unfold zeroUnit
  split
  next hfull => exact (by omega : d.cap < o + 8)
  next => exact Flow.endsWith_access fun _ => trivial

theorem runUnit_endsWith_full (d : Decoder) (o : Nat) (s : List Byte) : (runUnit d o s).EndsWith outputFull := by
  unfold runUnit
  split
  · exact startUnit_endsWith_full d o s
  · exact verbUnit_endsWith_full d o s
  · trivial

theorem drain_endsWith_full (p : Params) (fuel : Nat) (d : Decoder) (o : Nat) :
    (drain p fuel d o).EndsWith outputFull := by
  induction fuel generalizing d o with
  | zero => trivial
  | succ fuel ih =>
    rw [drain]
    split
    · exact (zeroUnit_endsWith_full d o).bind ih
    split
    · trivial
    refine Flow.endsWith_access fun b0 => ?_
    simp only
    split
    · trivial
    split
    next hfull => exact hfull
    next =>
      exact Flow.endsWith_access fun _ => Flow.endsWith_access fun _ => Flow.endsWith_access fun _ =>
        Flow.endsWith_access fun _ => (runUnit_endsWith_full _ o _).bind ih

/-- A DEC that ends a drain early has produced output: its buffer has space for a word at least (R7). -/
theorem decRun_flush_ended_pos {p : Params} {d e : Decoder} {o : Nat} (h : d.Legal p) (hready : d.Ready)
    (hend : decRun p d 0 true = .ended e o) : 0 < o := by
  have hfull := drain_endsWith_full p (decodeFuel d) d 0
  have hrun := decRun_flush_meets (h.running hready)
  rw [hend] at hrun
  rw [decRun, if_pos rfl] at hend
  rw [hend] at hfull
  have hrun : DecRunning p e o := hrun
  have hfull : e.cap < o + 8 := hfull
  have hcap : 8 ≤ e.cap := (hrun.legal.2.1 hrun.ready.1).1
  omega

/-! ### An encode run ends with OUTPUT, NONE or DONE (R116 to R123) -/

/-- What an encode run answers: some output, or NONE in a NEXT and DONE in a FLUSH (R116). -/
def runAnswer (final : Bool) (r : Response) : Prop := someOutput r ∨ r = if final then .done else .none

/-- An encode procedure ends its command with an answer of its run. -/
abbrev EncFlow.Answers {α : Type} (final : Bool) (x : EncFlow α) : Prop := x.EndsWith fun _ r => runAnswer final r

/-- Bytes read from a memory are some output. -/
theorem someOutput_of_length_pos {bs : List Byte} (h : 0 < bs.length) : someOutput (.output bs) :=
  ⟨bs, rfl, List.ne_nil_of_length_pos h⟩

section
variable {p : Params} {final : Bool} {α : Type}

theorem emitE_answers (u : Enc) (o : Nat) : EncFlow.Answers final (emitE u o final : EncFlow α) := by
  cases hend : (emitE u o final : EncFlow α) with
  | back v a => trivial
  | ended v r =>
    obtain ⟨-, ⟨-, hr⟩ | ⟨ho, bs, hbs, rfl⟩⟩ := emitE_eq_ended hend
    · exact .inr hr
    · exact .inl (someOutput_of_length_pos (by rw [readBytes?_length hbs]; exact ho))
  | stop f => trivial

theorem putOut_answers {u : Enc} {a : Nat} {bs : List Byte} {k : Enc → EncFlow α}
    (hk : ∀ v, EncFlow.Answers final (k v)) : EncFlow.Answers final (putOut u a bs k) :=
  Flow.endsWith_access fun _ => hk _

theorem contLoop_answers (fuel : Nat) (u : Enc) (e : Nat) : EncFlow.Answers final (contLoop p final fuel u e) := by
  induction fuel generalizing u e with
  | zero => trivial
  | succ fuel ih =>
    rw [contLoop]
    split
    · trivial
    split
    · split
      · trivial
      next hnext => exact .inr (if_neg hnext).symm
    refine Flow.endsWith_access fun w => ?_
    split
    · exact putOut_answers fun v => ih _ _
    · trivial

theorem contScan_answers (u : Enc) : EncFlow.Answers final (contScan p u final) :=
  (contLoop_answers _ u _).bind fun _ _ => putOut_answers fun _ => trivial

theorem startVerb_answers (u : Enc) (o : Nat) : EncFlow.Answers final (startVerb p u o final) := by
  refine Flow.endsWith_access fun jq => ?_
  split
  · refine putOut_answers fun v => ?_
    split <;> trivial
  · exact emitE_answers _ o

theorem startWord_answers (u : Enc) (o : Nat) : EncFlow.Answers final (startWord p u o final) := by
  unfold startWord
  split
  · exact emitE_answers u o
  refine Flow.endsWith_access fun w => ?_
  split
  · exact emitE_answers u o
  refine putOut_answers fun v => ?_
  cases tagClass (tag w) with
  | zero => trivial
  | verb => exact startVerb_answers _ _
  | lit => trivial

theorem zLoop_answers (o fuel : Nat) (u : Enc) (n : Nat) : EncFlow.Answers final (zLoop p o final fuel u n) := by
  induction fuel generalizing u n with
  | zero => trivial
  | succ fuel ih =>
    rw [zLoop]
    split
    · trivial
    split
    · split
      · trivial
      · exact emitE_answers u o
    refine Flow.endsWith_access fun w => ?_
    split
    · trivial
    · exact ih _ _

theorem zScan_answers (u : Enc) (o : Nat) : EncFlow.Answers final (zScan p u o final) := by
  refine (zLoop_answers o _ u _).bind fun v n => ?_
  split
  · exact emitE_answers v o
  · exact putOut_answers fun _ => trivial

theorem vWrite_answers (u : Enc) (o : Nat) : EncFlow.Answers final (vWrite p u o final) := by
  unfold vWrite
  simp only
  split
  · exact emitE_answers u o
  refine Flow.endsWith_access fun bs => putOut_answers fun v => ?_
  split
  · exact emitE_answers _ _
  · trivial

theorem encPass_answers (u : Enc) (o : Nat) : EncFlow.Answers final (encPass p u o final) := by
  unfold encPass
  split
  · exact startWord_answers u o
  · exact zScan_answers u o
  · exact vWrite_answers u o

theorem encLoop_answers (fuel : Nat) (u : Enc) (o : Nat) : EncFlow.Answers final (encLoop p final fuel u o) := by
  induction fuel generalizing u o with
  | zero => trivial
  | succ fuel ih => exact (encPass_answers u o).bind ih

theorem contPhase_answers (u : Enc) : EncFlow.Answers final (contPhase p u final) := by
  unfold contPhase
  split
  · trivial
  · exact contScan_answers _
  · exact contScan_answers u

theorem encRun_answers (u : Enc) : EncFlow.Answers final (encRun p u final) :=
  (contPhase_answers u).bind fun _ _ => encLoop_answers _ _ _

end

/-! ### The answers of each command (R69) -/

/-- A command answers as the rule of `i` lists. -/
abbrev CommandEnd.Answers {σ : Type} (e : CommandEnd σ) (i : Instr) : Prop := e.Leaves fun _ r => mayAnswer r i

/-- The first checks refuse a unit that is not ready (R142). -/
theorem notReady_of_precheck {c : Common} {r : Response} (h : precheck c = some r) : notReady r := by
  obtain ⟨-, hr⟩ | ⟨-, -, hr⟩ := (precheck_eq_some_iff c r).mp h
  · exact .inl hr
  · exact .inr ⟨_, hr⟩

/-- A SET is refused by the first checks, with BUSY over an unread chunk, or with CONFIG (R142). -/
theorem refusal_of_precheckSet {p : Params} {whole : Bool} {len : Nat} {c : Common} {r : Response}
    (h : precheckSet p whole len c = some r) :
    notReady r ∨ (c.Ready ∧ c.inptr < c.inlen ∧ r = .error .busy 0#24) ∨ r = .error .config 0#24 := by
  obtain hpre | hbusy | ⟨-, -, hr, -⟩ := precheckSet_some h
  · exact .inl (notReady_of_precheck hpre)
  · exact .inr (.inl hbusy)
  · exact .inr (.inr hr)

section
variable {p : Params}

theorem encInitCommand_answers (cap : BitVec 24) : (encInitCommand p (capOf cap)).Answers (.encInit cap) := by
  unfold encInitCommand
  split
  · exact .inl rfl
  · exact .inr rfl

/-- A SET that only installs its chunk answers OK, or is refused by its checks (R109, R125). -/
theorem set_answers {σ : Type} (s : List Byte) (whole : Bool) (u : σ) (c : Common) (k : Common → σ) :
    (checked (precheckSet p whole s.length c) u
      (.access (installChunk p s c) fun c' => .respond (k c') .ok)).Leaves
        fun _ r => r = .ok ∨ notReady r ∨ r = .error .busy 0#24 ∨ r = .error .config 0#24 := by
  refine checked_leaves (fun r hr => ?_) fun _ => CommandEnd.leaves_access fun _ _ => .inl rfl
  obtain hready | ⟨-, -, hbusy⟩ | hconfig := refusal_of_precheckSet hr
  · exact .inr (.inl hready)
  · exact .inr (.inr (.inl hbusy))
  · exact .inr (.inr (.inr hconfig))

theorem encSetCommand_answers (s : List Byte) (u : Enc) : (encSetCommand p s u).Answers (.encSet s) :=
  set_answers s true u u.toCommon _

/-- NEXT and FLUSH of ENC answer as their run does, once the checks have passed. -/
theorem encRunCommand_answers (final : Bool) (u : Enc) :
    (encRunCommand p final u).Leaves fun _ r => runAnswer final r ∨ notReady r :=
  checked_leaves (fun _ hr => .inr (notReady_of_precheck hr)) fun _ => by
    have hrun := encRun_answers (p := p) (final := final) u
    cases hend : encRun p u final with
    | back v o => trivial
    | ended v r => rw [hend] at hrun; exact .inl hrun
    | stop f => trivial

theorem encNextCommand_answers (u : Enc) : (encNextCommand p u).Answers .encNext :=
  (encRunCommand_answers false u).mono fun _ _ h => or_assoc.mp h

theorem encFlushCommand_answers (u : Enc) : (encFlushCommand p u).Answers .encFlush :=
  (encRunCommand_answers true u).mono fun _ _ h => or_assoc.mp h

theorem encAbortCommand_answers (code : BitVec 24) (u : Enc) : (encAbortCommand code u).Answers (.encAbort code) :=
  checked_leaves (fun _ hr => .inr (notReady_of_precheck hr)) fun _ => .inl rfl

/-- INIT of a decoder answers OK or CONFIG (R108, R112). -/
theorem initDecoder_answers (cap : Nat) : (initDecoder p cap).2 = .ok ∨ (initDecoder p cap).2 = .error .config 0#24 := by
  unfold initDecoder
  split
  · exact .inl rfl
  · exact .inr rfl

theorem decSetCommand_answers (s : List Byte) (d : Decoder) : (decSetCommand p s d).Answers (.decSet s) :=
  set_answers s false d d.toCommon _

/-- What DEC reads from the front of its buffer is some output. -/
theorem outputDec_answers (d : Decoder) {o : Nat} (ho : 0 < o) : (outputDec d o).Leaves fun _ r => someOutput r :=
  CommandEnd.leaves_access fun _ hread => someOutput_of_length_pos (by rw [memRead_length hread]; exact ho)

theorem emitDec_answers (d : Decoder) (o : Nat) : (emitDec d o).Leaves fun _ r => someOutput r ∨ r = .none := by
  unfold emitDec
  split
  next ho => exact (outputDec_answers d ho).mono fun _ _ h => .inl h
  next => exact .inr rfl

theorem decNextCommand_answers (d : Decoder) : (decNextCommand p d).Answers .decNext := by
  refine checked_leaves (fun r hr => .inr (.inr (notReady_of_precheck hr))) fun _ => ?_
  have hemit (e : Decoder) (o : Nat) : (emitDec e o).Answers .decNext :=
    (emitDec_answers e o).mono fun _ _ h => or_assoc.mp (.inl h)
  cases decRun p d 0 false with
  | back e o => exact hemit e o
  | ended e o => exact hemit e o
  | stop f => trivial

/-- FLUSH never answers NONE: a drain that ends early has produced output. -/
theorem decFlushCommand_answers {d : Decoder} (h : d.Legal p) : (decFlushCommand p d).Answers .decFlush := by
  refine checked_leaves (fun r hr => .inr (.inr (.inl (notReady_of_precheck hr)))) fun hpre => ?_
  have houtput (e : Decoder) {o : Nat} (ho : 0 < o) : (outputDec e o).Answers .decFlush :=
    (outputDec_answers e ho).mono fun _ _ hr => .inl hr
  cases hend : decRun p d 0 true with
  | back e o =>
    simp only
    split
    next ho => exact houtput e ho
    next =>
      split
      · exact .inr (.inl rfl)
      · exact .inr (.inr (.inr rfl))
  | ended e o =>
    have ho := decRun_flush_ended_pos h ((precheck_eq_none_iff _).mp hpre) hend
    simp only [emitDec, if_pos ho]
    exact houtput e ho
  | stop f => trivial

theorem decAbortCommand_answers (code : BitVec 24) (d : Decoder) : (decAbortCommand code d).Answers (.decAbort code) :=
  checked_leaves (fun _ hr => .inr (notReady_of_precheck hr)) fun _ => .inl rfl

/-- DOS.SET is never BUSY: a DOS that has not failed has consumed its chunk (R113). -/
theorem dosSetCommand_answers {u : Dos} (h : u.Legal p) (s : List Byte) : (dosSetCommand p s u).Answers (.dosSet s) := by
  refine checked_leaves (fun r hr => ?_) fun _ => CommandEnd.leaves_access fun c _ => ?_
  · obtain ⟨-, -, -, -, -, -, hconsumed⟩ := h
    obtain hready | ⟨⟨-, hfailed⟩, hunread, -⟩ | hconfig := refusal_of_precheckSet hr
    · exact .inr (.inl hready)
    · exact absurd (hconsumed hfailed) hunread.ne
    · exact .inr (.inr (.inl hconfig))
  · cases decRun p { u.toDecoder with toCommon := c } u.w false with
    | back d o => exact .inl rfl
    | ended d o => exact .inr (.inr (.inr rfl))
    | stop f => trivial

theorem dosFinishCommand_answers (u : Dos) : (dosFinishCommand p u).Answers .dosFinish := by
  refine checked_leaves (fun r hr => .inr (.inl (notReady_of_precheck hr))) fun _ => ?_
  cases decRun p u.toDecoder u.w true with
  | back d o =>
    simp only
    split
    · exact CommandEnd.leaves_access fun bs _ => .inl ⟨bs, rfl⟩
    · exact .inr (.inr (.inr rfl))
  | ended d o => exact .inr (.inr (.inl rfl))
  | stop f => trivial

theorem dosAbortCommand_answers (code : BitVec 24) (u : Dos) : (dosAbortCommand code u).Answers (.dosAbort code) :=
  checked_leaves (fun _ hr => .inr (notReady_of_precheck hr)) fun _ => .inl rfl

end

/-! ### The machine -/

/-- From `s` to `t`, one response has been delivered, and the rule of `i` lists it. -/
def DeliversAnswer (s t : State) (i : Instr) : Prop := ∃ r, t.delivered = s.delivered ++ [r] ∧ mayAnswer r i

section
variable {s t : State} {i : Instr}

theorem State.closeEnc_answers {e : CommandEnd Enc} (he : e.Answers i) (h : s.closeEnc e = .next t) :
    DeliversAnswer s t i := by
  obtain ⟨u, r, rfl, rfl⟩ := State.closeEnc_eq_next h
  exact ⟨r, rfl, he⟩

theorem State.closeDec_answers {e : CommandEnd Decoder} (he : e.Answers i) (h : s.closeDec e = .next t) :
    DeliversAnswer s t i := by
  obtain ⟨u, r, rfl, rfl⟩ := State.closeDec_eq_next h
  exact ⟨r, rfl, he⟩

theorem State.closeDos_answers {e : CommandEnd Dos} (he : e.Answers i) (h : s.closeDos e = .next t) :
    DeliversAnswer s t i := by
  obtain ⟨u, r, rfl, rfl⟩ := State.closeDos_eq_next h
  exact ⟨r, rfl, he⟩

end

/-- Settles O15: every command of a unit answers as its rule lists, and its end is closed with that answer. -/
theorem commandsAnswerAsTheirRulesList : Obligations.CommandsAnswerAsTheirRulesList := by
  unfold Obligations.CommandsAnswerAsTheirRulesList
  intro i s t hlegal h
  obtain ⟨-, -, hdec, hdos⟩ := hlegal
  cases i with
  | encInit cap => exact State.closeEnc_answers (encInitCommand_answers cap) h
  | encSet chunk => exact State.closeEnc_answers (encSetCommand_answers chunk _) h
  | encNext => exact State.closeEnc_answers (encNextCommand_answers _) h
  | encFlush => exact State.closeEnc_answers (encFlushCommand_answers _) h
  | encAbort code => exact State.closeEnc_answers (encAbortCommand_answers code _) h
  | encStatus => exact State.closeEnc_answers (e := encStatusCommand s.enc) ⟨_, rfl⟩ h
  | decInit cap => exact State.closeDec_answers (e := decInitCommand s.params (capOf cap)) (initDecoder_answers _) h
  | decSet chunk => exact State.closeDec_answers (decSetCommand_answers chunk _) h
  | decNext => exact State.closeDec_answers (decNextCommand_answers _) h
  | decFlush => exact State.closeDec_answers (decFlushCommand_answers hdec) h
  | decAbort code => exact State.closeDec_answers (decAbortCommand_answers code _) h
  | decStatus => exact State.closeDec_answers (e := decStatusCommand s.dec) ⟨_, rfl⟩ h
  | dosInit cap => exact State.closeDos_answers (e := dosInitCommand s.params (capOf cap)) (initDecoder_answers _) h
  | dosSet chunk => exact State.closeDos_answers (dosSetCommand_answers hdos chunk) h
  | dosFinish => exact State.closeDos_answers (dosFinishCommand_answers _) h
  | dosAbort code => exact State.closeDos_answers (dosAbortCommand_answers code _) h
  | dosStatus => exact State.closeDos_answers (e := dosStatusCommand s.dos) ⟨_, rfl⟩ h

end Sys2Proof.Machine

/-!
PROOFS for the tag family: the bits of a word's tag, its population count, the length of a head, and decoding a packed
word's head (R78 to R85).
-/

namespace Sys2Proof.Machine

open Sys2Proof.Config

/-! ### A tag is determined by its bits -/

theorem tagBits_getElem? (t : Byte) {i : Nat} (hi : i < 8) : (tagBits t)[i]? = some (t.getLsbD i) := by
  simp [tagBits, hi]

theorem tagBits_injective : Function.Injective tagBits := by
  intro t t' h
  refine BitVec.eq_of_getLsbD_eq fun i hi => Option.some_injective _ ?_
  rw [← tagBits_getElem? t hi, ← tagBits_getElem? t' hi, h]

theorem tagBits_tagZero : tagBits TAG_ZERO = List.replicate 8 false := by decide

theorem tagBits_tagVerb : tagBits TAG_VERB = List.replicate 8 true := by decide

/-- Only the zero range's tag has no 1 bit. -/
theorem eq_tagZero_of_popcount {t : Byte} (h : popcount t = 0) : t = TAG_ZERO := by
  rw [popcount_eq_count, List.count_eq_zero] at h
  apply tagBits_injective
  rw [tagBits_tagZero, List.eq_replicate_iff]
  exact ⟨tagBits_length t, fun b hb => Bool.eq_false_iff.mpr fun hbit => h (hbit ▸ hb)⟩

/-- Only the verbatim range's tag has no 0 bit. -/
theorem eq_tagVerb_of_popcount {t : Byte} (h : popcount t = 8) : t = TAG_VERB := by
  rw [popcount_eq_count, ← tagBits_length t, List.count_eq_length] at h
  apply tagBits_injective
  rw [tagBits_tagVerb, List.eq_replicate_iff]
  exact ⟨tagBits_length t, fun b hb => (h b hb).symm⟩

/-! ### The bits and the population count of a word's tag (R78, R79, R131) -/

/-- Byte `i` of a word decides bit `i` of its tag. -/
theorem getLsbD_tag {w : List Byte} (hw : w.length = 8) {i : Nat} (hi : i < 8) :
    (tag w).getLsbD i = true ↔ w[i]? ≠ some 0x00#8 := by
  have hbyte : w[i]? = some w[i] := List.getElem?_eq_getElem _
  have hbit : some ((tag w).getLsbD i) = some (decide (w[i] ≠ 0#8)) := by
    rw [← tagBits_getElem? _ hi, tagBits_tag hw, List.getElem?_map, hbyte, Option.map_some]
  rw [hbyte, Option.some_injective _ hbit]
  simp

theorem popcount_tag {w : List Byte} (hw : w.length = 8) : popcount (tag w) = w.countP (fun b => b ≠ 0x00#8) := by
  rw [popcount_eq_count, tagBits_tag hw, List.count_eq_countP, List.countP_map]
  congr 1
  funext b
  simp

theorem tag_eq_tagVerb {w : List Byte} (hw : w.length = 8) (hne : ∀ b ∈ w, b ≠ 0x00#8) : tag w = TAG_VERB := by
  apply eq_tagVerb_of_popcount
  rw [popcount_tag hw, List.countP_eq_length.mpr fun b hb => decide_eq_true (hne b hb), hw]

theorem joinsVerbatim_iff (w : List Byte) : joinsVerbatim w = true ↔ VERB_MIN_POP ≤ popcount (tag w) :=
  decide_eq_true_iff

/-- Settles O49: the bits of a word's tag, byte by byte; a word with no zero byte has population count 8. -/
theorem tagBitsMarkTheNonzeroBytes : Obligations.TagBitsMarkTheNonzeroBytes :=
  ⟨fun _ _ hw hi => getLsbD_tag hw hi, by decide, fun _ hw hne => tag_eq_tagVerb hw hne, by decide⟩

/-- Settles O50, by counting the 1 bits of the tag. -/
theorem populationCountIsTheNumberOfNonzeroBytes : Obligations.PopulationCountIsTheNumberOfNonzeroBytes := by
  unfold Obligations.PopulationCountIsTheNumberOfNonzeroBytes
  intro w hw
  refine ⟨popcount_tag hw, packWord_length hw, ?_⟩
  rw [joinsVerbatim_iff, popcount_tag hw]

/-! ### The length of a head (R81, R85) -/

/-- The head of a group that is no range has no count byte. -/
theorem head_of_lit {t : Byte} (hzero : t ≠ TAG_ZERO) (hverb : t ≠ TAG_VERB) : head t = 1 + popcount t := by
  simp [head, hzero, hverb]

/-- Settles O51: a tag that starts no range has a 1 bit and a 0 bit. -/
theorem headLengthsByTagClass : Obligations.HeadLengthsByTagClass := by
  unfold Obligations.HeadLengthsByTagClass
  refine ⟨by decide, by decide, fun t hzero hverb => ?_⟩
  have hhead := head_of_lit hzero hverb
  have hsome : popcount t ≠ 0 := fun h => hzero (eq_tagZero_of_popcount h)
  have hnotAll : popcount t ≠ 8 := fun h => hverb (eq_tagVerb_of_popcount h)
  have hle := popcount_le_eight t
  exact ⟨hhead, by omega, by omega⟩

/-! ### Decoding a packed word's head (R58, R84) -/

/-- Spreading a word's non-zero bytes over the flags that mark them gives the word back, and leaves what follows them. -/
theorem spreadPayload_filter (w c : List Byte) :
    spreadPayload (w.map fun b => decide (b ≠ 0#8)) (w.filter (· ≠ 0#8) ++ c) = (w, c) := by
  induction w with
  | nil => rfl
  | cons b w ih =>
    by_cases hb : b = 0#8
    · rw [List.map_cons, List.filter_cons_of_neg (by simpa using hb), decide_eq_false (not_not_intro hb),
        spreadPayload, ih, hb]
    · rw [List.map_cons, List.filter_cons_of_pos (by simpa using hb), decide_eq_true hb, List.cons_append,
        spreadPayload, List.headD_cons, List.tail_cons, ih]

/-- Decoding the head of a packed word gives the word back, whatever bytes follow it. -/
theorem unpackHead_packWord_word {w : List Byte} (hw : w.length = 8) (c : List Byte) :
    (unpackHead (packWord w ++ c)).word = w := by
  rw [unpackHead_word, packWord, List.cons_append, List.headD_cons, List.tail_cons, tagBits_tag hw,
    spreadPayload_filter]

/-- Settles O52: the word comes back with any bytes after it, so with no count byte and with one. -/
theorem unpackHeadInvertsPackWord : Obligations.UnpackHeadInvertsPackWord := by
  unfold Obligations.UnpackHeadInvertsPackWord
  intro w c hw
  have hlit := unpackHead_packWord_word hw []
  rw [List.append_nil] at hlit
  exact ⟨fun _ => hlit, fun _ => unpackHead_packWord_word hw [c]⟩

end Sys2Proof.Machine

/-!
PROOFS for the decode machine family, part 1: what one decode unit stores and which range it leaves (R87 to R93), and the same
units taken from a stream of bytes (R66, R107).
-/

namespace Sys2Proof.Machine

open Sys2Proof.Config

/-! ### What a unit stores (R89 to R91) -/

/-- A write stores its bytes and leaves every other byte. -/
theorem writeBytes_stores (m : Mem) (o : Nat) {bs : List Byte} {n : Nat} (hn : bs.length = n) :
    readBytes? (writeBytes m o bs) o n = some bs ∧
      ∀ a, a < o ∨ o + n ≤ a → readByte? (writeBytes m o bs) a = readByte? m a := by
  subst hn
  exact ⟨readBytes?_writeBytes_self m o bs, fun _ ha => readByte?_writeBytes_outside ha⟩

/-- Settles O41: each unit's cases give the write, and `writeBytes_stores` says what the write does. -/
theorem decodeUnitsStoreTheirOutput : Obligations.DecodeUnitsStoreTheirOutput := by
  unfold Obligations.DecodeUnitsStoreTheirOutput
  refine ⟨fun d o s => ?_, fun d o s hs hcnt => ?_, fun d o ho => ?_⟩
  · obtain ⟨hfull, he⟩ | ⟨hspace, he⟩ := startUnit_cases d o s
    · exact ⟨fun _ => he, fun _ => by omega⟩
    · obtain ⟨hread, hframe⟩ := writeBytes_stores d.outm o (unpackHead_word_length s)
      exact ⟨fun _ => by omega, fun _ => ⟨_, he, hread, rfl, rfl, hframe⟩⟩
  · obtain ⟨hfull, he⟩ | ⟨hspace, he⟩ := verbUnit_cases d o hs
    · exact ⟨fun _ => he, fun _ => by omega⟩
    · obtain ⟨hread, hframe⟩ := writeBytes_stores d.outm o hs
      have hpaid : d.cnt - 8 = 0 ↔ d.cnt = 8 := by omega
      refine ⟨fun _ => by omega, fun _ => ⟨_, he, ?_⟩⟩
      simp only [payRange_outm, payRange_main, payRange_cnt, hpaid]
      exact ⟨hread, trivial, trivial, hframe⟩
  · obtain ⟨hfull, he⟩ | ⟨hspace, he⟩ := zeroUnit_cases d ho
    · exact ⟨fun _ => he, fun _ => by omega⟩
    · obtain ⟨hread, hframe⟩ := writeBytes_stores d.outm o (bs := zeros (min d.cnt (d.cap - o))) List.length_replicate
      have hpaid : d.cnt - min d.cnt (d.cap - o) = 0 ↔ d.cnt ≤ d.cap - o := by omega
      refine ⟨fun _ => by omega, fun _ => ⟨_, he, ?_⟩⟩
      simp only [payRange_outm, payRange_main, payRange_cnt, hpaid]
      exact ⟨hread, trivial, trivial, hframe⟩

/-! ### `RunUnit` in one equation (R92) -/

/-- The word a unit of the packed bytes `s` stores: the word of a head, or the verbatim bytes themselves. -/
def unitWord : DecMain → List Byte → List Byte
  | .start, s => (unpackHead s).word
  | _, s => s

/-- The range a unit leaves `MAIN` in: the head's, or a verbatim range with one word less to pay. -/
def unitMain : DecMain → Nat → List Byte → DecMain
  | .start, _, s => (unpackHead s).main
  | m, n, _ => if n - 8 = 0 then .start else m

/-- What a unit leaves in `CNT`. -/
def unitCnt : DecMain → Nat → List Byte → Nat
  | .start, _, s => (unpackHead s).cnt
  | _, n, _ => n - 8

/-- The decoder after a unit of the packed bytes `s` that had space at `o`. -/
def afterUnit (d : Decoder) (o : Nat) (s : List Byte) : Decoder :=
  { d with outm := writeBytes d.outm o (unitWord d.main s), main := unitMain d.main d.cnt s, cnt := unitCnt d.main d.cnt s }

section
variable {d : Decoder} {o : Nat} {s : List Byte}

theorem unitWord_length (hm : d.main ≠ .zeroRange) (hs : s.length = syncBytes d (s.headD 0#8)) :
    (unitWord d.main s).length = 8 := by
  cases hmain : d.main with
  | start => exact unpackHead_word_length s
  | verbatimRange => rwa [syncBytes, hmain] at hs
  | zeroRange => exact absurd hmain hm

/-- A zero range begins with the tag and the count byte that start one (R83). -/
theorem two_le_of_unitMain_zeroRange (hm : d.main ≠ .zeroRange) (hs : s.length = syncBytes d (s.headD 0#8))
    (hz : unitMain d.main d.cnt s = .zeroRange) : 2 ≤ s.length := by
  cases hmain : d.main with
  | start =>
    rw [hmain] at hz
    rw [hs, syncBytes, hmain, headD_of_unpackHead_zeroRange hz]; decide
  | verbatimRange =>
    rw [hmain, unitMain] at hz
    · split at hz <;> cases hz
    · nofun
  | zeroRange => exact absurd hmain hm

/-- A verbatim word pays 8 bytes of its range (R90). -/
theorem afterUnit_verbatimRange (hm : d.main = .verbatimRange) :
    afterUnit d o s = payRange { d with outm := writeBytes d.outm o s } 8 := by
  unfold afterUnit payRange
  split <;> simp_all [unitWord, unitMain, unitCnt]

/-- Without space for a word a unit ends the run and changes nothing (R87). -/
theorem runUnit_of_full (s : List Byte) (hm : d.main ≠ .zeroRange) (hc : d.cap < o + 8) : runUnit d o s = .ended d o := by
  cases hmain : d.main with
  | start => rw [(runUnit_eq d o s).1 hmain, startUnit, if_pos hc]
  | verbatimRange => rw [(runUnit_eq d o s).2 hmain, verbUnit, if_pos hc]
  | zeroRange => exact absurd hmain hm

/-- With space for a word a unit stores it and goes on to its next range. -/
theorem runUnit_of_space (hm : d.main ≠ .zeroRange) (hs : s.length = syncBytes d (s.headD 0#8)) (hc : o + 8 ≤ d.cap) :
    runUnit d o s = .back (afterUnit d o s) (o + 8) := by
  cases hmain : d.main with
  | start =>
    obtain ⟨hfull, -⟩ | ⟨-, he⟩ := startUnit_cases d o s
    · omega
    · rw [(runUnit_eq d o s).1 hmain, he, afterUnit, hmain]
      rfl
  | verbatimRange =>
    obtain ⟨hfull, -⟩ | ⟨-, he⟩ := verbUnit_cases d o (s := s) (by rwa [syncBytes, hmain] at hs)
    · omega
    · rw [(runUnit_eq d o s).2 hmain, he, afterUnit_verbatimRange hmain]
  | zeroRange => exact absurd hmain hm

end

/-! ### The complete units of a stream, one at a time (R66, R107) -/

/-- The bound on the units does not matter once it covers the stream: every unit but a zero run takes a byte, and a zero range begins
with two. -/
theorem unitsAux_fuel (f f' : Nat) (m : DecMain) (n : Nat) (s : List Byte)
    (hf : s.length + (if m = .zeroRange then 1 else 0) < f) (hf' : s.length + (if m = .zeroRange then 1 else 0) < f') :
    unitsAux f m n s = unitsAux f' m n s := by
  induction f generalizing f' m n s with
  | zero => omega
  | succ f ih =>
    obtain _ | f' := f'
    · omega
    cases m with
    | zeroRange =>
      rw [if_pos rfl] at hf hf'
      rw [unitsAux, unitsAux, ih f' .start 0 s (by simpa using hf) (by simpa using hf')]
    | verbatimRange =>
      rw [if_neg nofun] at hf hf'
      have hdrop : (s.drop 8).length = s.length - 8 := List.length_drop
      rw [unitsAux, unitsAux]
      split
      · rfl
      · rw [ih f' .start 0 _ (by simp only [hdrop, reduceCtorEq, if_false]; omega)
            (by simp only [hdrop, reduceCtorEq, if_false]; omega),
          ih f' .verbatimRange (n - 8) _ (by simp only [hdrop, reduceCtorEq, if_false]; omega)
            (by simp only [hdrop, reduceCtorEq, if_false]; omega)]
    | start =>
      obtain _ | ⟨t, ps⟩ := s
      · rfl
      rw [if_neg nofun] at hf hf'
      rw [unitsAux, unitsAux]
      split
      · rfl
      next hall =>
        have hone := one_le_head t
        have hdrop : ((t :: ps).drop (head t)).length = (t :: ps).length - head t := List.length_drop
        have htwo : (unpackHead ((t :: ps).take (head t))).main = .zeroRange → 2 ≤ head t := fun hz => by
          have htag := headD_of_unpackHead_zeroRange hz
          rw [List.headD_eq_head?_getD, List.head?_take, if_neg (by omega)] at htag
          obtain rfl : t = TAG_ZERO := htag
          decide
        have hlt : ((t :: ps).drop (head t)).length +
            (if (unpackHead ((t :: ps).take (head t))).main = .zeroRange then 1 else 0) < (t :: ps).length := by
          split
          next hz => have := htwo hz; omega
          next => omega
        simp only
        rw [ih f' _ _ _ (by omega) (by omega)]

/-- A zero range pays without reading (R91). -/
theorem unitsFrom_zeroRange (n : Nat) (s : List Byte) :
    unitsFrom .zeroRange n s = before (zeros n) (unitsFrom .start 0 s) := by
  rw [unitsFrom, unitsAux, unitsFrom, unitsAux_fuel _ (2 * s.length + 2) .start 0 s (by simp; omega) (by simp; omega)]

/-- A unit whose bytes are all there is the first one of the stream, and the rest follows from the range it leaves. -/
theorem unitsFrom_unit {d : Decoder} {s : List Byte} (hm : d.main ≠ .zeroRange)
    (hs : syncBytes d (s.headD 0#8) ≤ s.length) :
    unitsFrom d.main d.cnt s = before (unitWord d.main (s.take (syncBytes d (s.headD 0#8))))
      (unitsFrom (unitMain d.main d.cnt (s.take (syncBytes d (s.headD 0#8))))
        (unitCnt d.main d.cnt (s.take (syncBytes d (s.headD 0#8)))) (s.drop (syncBytes d (s.headD 0#8)))) := by
  have hpos := one_le_syncBytes hm (s.headD 0#8)
  have hdrop : (s.drop (syncBytes d (s.headD 0#8))).length = s.length - syncBytes d (s.headD 0#8) := List.length_drop
  rw [unitsFrom, unitsFrom, unitsAux_fuel (2 * (s.drop _).length + 2) (2 * s.length + 1) _ _ _
    (by split <;> omega) (by split <;> omega)]
  cases hmain : d.main with
  | start =>
    obtain _ | ⟨t, ps⟩ := s
    · simp only [List.length_nil] at hs; omega
    rw [syncBytes, hmain] at hs
    simp only [syncBytes, hmain]
    rw [unitsAux, if_neg (by simpa using hs)]
    rfl
  | verbatimRange =>
    have hs : 8 ≤ s.length := by rwa [syncBytes, hmain] at hs
    simp only [syncBytes, hmain, unitWord, unitMain, unitCnt]
    rw [unitsAux, if_neg (by omega)]
    split
    next hpaid => rw [hpaid]
    next => rfl
  | zeroRange => exact absurd hmain hm

/-- Without a complete unit there is no output, and the stream is at a group boundary only where nothing at all is left. -/
theorem unitsFrom_incomplete {d : Decoder} {s : List Byte} (hm : d.main ≠ .zeroRange)
    (hs : s.length < syncBytes d (s.headD 0#8)) :
    unitsFrom d.main d.cnt s = ([], decide (d.main = .start ∧ s = [])) := by
  cases hmain : d.main with
  | start =>
    obtain _ | ⟨t, ps⟩ := s
    · rfl
    · rw [syncBytes, hmain] at hs
      rw [unitsFrom, unitsAux, if_pos (by simpa using hs)]
      simp
  | verbatimRange =>
    rw [syncBytes, hmain] at hs
    rw [unitsFrom, unitsAux, if_pos hs]
    simp
  | zeroRange => exact absurd hmain hm

end Sys2Proof.Machine

/-!
PROOFS for the decode machine family, part 2: going on after a unit, and the bounds of phases 1 and 2 (R91, R100, R101).
-/

namespace Sys2Proof.Machine

open Sys2Proof.Config

/-! ### Sequencing -/

section
variable {σ ε α β γ : Type}

theorem Flow.bind_assoc (x : Flow σ ε α) (k : σ → α → Flow σ ε β) (l : σ → β → Flow σ ε γ) :
    (x.bind k).bind l = x.bind fun u a => (k u a).bind l := by cases x <;> rfl

/-- Two continuations need only agree on the value an access answers. -/
theorem Flow.access_congr {x : Except Fault α} {k k' : α → Flow σ ε β} (h : ∀ a, x = .ok a → k a = k' a) :
    Flow.access x k = Flow.access x k' := by
  cases x with
  | ok a => exact h a rfl
  | error f => rfl

end

/-! ### A zero run in one equation (R91) -/

/-- The number of zeros a zero run at `o` stores: what it owes, as far as there is space. -/
def zerosPaid (d : Decoder) (o : Nat) : Nat := min d.cnt (d.cap - o)

/-- The decoder after a zero run at `o`. -/
def paidZeros (d : Decoder) (o : Nat) : Decoder :=
  payRange { d with outm := writeBytes d.outm o (zeros (zerosPaid d o)) } (zerosPaid d o)

section
variable {d : Decoder} {o : Nat}

theorem zeroUnit_of_full (d : Decoder) : zeroUnit d d.cap = .ended d d.cap := if_pos rfl

theorem zeroUnit_of_space (hc : o < d.cap) : zeroUnit d o = .back (paidZeros d o) (o + zerosPaid d o) := by
  obtain ⟨hfull, -⟩ | ⟨-, he⟩ := zeroUnit_cases d (Nat.le_of_lt hc)
  · omega
  · exact he

theorem paidZeros_sameReader (d : Decoder) (o : Nat) : d.SameReader (paidZeros d o) :=
  ⟨by simp [paidZeros], by simp [paidZeros], by simp [paidZeros]⟩

theorem zerosPaid_le (ho : o ≤ d.cap) : o + zerosPaid d o ≤ (paidZeros d o).cap := by
  rw [(paidZeros_sameReader d o).1, zerosPaid]; omega

/-- A zero run leaves fewer passes: it ends its range or fills the output. -/
theorem passesLeft_paidZeros {f : Nat} (hm : d.main = .zeroRange) (hc : o < d.cap) (hf : passesLeft d o < f + 1) :
    passesLeft (paidZeros d o) (o + zerosPaid d o) < f := by
  refine Nat.lt_of_lt_of_le (passesLeft_lt_of_zeroUnit hm (paidZeros_sameReader d o) hc ?_) (Nat.le_of_lt_succ hf)
  rw [paidZeros, payRange_main, zerosPaid]
  by_cases hpaid : d.cnt ≤ d.cap - o
  · exact .inl (if_pos (by simp only; omega))
  · exact .inr (by omega)

end

/-! ### Two continuations of a unit, or of a move in the Remainder -/

section
variable {d : Decoder} {o : Nat} {α β : Type}

theorem dropRem_congr {t : Nat} {k k' : Decoder → DecFlow α}
    (h : ∀ m, k { d with rem := m, remlen := d.remlen - t } = k' { d with rem := m, remlen := d.remlen - t }) :
    dropRem d t k = dropRem d t k' :=
  Flow.access_congr fun _ _ => Flow.access_congr fun m _ => h m

/-- What is appended to the Remainder leaves the bytes it had. -/
theorem appendRem_congr {p : Params} {n : Nat} {k k' : Decoder → DecFlow α}
    (h : ∀ m, (∀ i ≤ d.remlen, readBytes? m 0 i = readBytes? d.rem 0 i) →
      k { d with rem := m, inptr := d.inptr + n } = k' { d with rem := m, inptr := d.inptr + n }) :
    appendRem p d n k = appendRem p d n k' := by
  refine Flow.access_congr fun bs _ => Flow.access_congr fun m hm => h m fun i hi => ?_
  rw [((memWrite_eq_ok_iff _ _ _ _ _).mp hm).2]
  exact readBytes?_writeBytes_outside (.inl (by omega))

/-- A unit goes on from `afterUnit`, where it had space. -/
theorem runUnit_bind_congr {s : List Byte} {k k' : Decoder → Nat → DecFlow β} (hm : d.main ≠ .zeroRange)
    (hs : s.length = syncBytes d (s.headD 0#8))
    (h : o + 8 ≤ d.cap → k (afterUnit d o s) (o + 8) = k' (afterUnit d o s) (o + 8)) :
    (runUnit d o s).bind k = (runUnit d o s).bind k' := by
  by_cases hc : d.cap < o + 8
  · rw [runUnit_of_full s hm hc]; rfl
  · rw [runUnit_of_space hm hs (by omega)]
    exact h (by omega)

/-- A zero run goes on from `paidZeros`, where it had space. -/
theorem zeroUnit_bind_congr {k k' : Decoder → Nat → DecFlow β} (ho : o ≤ d.cap)
    (h : o < d.cap → k (paidZeros d o) (o + zerosPaid d o) = k' (paidZeros d o) (o + zerosPaid d o)) :
    (zeroUnit d o).bind k = (zeroUnit d o).bind k' := by
  obtain rfl | hc := Nat.eq_or_lt_of_le ho
  · rw [zeroUnit_of_full]; rfl
  · rw [zeroUnit_of_space hc]
    exact h hc

end

/-! ### The bound of phases 1 and 2 does not matter once it covers the passes (log 4) -/

/-- A unit run at `c` leaves fewer passes than there were at `d` when it has taken its bytes. -/
theorem passesLeft_lt_of_unitMain {c d e : Decoder} {s : List Byte} (hm : c.main ≠ .zeroRange)
    (hs : s.length = syncBytes c (s.headD 0#8)) (hmain : e.main = unitMain c.main c.cnt s)
    (hleft : e.remlen + e.inleft + s.length ≤ d.remlen + d.inleft) {o o' f : Nat} (hf : passesLeft d o < f + 1) :
    passesLeft e o' < f := by
  have hpos := one_le_syncBytes hm (s.headD 0#8)
  unfold passesLeft at hf ⊢
  rw [hmain]
  split
  next hz => have := two_le_of_unitMain_zeroRange hm hs hz.1; omega
  next => omega

section
variable {p : Params}

theorem syncPhase_fuel (f f' : Nat) (d : Decoder) (o : Nat) (ho : o ≤ d.cap) (hf : passesLeft d o < f)
    (hf' : passesLeft d o < f') : syncPhase p f d o = syncPhase p f' d o := by
  induction f generalizing f' d o with
  | zero => omega
  | succ f ih =>
    obtain _ | f' := f'
    · omega
    rw [syncPhase, syncPhase]
    split
    · rfl
    split
    next hm =>
      exact zeroUnit_bind_congr ho fun hc =>
        ih f' _ _ (zerosPaid_le ho) (passesLeft_paidZeros hm hc hf) (passesLeft_paidZeros hm hc hf')
    next hlen hm =>
    refine Flow.access_congr fun b0 hb0 => ?_
    obtain ⟨-, hb0⟩ := (memRead_eq_ok_iff _ _ _ _ _).mp hb0
    have hpos := one_le_syncBytes hm (b0.headD 0#8)
    simp only
    split
    next hneed =>
      refine Flow.access_congr fun s hs => ?_
      obtain ⟨-, hs⟩ := (memRead_eq_ok_iff _ _ _ _ _).mp hs
      have hhead := readBytes?_headD_eq hs hb0 (by omega) (by omega)
      have hlen := readBytes?_length hs
      have hsl : s.length = syncBytes d (s.headD 0#8) := by rw [hhead, hlen]
      have hleft : d.remlen - syncBytes d (b0.headD 0#8) + d.inleft + s.length ≤ d.remlen + d.inleft := by omega
      exact runUnit_bind_congr hm hsl fun hc => dropRem_congr fun m => ih f' _ _ hc
        (passesLeft_lt_of_unitMain hm hsl rfl hleft hf) (passesLeft_lt_of_unitMain hm hsl rfl hleft hf')
    next =>
    split
    next hall =>
      split
      · rfl
      refine appendRem_congr fun m hsame => Flow.access_congr fun s hs => ?_
      obtain ⟨-, hs⟩ := (memRead_eq_ok_iff _ _ _ _ _).mp hs
      have hhead := readBytes?_headD_eq hs ((hsame 1 (by omega)).trans hb0) (by omega) (by omega)
      have hlen := readBytes?_length hs
      have hsl : s.length = syncBytes d (s.headD 0#8) := by rw [hhead, hlen]
      have hleft : 0 + (d.inlen - (d.inptr + (syncBytes d (b0.headD 0#8) - d.remlen))) + s.length ≤ d.remlen + d.inleft := by
        unfold Common.inleft at hall ⊢; omega
      exact runUnit_bind_congr hm hsl fun hc => ih f' _ _ hc
        (passesLeft_lt_of_unitMain (c := d) hm hsl rfl hleft hf) (passesLeft_lt_of_unitMain (c := d) hm hsl rfl hleft hf')
    next => rfl

theorem mainPhase_fuel (f f' : Nat) (d : Decoder) (o : Nat) (ho : o ≤ d.cap) (hf : passesLeft d o < f)
    (hf' : passesLeft d o < f') : mainPhase p f d o = mainPhase p f' d o := by
  induction f generalizing f' d o with
  | zero => omega
  | succ f ih =>
    obtain _ | f' := f'
    · omega
    have hunit : ∀ s n, d.main ≠ .zeroRange → s.length = syncBytes d (s.headD 0#8) → s.length = n → n ≤ d.inleft →
        ((runUnit d o s).bind fun d o => mainPhase p f { d with inptr := d.inptr + n } o) =
          (runUnit d o s).bind fun d o => mainPhase p f' { d with inptr := d.inptr + n } o := by
      rintro s n hm hs rfl hn
      have hleft : d.remlen + (d.inlen - (d.inptr + s.length)) + s.length ≤ d.remlen + d.inleft := by
        unfold Common.inleft at hn ⊢; omega
      exact runUnit_bind_congr hm hs fun hc => ih f' _ _ hc
        (passesLeft_lt_of_unitMain hm hs rfl hleft hf) (passesLeft_lt_of_unitMain hm hs rfl hleft hf')
    rw [mainPhase, mainPhase]
    cases hmain : d.main with
    | zeroRange =>
      exact zeroUnit_bind_congr ho fun hc =>
        ih f' _ _ (zerosPaid_le ho) (passesLeft_paidZeros hmain hc hf) (passesLeft_paidZeros hmain hc hf')
    | verbatimRange =>
      simp only
      split
      · rfl
      refine Flow.access_congr fun s hs => ?_
      have hsl := memRead_length hs
      rw [← (runUnit_eq d o s).2 hmain]
      exact hunit s 8 (by simp [hmain]) (by rw [hsl, syncBytes, hmain]) hsl (by omega)
    | start =>
      simp only
      split
      · rfl
      next hlong =>
      simp only [FAST_MARGIN] at hlong
      refine Flow.access_congr fun b0 hb0 => Flow.access_congr fun s hs => ?_
      obtain ⟨-, hb0⟩ := (memRead_eq_ok_iff _ _ _ _ _).mp hb0
      obtain ⟨-, hs⟩ := (memRead_eq_ok_iff _ _ _ _ _).mp hs
      have hone := one_le_head (b0.headD 0#8)
      have hten : head (b0.headD 0#8) ≤ 10 := head_le_ten _
      have hhead := readBytes?_headD_eq hs hb0 (by omega) (by omega)
      have hsl := readBytes?_length hs
      rw [← (runUnit_eq d o s).1 hmain]
      exact hunit s _ (by simp [hmain]) (by rw [hhead, hsl, syncBytes, hmain]) hsl (by omega)

end

end Sys2Proof.Machine

/-!
PROOFS for the decode machine family, part 3: a legal decoder's unread bytes, and what a run does with its next unit (R96, R99 to
R103).
-/

namespace Sys2Proof.Machine

open Sys2Proof.Config

/-! ### The unconsumed bytes `A(U)` (R96) -/

/-- A part of bytes that are held. -/
theorem readBytes?_part {m : Mem} {a n i k : Nat} {bs : List Byte} (h : readBytes? m a n = some bs) (hi : i + k ≤ n) :
    readBytes? m (a + i) k = some ((bs.drop i).take k) := by
  obtain ⟨hl, hb⟩ := (readBytes?_eq_some_iff m a n bs).mp h
  refine (readBytes?_eq_some_iff _ _ _ _).mpr ⟨by rw [List.length_take, List.length_drop]; omega, fun j hj => ?_⟩
  rw [Nat.add_assoc, hb _ (by omega), List.getElem?_take_of_lt hj, List.getElem?_drop]

theorem headD_take {bs : List Byte} {n : Nat} (hn : 0 < n) : (bs.take n).headD 0#8 = bs.headD 0#8 := by
  obtain _ | n := n
  · omega
  cases bs <;> rfl

/-- The bytes of the Remainder. -/
def Decoder.remainder (d : Decoder) : List Byte := (readBytes? d.rem 0 d.remlen).getD []

/-- The number of packed bytes the next unit takes. -/
def Decoder.need (d : Decoder) : Nat := syncBytes d (d.unconsumed.headD 0#8)

/-- The packed bytes of the next unit. -/
def Decoder.nextUnit (d : Decoder) : List Byte := d.unconsumed.take d.need

theorem Decoder.unconsumed_eq (d : Decoder) : d.unconsumed = d.remainder ++ d.unread := rfl

/-! ### The margin of phase 2 (R101) -/

section
variable {p : Params} {d : Decoder} {o : Nat}

/-- The number of chunk bytes from which on phase 2 takes a unit (R101). -/
def Decoder.margin (d : Decoder) : Nat := if d.main = .start then 10 else 8

theorem Decoder.need_le_margin (d : Decoder) : d.need ≤ d.margin := by
  have hten : d.need ≤ 10 := syncBytes_le_ten _ _
  unfold Decoder.margin
  split
  · exact hten
  next hm =>
    cases hmain : d.main with
    | start => exact absurd hmain hm
    | verbatimRange => rw [Decoder.need, syncBytes, hmain]
    | zeroRange => rw [Decoder.need, syncBytes, hmain]; exact Nat.zero_le 8

theorem Decoder.margin_le_ten (d : Decoder) : d.margin ≤ 10 := by
  unfold Decoder.margin
  split <;> omega

/-- Below the margin phase 2 returns (R101). -/
theorem mainPhase_short (p : Params) (f : Nat) (o : Nat) (hm : d.main ≠ .zeroRange) (hshort : d.inleft < d.margin) :
    mainPhase p (f + 1) d o = .back d o := by
  unfold Decoder.margin at hshort
  rw [mainPhase]
  cases hmain : d.main with
  | zeroRange => exact absurd hmain hm
  | verbatimRange =>
    rw [if_neg (by simp [hmain])] at hshort
    exact if_pos hshort
  | start =>
    rw [if_pos hmain] at hshort
    exact if_pos hshort

/-! ### The run that is not final, with any bound that covers it (R99) -/

/-- With an empty Remainder a run is phases 2 and 3. -/
theorem decRun_next_synced {f : Nat} (hrem : d.remlen = 0) (ho : o ≤ d.cap) (hf : passesLeft d o < f) :
    decRun p d o false = (mainPhase p f d o).bind fun e o => internPhase p e o := by
  rw [decRun, if_neg Bool.false_ne_true, decodeFuel, syncPhase_succ p _ d o hrem, Flow.bind_back, if_pos rfl,
    mainPhase_fuel (p := p) _ f d o ho (passesLeft_lt_decodeFuel d o) hf]

/-- Phases 2 and 3 follow phase 1, unless it has ended the run. -/
def afterSync (p : Params) (d : Decoder) (r : Nat × Bool) : DecFlow Nat :=
  if r.2 then (mainPhase p (decodeFuel d) d r.1).bind fun d o => internPhase p d o else .back d r.1

theorem decRun_next_eq {f : Nat} (ho : o ≤ d.cap) (hf : passesLeft d o < f) :
    decRun p d o false = (syncPhase p f d o).bind (afterSync p) := by
  rw [decRun, if_neg Bool.false_ne_true, syncPhase_fuel _ f d o ho (passesLeft_lt_decodeFuel d o) hf]
  rfl

/-- In a zero range a run pays (R91, R100 step 2, R101). -/
theorem decRun_next_zeroRange (hm : d.main = .zeroRange) (ho : o ≤ d.cap) :
    decRun p d o false = (zeroUnit d o).bind fun e o => decRun p e o false := by
  have hfuel := passesLeft_lt_decodeFuel d o
  by_cases hrem : d.remlen = 0
  · obtain ⟨-, -, hsame⟩ := paidZeros_sameReader d o
    rw [decRun_next_synced hrem ho hfuel, decodeFuel, mainPhase_zeroRange p _ d o hm, Flow.bind_assoc]
    exact zeroUnit_bind_congr ho fun hc =>
      (decRun_next_synced (hsame.trans hrem) (zerosPaid_le ho) (passesLeft_paidZeros hm hc hfuel)).symm
  · rw [decRun_next_eq ho hfuel, decodeFuel, syncPhase, if_neg hrem, if_pos hm, Flow.bind_assoc]
    exact zeroUnit_bind_congr ho fun hc => (decRun_next_eq (zerosPaid_le ho) (passesLeft_paidZeros hm hc hfuel)).symm

end

/-! ### What a legal decoder reads -/

section
variable {p : Params} {d : Decoder} {o : Nat}

theorem Common.Legal.readBytes?_unread {c : Common} (h : c.Legal p) : readBytes? c.input c.inptr c.inleft = some c.unread := by
  obtain ⟨_, -, hread, -⟩ := readChunk_of_legal h (a := c.inptr) (n := c.inleft) (by have := h.1; unfold Common.inleft; omega)
  unfold Common.inleft at hread ⊢
  rw [Common.unread, hread]
  rfl

theorem Common.Legal.unread_length {c : Common} (h : c.Legal p) : c.unread.length = c.inleft :=
  readBytes?_length h.readBytes?_unread

theorem Decoder.RangeLegal.readBytes?_remainder (h : d.RangeLegal) : readBytes? d.rem 0 d.remlen = some d.remainder := by
  obtain ⟨-, -, -, -, hheld⟩ := h
  obtain ⟨bs, hbs⟩ := Option.isSome_iff_exists.mp hheld
  rw [remainder, hbs]
  rfl

theorem Decoder.RangeLegal.cnt_of_start (h : d.RangeLegal) (hm : d.main = .start) : d.cnt = 0 := h.1 hm

theorem Decoder.RangeLegal.remainder_length (h : d.RangeLegal) : d.remainder.length = d.remlen :=
  readBytes?_length h.readBytes?_remainder

section
variable (h : d.SharedLegal p)
include h

theorem Decoder.SharedLegal.common : d.toCommon.Legal p := h.1

theorem Decoder.SharedLegal.range : d.RangeLegal := by
  obtain ⟨-, -, -, hrange⟩ := h
  exact hrange

theorem Decoder.SharedLegal.unconsumed_length : d.unconsumed.length = d.remlen + d.inleft := by
  rw [d.unconsumed_eq, List.length_append, h.range.remainder_length, h.common.unread_length]

/-- With an empty Remainder the unconsumed bytes are the unread ones. -/
theorem Decoder.SharedLegal.unconsumed_synced (hrem : d.remlen = 0) : d.unconsumed = d.unread := by
  rw [d.unconsumed_eq, List.eq_nil_of_length_eq_zero (h.range.remainder_length.trans hrem), List.nil_append]

/-- The next unit's bytes are the front of the Remainder and then of the chunk. -/
theorem Decoder.SharedLegal.nextUnit_eq : d.nextUnit = d.remainder.take d.need ++ d.unread.take (d.need - d.remlen) := by
  rw [Decoder.nextUnit, d.unconsumed_eq, List.take_append, h.range.remainder_length]

theorem Decoder.SharedLegal.nextUnit_length (hall : d.need ≤ d.remlen + d.inleft) : d.nextUnit.length = d.need := by
  rw [Decoder.nextUnit, List.length_take, h.unconsumed_length]; omega

/-- A complete next unit is what `RunUnit` asks for. -/
theorem Decoder.SharedLegal.nextUnit_needed (hm : d.main ≠ .zeroRange) (hall : d.need ≤ d.remlen + d.inleft) :
    d.nextUnit.length = syncBytes d (d.nextUnit.headD 0#8) := by
  have hpos : 1 ≤ d.need := one_le_syncBytes hm _
  rw [h.nextUnit_length hall, Decoder.nextUnit, headD_take hpos, Decoder.need]

/-- Part of the Remainder can be read. -/
theorem Decoder.SharedLegal.readRem_part {i k : Nat} (hi : i + k ≤ d.remlen) :
    readRem d i k = .ok ((d.remainder.drop i).take k) := by
  obtain ⟨-, -, hlen, -⟩ := h.range
  have hread := readBytes?_part h.range.readBytes?_remainder hi
  rw [Nat.zero_add] at hread
  exact memRead_of_held (by simp only [REM_CAP]; omega) hread

/-- The front of the unread chunk can be read. -/
theorem Decoder.SharedLegal.readBytes?_chunk {k : Nat} (hk : k ≤ d.inleft) :
    readBytes? d.input d.inptr k = some (d.unread.take k) := by
  have hread := readBytes?_part h.common.readBytes?_unread (i := 0) (k := k) (by omega)
  rwa [Nat.add_zero, List.drop_zero] at hread

theorem Decoder.SharedLegal.inptr_add_inleft : d.inptr + d.inleft = d.inlen := by
  obtain ⟨hcur, -⟩ := h.common
  unfold Common.inleft; omega

theorem Decoder.SharedLegal.readChunk_part {k : Nat} (hk : k ≤ d.inleft) :
    readChunk p d.toCommon d.inptr k = .ok (d.unread.take k) := by
  obtain ⟨-, hlen, -⟩ := h.common
  have hend := h.inptr_add_inleft
  exact memRead_of_held (by omega) (h.readBytes?_chunk hk)

/-- The rest of the chunk moves behind the Remainder (R100 step 5, R102). -/
theorem Decoder.SharedLegal.appendRem_rest {α : Type} (a : α) (hl : d.remlen + d.inleft ≤ REM_CAP) :
    (appendRem p d d.inleft fun e => (.back { e with remlen := d.remlen + d.inleft } a : DecFlow α)) =
      .back { d with rem := writeBytes d.rem d.remlen d.unread, remlen := d.remlen + d.inleft, inptr := d.inlen } a := by
  obtain ⟨-, hlen, -⟩ := h.common
  have hend := h.inptr_add_inleft
  rw [appendRem_of_held _ (by omega) hl h.common.readBytes?_unread, hend]

/-! ### Phases 1 and 2, one unit at a time (R100, R101) -/

/-- The first byte of the Remainder says what the next unit needs. -/
theorem Decoder.SharedLegal.syncBytes_remainder (hrem : 0 < d.remlen) :
    syncBytes d (((d.remainder.drop 0).take 1).headD 0#8) = d.need := by
  have hl := h.range.remainder_length
  rw [List.drop_zero, headD_take Nat.one_pos, Decoder.need, d.unconsumed_eq]
  cases hd : d.remainder with
  | nil => rw [hd, List.length_nil] at hl; omega
  | cons b bs => rfl

/-- A Remainder that holds the next unit gives it (R100 step 3). -/
theorem syncPhase_held (f : Nat) (hm : d.main ≠ .zeroRange) (hrem : 0 < d.remlen) (hneed : d.need ≤ d.remlen) :
    syncPhase p (f + 1) d o = (runUnit d o d.nextUnit).bind fun e o =>
      dropRem e d.need fun e => syncPhase p f e o := by
  rw [syncPhase, if_neg (by omega), if_neg hm, h.readRem_part (by omega), Flow.access_ok]
  simp only [h.syncBytes_remainder hrem]
  rw [if_pos hneed, h.readRem_part (by omega), Flow.access_ok, h.nextUnit_eq, List.drop_zero, Nat.sub_eq_zero_of_le hneed,
    List.take_zero, List.append_nil]

/-- A Remainder that the chunk can complete to the next unit gives it (R100 step 4). -/
theorem syncPhase_completed (f : Nat) (hm : d.main ≠ .zeroRange) (hrem : 0 < d.remlen) (hneed : d.remlen < d.need)
    (hall : d.need ≤ d.remlen + d.inleft) :
    syncPhase p (f + 1) d o = (runUnit d o d.nextUnit).bind fun e o =>
      syncPhase p f { e with
        rem := writeBytes d.rem d.remlen (d.unread.take (d.need - d.remlen)), remlen := 0,
        inptr := d.inptr + (d.need - d.remlen) } o := by
  have hten : d.need ≤ REM_CAP := syncBytes_le_ten _ _
  obtain ⟨-, hlen, -⟩ := h.common
  have hend := h.inptr_add_inleft
  have htaken : (d.unread.take (d.need - d.remlen)).length = d.need - d.remlen := by
    rw [List.length_take, h.common.unread_length]; omega
  have hunit := h.nextUnit_needed hm hall
  rw [syncPhase, if_neg (by omega), if_neg hm, h.readRem_part (by omega), Flow.access_ok]
  simp only [h.syncBytes_remainder hrem]
  rw [if_neg (by omega), if_pos hall]
  split
  next hfull => rw [runUnit_of_full _ hm hfull, Flow.bind_ended]
  next hspace =>
  have hread : readBytes? (writeBytes d.rem d.remlen (d.unread.take (d.need - d.remlen))) 0 d.need = some d.nextUnit := by
    have happ := readBytes?_writeBytes_append (bs := d.unread.take (d.need - d.remlen)) h.range.readBytes?_remainder
    rwa [Nat.zero_add, htaken, Nat.add_sub_cancel' (by omega),
      ← List.take_of_length_le (l := d.remainder) (i := d.need) (by rw [h.range.remainder_length]; omega),
      ← h.nextUnit_eq] at happ
  rw [appendRem_of_held _ (by omega) (by omega) (h.readBytes?_chunk (by omega)), readRem, memRead_of_held (by omega) hread,
    Flow.access_ok, runUnit_of_space hm hunit (by omega), runUnit_of_space (by exact hm) (by exact hunit) (by simpa using hspace)]
  rfl

/-- A Remainder that stays short of the next unit takes the rest of the chunk (R100 step 5). -/
theorem syncPhase_short (f : Nat) (hm : d.main ≠ .zeroRange) (hrem : 0 < d.remlen) (hshort : d.remlen + d.inleft < d.need) :
    syncPhase p (f + 1) d o = .back
      { d with rem := writeBytes d.rem d.remlen d.unread, remlen := d.remlen + d.inleft, inptr := d.inlen } (o, false) := by
  have hten : d.need ≤ REM_CAP := syncBytes_le_ten _ _
  rw [syncPhase, if_neg (by omega), if_neg hm, h.readRem_part (by omega), Flow.access_ok]
  simp only [h.syncBytes_remainder hrem]
  rw [if_neg (by omega), if_neg (by omega), h.appendRem_rest _ (by omega)]

/-- From the margin on, phase 2 takes the next unit from the chunk (R101). -/
theorem mainPhase_unit (f : Nat) (hm : d.main ≠ .zeroRange) (hrem : d.remlen = 0) (hlong : d.margin ≤ d.inleft) :
    mainPhase p (f + 1) d o = (runUnit d o d.nextUnit).bind fun e o =>
      mainPhase p f { e with inptr := e.inptr + d.need } o := by
  have hall := (d.need_le_margin).trans hlong
  have hun := h.unconsumed_synced hrem
  have hread := h.readChunk_part hall
  rw [Decoder.margin] at hlong
  rw [Decoder.nextUnit, hun, mainPhase]
  cases hmain : d.main with
  | zeroRange => exact absurd hmain hm
  | verbatimRange =>
    have hneed : d.need = 8 := by rw [Decoder.need, syncBytes, hmain]
    rw [hneed] at hread ⊢
    rw [if_neg (by simp [hmain])] at hlong
    simp only
    rw [if_neg (by omega), hread, Flow.access_ok, (runUnit_eq d o _).2 hmain]
  | start =>
    have hneed : d.need = head (((d.unread).take 1).headD 0#8) := by
      rw [Decoder.need, syncBytes, hmain, hun, headD_take Nat.one_pos]
    rw [if_pos hmain] at hlong
    simp only [FAST_MARGIN]
    rw [if_neg (by omega), h.readChunk_part (by omega), Flow.access_ok]
    simp only [← hneed]
    rw [hread, Flow.access_ok, (runUnit_eq d o _).1 hmain]

/-! ### The run that is not final (R99 to R102) -/

/-- With an empty Remainder and a chunk below the margin a run interns the chunk's rest and returns (R102). -/
theorem decRun_next_interns (hm : d.main ≠ .zeroRange) (ho : o ≤ d.cap) (hrem : d.remlen = 0)
    (hshort : d.inleft < d.margin) : decRun p d o false =
      .back { d with rem := writeBytes d.rem d.remlen d.unread, remlen := d.remlen + d.inleft, inptr := d.inlen } o := by
  have hten := d.margin_le_ten
  have hrest := h.appendRem_rest o (by simp only [REM_CAP]; omega)
  rw [decRun_next_synced hrem ho (passesLeft_lt_decodeFuel d o), decodeFuel, mainPhase_short p _ o hm hshort, Flow.bind_back]
  rw [hrem, Nat.zero_add] at hrest ⊢
  rw [← hrest, internPhase]
  congr 1
  rw [← hrem]

/-- With an empty Remainder and a chunk from the margin on a run takes the next unit from the chunk (R101). -/
theorem decRun_next_unit (hm : d.main ≠ .zeroRange) (ho : o ≤ d.cap) (hrem : d.remlen = 0) (hlong : d.margin ≤ d.inleft) :
    decRun p d o false = (runUnit d o d.nextUnit).bind fun e o => decRun p { e with inptr := e.inptr + d.need } o false := by
  have hfuel := passesLeft_lt_decodeFuel d o
  have hall := (d.need_le_margin).trans hlong
  have hunit := h.nextUnit_needed hm (by omega)
  have hsl := h.nextUnit_length (by omega)
  have hleft : d.remlen + (d.inlen - (d.inptr + d.need)) + d.nextUnit.length ≤ d.remlen + d.inleft := by
    unfold Common.inleft at hall ⊢; omega
  rw [decRun_next_synced hrem ho hfuel, decodeFuel, mainPhase_unit h _ hm hrem hlong, Flow.bind_assoc]
  refine runUnit_bind_congr hm hunit fun hc => ?_
  rw [decRun_next_synced (by exact hrem) (by exact hc) (passesLeft_lt_of_unitMain hm hunit rfl hleft hfuel)]

/-- A Remainder that stays short of the next unit takes the chunk's rest, and the run returns (R100 step 5). -/
theorem decRun_next_appends (hm : d.main ≠ .zeroRange) (ho : o ≤ d.cap) (hrem : 0 < d.remlen)
    (hshort : d.remlen + d.inleft < d.need) : decRun p d o false =
      .back { d with rem := writeBytes d.rem d.remlen d.unread, remlen := d.remlen + d.inleft, inptr := d.inlen } o := by
  rw [decRun_next_eq ho (passesLeft_lt_decodeFuel d o), decodeFuel, syncPhase_short h _ hm hrem hshort, Flow.bind_back]
  rfl

/-- A Remainder that holds the next unit gives it up, and the run goes on (R100 step 3). -/
theorem decRun_next_held (hm : d.main ≠ .zeroRange) (ho : o ≤ d.cap) (hrem : 0 < d.remlen) (hneed : d.need ≤ d.remlen) :
    decRun p d o false = (runUnit d o d.nextUnit).bind fun e o => decRun p { e with
      rem := writeBytes d.rem 0 (d.remainder.drop d.need), remlen := d.remlen - d.need } o false := by
  have hfuel := passesLeft_lt_decodeFuel d o
  have hunit := h.nextUnit_needed hm (by omega)
  have hsl := h.nextUnit_length (by omega)
  obtain ⟨-, -, hlen, -⟩ := h.range
  have hrest : readBytes? d.rem d.need (d.remlen - d.need) = some (d.remainder.drop d.need) := by
    have hpart := readBytes?_part h.range.readBytes?_remainder (i := d.need) (k := d.remlen - d.need) (by omega)
    rwa [Nat.zero_add, List.take_of_length_le (by rw [List.length_drop, h.range.remainder_length])] at hpart
  rw [decRun_next_eq ho hfuel, decodeFuel, syncPhase_held h _ hm hrem hneed, Flow.bind_assoc]
  refine runUnit_bind_congr hm hunit fun hc => ?_
  rw [dropRem_of_held _ (by exact hneed) (by simp only [REM_CAP]; exact hlen.trans (by omega)) (by exact hrest)]
  rw [decRun_next_eq (by exact hc) (passesLeft_lt_of_unitMain hm hunit rfl ?_ hfuel)]
  · rfl
  · show d.remlen - d.need + d.inleft + _ ≤ _
    omega

/-- A Remainder that the chunk completes to the next unit gives it up, and the run goes on (R100 step 4). -/
theorem decRun_next_completed (hm : d.main ≠ .zeroRange) (ho : o ≤ d.cap) (hrem : 0 < d.remlen) (hneed : d.remlen < d.need)
    (hall : d.need ≤ d.remlen + d.inleft) :
    decRun p d o false = (runUnit d o d.nextUnit).bind fun e o => decRun p { e with
      rem := writeBytes d.rem d.remlen (d.unread.take (d.need - d.remlen)), remlen := 0,
      inptr := d.inptr + (d.need - d.remlen) } o false := by
  have hfuel := passesLeft_lt_decodeFuel d o
  have hunit := h.nextUnit_needed hm hall
  have hsl := h.nextUnit_length hall
  have hleft : 0 + (d.inlen - (d.inptr + (d.need - d.remlen))) + d.nextUnit.length ≤ d.remlen + d.inleft := by
    unfold Common.inleft at hall ⊢; omega
  rw [decRun_next_eq ho hfuel, decodeFuel, syncPhase_completed h _ hm hrem hneed hall, Flow.bind_assoc]
  refine runUnit_bind_congr hm hunit fun hc => ?_
  rw [decRun_next_eq (by exact hc) (passesLeft_lt_of_unitMain hm hunit rfl hleft hfuel)]

end
end

/-- Settles O59: the lemmas on a run that is not final, clause by clause. -/
theorem decodeRunTakesUnitsByThePhases : Obligations.DecodeRunTakesUnitsByThePhases := by
  unfold Obligations.DecodeRunTakesUnitsByThePhases
  intro p d o h _ _ ho
  have hremainder : d.unconsumed.take d.remlen = d.remainder := by
    rw [d.unconsumed_eq, List.take_left' h.range.remainder_length]
  refine ⟨fun hm => decRun_next_zeroRange hm ho, fun hm hrem hshort => ?_, fun hm hrem hlong => ?_,
    fun hm hrem hshort => decRun_next_appends h hm ho hrem hshort, fun hm hrem hneed => ?_,
    fun hm hrem hneed hall => decRun_next_completed h hm ho hrem hneed hall⟩
  · have hrun := decRun_next_interns h hm ho hrem hshort
    simp only [hrem, Nat.zero_add] at hrun
    exact hrun
  · have hrun := decRun_next_unit h hm ho hrem hlong
    rw [Decoder.nextUnit, h.unconsumed_synced hrem] at hrun
    exact hrun
  · rw [hremainder]
    exact decRun_next_held h hm ho hrem hneed

end Sys2Proof.Machine

/-!
PROOFS for the decode machine family, part 4: the drain, and one step of a run, final or not (R99 to R103).
-/

namespace Sys2Proof.Machine

open Sys2Proof.Config

/-! ### The drain, one unit at a time (R103) -/

section
variable {p : Params} {d : Decoder} {o : Nat}

/-- The first byte of what is left says what the next unit needs. -/
theorem Decoder.SharedLegal.drain_first (h : d.SharedLegal p) (hleft : d.remlen + d.inleft ≠ 0) :
    ∃ b0, (if 0 < d.remlen then readRem d 0 1 else readChunk p d.toCommon d.inptr 1) = .ok b0 ∧
      syncBytes d (b0.headD 0#8) = d.need := by
  split
  next hrem => exact ⟨_, h.readRem_part (by omega), h.syncBytes_remainder hrem⟩
  next hrem =>
    refine ⟨_, h.readChunk_part (by omega), ?_⟩
    rw [headD_take Nat.one_pos, Decoder.need, h.unconsumed_synced (by omega)]

/-- The drain returns when the next unit is not complete. -/
theorem drain_short (h : d.SharedLegal p) (f : Nat) (o : Nat) (hm : d.main ≠ .zeroRange)
    (hshort : d.remlen + d.inleft < d.need) : drain p (f + 1) d o = .back d o := by
  by_cases hleft : d.remlen + d.inleft = 0
  · exact drain_nothing_left p f d o hm hleft
  · obtain ⟨b0, hb0, hneed⟩ := h.drain_first hleft
    rw [drain, if_neg hm, if_neg hleft, hb0, Flow.access_ok]
    simp only [hneed]
    exact if_pos hshort

/-- What is left of the Remainder behind the next unit. -/
theorem Decoder.SharedLegal.readBytes?_rest (h : d.SharedLegal p) :
    readBytes? d.rem (min d.need d.remlen) (d.remlen - d.need) = some (d.remainder.drop d.need) := by
  have hl := h.range.remainder_length
  have hpart := readBytes?_part h.range.readBytes?_remainder (i := min d.need d.remlen) (k := d.remlen - d.need) (by omega)
  rw [Nat.zero_add, List.take_of_length_le (by rw [List.length_drop]; omega)] at hpart
  rw [hpart]
  obtain hle | hle := Nat.le_total d.need d.remlen
  · rw [Nat.min_eq_left hle]
  · rw [Nat.min_eq_right hle, List.drop_of_length_le (by omega), List.drop_of_length_le (by omega)]

/-- The drain takes a complete unit, from the Remainder and from the chunk. -/
theorem drain_unit (h : d.SharedLegal p) (f : Nat) (hm : d.main ≠ .zeroRange) (hall : d.need ≤ d.remlen + d.inleft) :
    drain p (f + 1) d o = (runUnit d o d.nextUnit).bind fun e o => drain p f { e with
      rem := writeBytes d.rem 0 (d.remainder.drop d.need), remlen := d.remlen - d.need,
      inptr := d.inptr + (d.need - d.remlen) } o := by
  have hpos : 1 ≤ d.need := one_le_syncBytes hm _
  have hunit := h.nextUnit_needed hm hall
  obtain ⟨-, -, hlen, -⟩ := h.range
  obtain ⟨b0, hb0, hneed⟩ := h.drain_first (by omega)
  rw [drain, if_neg hm, if_neg (by omega), hb0, Flow.access_ok]
  simp only [hneed]
  rw [if_neg (by omega)]
  split
  next hfull => rw [runUnit_of_full _ hm hfull, Flow.bind_ended]
  next hspace =>
    have hbytes : (d.remainder.drop 0).take (min d.need d.remlen) ++ d.unread.take (d.need - d.remlen) = d.nextUnit := by
      rw [h.nextUnit_eq, List.drop_zero, ← h.range.remainder_length, List.take_eq_take_min (i := d.need)]
    have hrest : d.remlen - min d.need d.remlen = d.remlen - d.need := by omega
    have hback : d.need - min d.need d.remlen = d.need - d.remlen := by omega
    rw [h.readRem_part (by omega), Flow.access_ok, hback, h.readChunk_part (by omega), Flow.access_ok, hbytes,
      dropRem_of_held _ (by omega) (by simp only [REM_CAP]; omega) (by rw [hrest]; exact h.readBytes?_rest), hrest,
      runUnit_of_space hm hunit (by omega), runUnit_of_space (by exact hm) (by exact hunit) (by simpa using hspace)]
    rfl

end

/-! ### The next unit taken -/

/-- The decoder after its next unit has been stored at `o` and its bytes have been taken, the Remainder's before the chunk's; `m` is
the Remainder's memory. -/
def tookUnit (d : Decoder) (o : Nat) (m : Mem) : Decoder :=
  { afterUnit d o d.nextUnit with rem := m, remlen := d.remlen - d.need, inptr := d.inptr + (d.need - d.remlen) }

/-- A memory that begins with what is left of the Remainder behind the next unit. -/
def Decoder.KeepsRest (d : Decoder) (m : Mem) : Prop :=
  memWithin m REM_CAP ∧ readBytes? m 0 (d.remlen - d.need) = some (d.remainder.drop d.need)

/-- The decoder after the chunk's rest has moved behind the Remainder. -/
def interned (d : Decoder) : Decoder :=
  { d with rem := writeBytes d.rem d.remlen d.unread, remlen := d.remlen + d.inleft, inptr := d.inlen }

section
variable {p : Params} {d : Decoder} {o : Nat}

/-- The Remainder's memory after the rest of it has moved down. -/
theorem Decoder.SharedLegal.keepsRest_shift (h : d.SharedLegal p) :
    d.KeepsRest (writeBytes d.rem 0 (d.remainder.drop d.need)) := by
  obtain ⟨-, -, hlen, hmem, -⟩ := h.range
  have hl : (d.remainder.drop d.need).length = d.remlen - d.need := by rw [List.length_drop, h.range.remainder_length]
  refine ⟨memWithin_writeBytes hmem (by simp only [REM_CAP]; omega), ?_⟩
  rw [← hl]
  exact readBytes?_writeBytes_self _ _ _

/-- A Remainder that has been taken whole leaves nothing to hold. -/
theorem Decoder.SharedLegal.keepsRest_of_taken (h : d.SharedLegal p) {m : Mem} (hm : memWithin m REM_CAP)
    (hneed : d.remlen ≤ d.need) : d.KeepsRest m := by
  refine ⟨hm, ?_⟩
  rw [Nat.sub_eq_zero_of_le hneed, List.drop_of_length_le (by rw [h.range.remainder_length]; omega)]
  rfl

/-- A run stays in order over a unit that has space. -/
theorem afterUnit_running {s : List Byte} (h : DecRunning p d o) (hm : d.main ≠ .zeroRange)
    (hs : s.length = syncBytes d (s.headD 0#8)) (hc : o + 8 ≤ d.cap) : DecRunning p (afterUnit d o s) (o + 8) := by
  have hran := runUnit_meets h hs hm
  rw [runUnit_of_space hm hs hc] at hran
  exact hran.running

/-- A run stays in order over a zero run that has space. -/
theorem paidZeros_running (h : DecRunning p d o) (hm : d.main = .zeroRange) (hc : o < d.cap) :
    DecRunning p (paidZeros d o) (o + zerosPaid d o) := by
  have hran := zeroUnit_meets h hm
  rw [zeroUnit_of_space hc] at hran
  exact hran.1

/-- A run stays in order when its next unit is taken. -/
theorem tookUnit_running {m : Mem} (h : DecRunning p d o) (hm : d.main ≠ .zeroRange)
    (hall : d.need ≤ d.remlen + d.inleft) (hc : o + 8 ≤ d.cap) (hrest : d.KeepsRest m) :
    DecRunning p (tookUnit d o m) (o + 8) := by
  have hend := h.legal.inptr_add_inleft
  obtain ⟨-, -, hlen, -⟩ := h.range
  obtain ⟨hmem, hread⟩ := hrest
  exact (afterUnit_running h hm (h.legal.nextUnit_needed hm hall) hc).setReader
    (show d.inptr + (d.need - d.remlen) ≤ d.inlen by omega) (by omega) hmem (by rw [bytesHeld, hread]; rfl)

/-- Taking the next unit leaves fewer passes. -/
theorem passesLeft_tookUnit {m : Mem} {f : Nat} (h : DecRunning p d o) (hm : d.main ≠ .zeroRange)
    (hall : d.need ≤ d.remlen + d.inleft) (hf : passesLeft d o < f + 1) : passesLeft (tookUnit d o m) (o + 8) < f := by
  have hsl := h.legal.nextUnit_length hall
  refine passesLeft_lt_of_unitMain hm (h.legal.nextUnit_needed hm hall) rfl ?_ hf
  show d.remlen - d.need + (d.inlen - (d.inptr + (d.need - d.remlen))) + _ ≤ _
  unfold Common.inleft at hall ⊢
  omega

/-- The bound of the drain does not matter once it covers the passes (log 4). -/
theorem drain_fuel (f f' : Nat) (d : Decoder) (o : Nat) (h : DecRunning p d o) (hf : passesLeft d o < f)
    (hf' : passesLeft d o < f') : drain p f d o = drain p f' d o := by
  induction f generalizing f' d o with
  | zero => omega
  | succ f ih =>
    obtain _ | f' := f'
    · omega
    by_cases hm : d.main = .zeroRange
    · rw [drain_zeroRange p f d o hm, drain_zeroRange p f' d o hm]
      exact zeroUnit_bind_congr h.fits fun hc => ih f' _ _ (paidZeros_running h hm hc) (passesLeft_paidZeros hm hc hf)
        (passesLeft_paidZeros hm hc hf')
    by_cases hall : d.need ≤ d.remlen + d.inleft
    · rw [drain_unit h.legal f hm hall, drain_unit h.legal f' hm hall]
      exact runUnit_bind_congr hm (h.legal.nextUnit_needed hm hall) fun hc =>
        ih f' _ _ (tookUnit_running h hm hall hc h.legal.keepsRest_shift) (passesLeft_tookUnit h hm hall hf)
          (passesLeft_tookUnit h hm hall hf')
    · rw [drain_short h.legal f o hm (by omega), drain_short h.legal f' o hm (by omega)]

/-! ### One step of a run, final or not -/

/-- In a zero range a run pays. -/
theorem decRun_zeroRange (final : Bool) (h : DecRunning p d o) (hm : d.main = .zeroRange) :
    decRun p d o final = (zeroUnit d o).bind fun e o => decRun p e o final := by
  cases final with
  | false => exact decRun_next_zeroRange hm h.fits
  | true =>
    have hfuel := passesLeft_lt_decodeFuel d o
    rw [decRun, if_pos rfl, decodeFuel, drain_zeroRange p _ d o hm]
    refine zeroUnit_bind_congr h.fits fun hc => ?_
    rw [decRun, if_pos rfl]
    exact drain_fuel _ _ _ _ (paidZeros_running h hm hc) (passesLeft_paidZeros hm hc hfuel) (passesLeft_lt_decodeFuel _ _)

/-- The final run takes a complete next unit (R103). -/
theorem decRun_flush_unit (h : DecRunning p d o) (hm : d.main ≠ .zeroRange) (hall : d.need ≤ d.remlen + d.inleft) :
    decRun p d o true = (runUnit d o d.nextUnit).bind fun e o => decRun p { e with
      rem := writeBytes d.rem 0 (d.remainder.drop d.need), remlen := d.remlen - d.need,
      inptr := d.inptr + (d.need - d.remlen) } o true := by
  have hfuel := passesLeft_lt_decodeFuel d o
  rw [decRun, if_pos rfl, decodeFuel, drain_unit h.legal _ hm hall]
  refine runUnit_bind_congr hm (h.legal.nextUnit_needed hm hall) fun hc => ?_
  rw [decRun, if_pos rfl]
  exact drain_fuel _ _ _ _ (tookUnit_running h hm hall hc h.legal.keepsRest_shift) (passesLeft_tookUnit h hm hall hfuel)
    (passesLeft_lt_decodeFuel _ _)

/-- A run takes the next unit when it is complete and the phase it is in takes it: the drain and phase 1 always, phase 2 from the
margin on. -/
abbrev Decoder.takesNext (d : Decoder) (final : Bool) : Prop :=
  d.need ≤ d.remlen + d.inleft ∧ (final = true ∨ 0 < d.remlen ∨ d.margin ≤ d.inleft)

theorem Decoder.takesNext_of_margin_le {d : Decoder} (final : Bool) (h : d.margin ≤ d.inleft) : d.takesNext final :=
  ⟨by have := d.need_le_margin; omega, .inr (.inr h)⟩

/-- However a run takes its next unit, it goes on without the unit's bytes. -/
theorem decRun_unit {final : Bool} (h : DecRunning p d o) (hm : d.main ≠ .zeroRange) (ht : d.takesNext final) :
    ∃ m, d.KeepsRest m ∧ decRun p d o final = (runUnit d o d.nextUnit).bind fun e o => decRun p { e with
      rem := m, remlen := d.remlen - d.need, inptr := d.inptr + (d.need - d.remlen) } o final := by
  obtain ⟨hall, hgo⟩ := ht
  have hlegal := h.legal
  have hunit := hlegal.nextUnit_needed hm hall
  obtain ⟨-, -, hlen, hmem, -⟩ := hlegal.range
  cases final with
  | true => exact ⟨_, hlegal.keepsRest_shift, decRun_flush_unit h hm hall⟩
  | false =>
    by_cases hrem : d.remlen = 0
    · refine ⟨d.rem, hlegal.keepsRest_of_taken hmem (by omega), ?_⟩
      rw [decRun_next_unit hlegal hm h.fits hrem (by simpa [hrem] using hgo)]
      have hlen' : d.remlen - d.need = d.remlen := by omega
      have hptr : d.need - d.remlen = d.need := by omega
      refine runUnit_bind_congr hm hunit fun _ => ?_
      rw [hlen', hptr]
      rfl
    obtain hneed | hneed := Nat.lt_or_ge d.remlen d.need
    · have htaken : (d.unread.take (d.need - d.remlen)).length ≤ d.need - d.remlen := List.length_take_le _ _
      have hten : d.need ≤ REM_CAP := syncBytes_le_ten _ _
      have hmem' : memWithin (writeBytes d.rem d.remlen (d.unread.take (d.need - d.remlen))) REM_CAP :=
        memWithin_writeBytes hmem (by omega)
      refine ⟨_, hlegal.keepsRest_of_taken hmem' (Nat.le_of_lt hneed), ?_⟩
      rw [decRun_next_completed hlegal hm h.fits (by omega) hneed hall]
      refine runUnit_bind_congr hm hunit fun _ => ?_
      rw [Nat.sub_eq_zero_of_le (Nat.le_of_lt hneed)]
    · refine ⟨_, hlegal.keepsRest_shift, ?_⟩
      rw [decRun_next_held hlegal hm h.fits (by omega) hneed]
      refine runUnit_bind_congr hm hunit fun _ => ?_
      rw [Nat.sub_eq_zero_of_le hneed]
      rfl

/-- A run that may take its next unit ends where there is no space for a word, and else goes on from `tookUnit`. -/
theorem decRun_takes {final : Bool} (h : DecRunning p d o) (hm : d.main ≠ .zeroRange) (ht : d.takesNext final) :
    (d.cap < o + 8 ∧ decRun p d o final = .ended d o) ∨
      (o + 8 ≤ d.cap ∧ ∃ m, d.KeepsRest m ∧ decRun p d o final = decRun p (tookUnit d o m) (o + 8) final) := by
  obtain ⟨m, hrest, he⟩ := decRun_unit h hm ht
  obtain hc | hc := Nat.lt_or_ge d.cap (o + 8)
  · exact .inl ⟨hc, by rw [he, runUnit_of_full _ hm hc, Flow.bind_ended]⟩
  · exact .inr ⟨hc, m, hrest, by rw [he, runUnit_of_space hm (h.legal.nextUnit_needed hm ht.1) hc]; rfl⟩

/-- A final run returns as it is when its next unit is not complete (R103). -/
theorem decRun_flush_short (h : DecRunning p d o) (hm : d.main ≠ .zeroRange) (hshort : d.remlen + d.inleft < d.need) :
    decRun p d o true = .back d o := by
  rw [decRun, if_pos rfl, decodeFuel, drain_short h.legal _ o hm hshort]

/-- A run that is not final interns the chunk's rest and returns when it may not take its next unit (R100 step 5, R102). -/
theorem decRun_next_rest (h : DecRunning p d o) (hm : d.main ≠ .zeroRange) (ht : ¬ d.takesNext false) :
    decRun p d o false = .back (interned d) o := by
  have hmargin := d.need_le_margin
  by_cases hrem : d.remlen = 0
  · refine decRun_next_interns h.legal hm h.fits hrem ?_
    by_contra hlong
    exact ht ⟨by omega, .inr (.inr (by omega))⟩
  · refine decRun_next_appends h.legal hm h.fits (by omega) ?_
    by_contra hall
    exact ht ⟨by omega, .inr (.inl (by omega))⟩

end

end Sys2Proof.Machine

/-!
PROOFS for the decode machine family, part 5: what a run decodes. From any point of a run it stores the complete units in stream
order, until the output is full or there is no unit it may take (R93, R96, R107).
-/

namespace Sys2Proof.Machine

open Sys2Proof.Config

/-! ### Output put in front of the units still to come -/

@[simp] theorem before_nil (r : List Byte × Bool) : before [] r = r := rfl

@[simp] theorem before_before (a b : List Byte) (r : List Byte × Bool) : before a (before b r) = before (a ++ b) r := by
  simp [before]

theorem zeros_append (k n : Nat) : zeros k ++ zeros n = zeros (k + n) := List.replicate_append_replicate

/-- A zero range owes its zeros, however many of them have been paid (R91). -/
theorem unitsFrom_zeroRange_paid {k n : Nat} (hk : k ≤ n) (s : List Byte) :
    unitsFrom .zeroRange n s =
      before (zeros k) (unitsFrom (if n - k = 0 then .start else .zeroRange) (n - k) s) := by
  split
  next hpaid =>
    obtain rfl : k = n := by omega
    rw [unitsFrom_zeroRange, Nat.sub_self]
  next =>
    rw [unitsFrom_zeroRange, unitsFrom_zeroRange, before_before, zeros_append, Nat.add_sub_cancel' hk]

theorem Common.MovedTo.trans {c c' c'' : Common} (h : c.MovedTo c') (h' : c'.MovedTo c'') : c.MovedTo c'' := by
  obtain ⟨_, rfl⟩ := h
  obtain ⟨q, rfl⟩ := h'
  exact ⟨q, rfl⟩

/-! ### What a part of a run has done -/

/-- From `d` at the output offset `o`, a part of a run has stored the output `out` and left `e`: however the stream goes on, `out` is
the front of the output there was to come, and the rest is still to come; with no output, bytes have only moved into the
Remainder. -/
structure Decodes (p : Params) (d : Decoder) (o : Nat) (out : List Byte) (e : Decoder) : Prop where
  running : DecRunning p e (o + out.length)
  moved : d.toCommon.MovedTo e.toCommon
  stored : readBytes? e.outm 0 (o + out.length) = (readBytes? d.outm 0 o).map fun old => old ++ out
  units : ∀ more, d.outlook more = before out (e.outlook more)
  idle : out = [] → e.unconsumed = d.unconsumed ∧ e.main = d.main ∧ e.cnt = d.cnt ∧ e.outm = d.outm

section
variable {p : Params} {d e f : Decoder} {o : Nat} {out out' : List Byte}

theorem Decodes.refl (h : DecRunning p d o) : Decodes p d o [] d where
  running := h
  moved := Common.MovedTo.refl _
  stored := by simp
  units _ := rfl
  idle _ := ⟨rfl, rfl, rfl, rfl⟩

theorem Decodes.trans (h : Decodes p d o out e) (h' : Decodes p e (o + out.length) out' f) :
    Decodes p d o (out ++ out') f where
  running := by
    rw [List.length_append, ← Nat.add_assoc]; exact h'.running
  moved := h.moved.trans h'.moved
  stored := by
    rw [List.length_append, ← Nat.add_assoc, h'.stored, h.stored, Option.map_map]
    simp only [Function.comp_def, List.append_assoc]
  units more := by rw [h.units, h'.units, before_before]
  idle hnil := by
    obtain ⟨rfl, rfl⟩ := List.append_eq_nil_iff.mp hnil
    obtain ⟨hun, hmain, hcnt, hout⟩ := h.idle rfl
    obtain ⟨hun', hmain', hcnt', hout'⟩ := h'.idle rfl
    exact ⟨hun'.trans hun, hmain'.trans hmain, hcnt'.trans hcnt, hout'.trans hout⟩

theorem Decodes.cap_eq (h : Decodes p d o out e) : e.cap = d.cap := by
  obtain ⟨q, hq⟩ := h.moved
  rw [hq]

/-- What a run has stored before an output is held when the output is stored behind it. -/
theorem DecRunning.stored (h : DecRunning p d o) (bs : List Byte) :
    readBytes? (writeBytes d.outm o bs) 0 (o + bs.length) = (readBytes? d.outm 0 o).map fun old => old ++ bs := by
  obtain ⟨old, hold⟩ := Option.isSome_iff_exists.mp h.held
  have happ := readBytes?_writeBytes_append (bs := bs) hold
  rw [Nat.zero_add] at happ
  rw [happ, hold]
  rfl

theorem Decoder.outlook_eq (d : Decoder) (more : List Byte) :
    d.outlook more = unitsFrom d.main d.cnt (d.unconsumed ++ more) := rfl

/-! ### The three things a run does: a zero run, a unit, interning -/

/-- A zero run stores the zeros it pays. -/
theorem decodes_paidZeros (h : DecRunning p d o) (hm : d.main = .zeroRange) (hc : o < d.cap) :
    Decodes p d o (zeros (zerosPaid d o)) (paidZeros d o) ∧ zeros (zerosPaid d o) ≠ [] := by
  have hl : (zeros (zerosPaid d o)).length = zerosPaid d o := List.length_replicate
  obtain ⟨hcommon, hrem, hremlen⟩ := paidZeros_sameReader d o
  obtain ⟨-, hrange, -⟩ := h.range
  obtain ⟨-, hcnt, -⟩ := hrange (by simp [hm])
  have hne : zeros (zerosPaid d o) ≠ [] := by
    rw [← List.length_pos_iff, hl, zerosPaid]; omega
  have hun : (paidZeros d o).unconsumed = d.unconsumed := by
    rw [Decoder.unconsumed, Decoder.unconsumed, hrem, hremlen, hcommon]
  refine ⟨⟨by rw [hl]; exact paidZeros_running h hm hc, ?_, ?_, fun more => ?_, fun hnil => absurd hnil hne⟩, hne⟩
  · rw [hcommon]; exact Common.MovedTo.refl _
  · rw [paidZeros, payRange_outm]; exact h.stored _
  · rw [Decoder.outlook_eq, Decoder.outlook_eq, hun, hm, unitsFrom_zeroRange_paid (k := zerosPaid d o) (Nat.min_le_left _ _),
      paidZeros, payRange_main, payRange_cnt]
    simp only [hm]

theorem unread_advance {c : Common} (h : c.Legal p) {k : Nat} (hk : k ≤ c.inleft) :
    Common.unread { c with inptr := c.inptr + k } = c.unread.drop k := by
  have hl := h.unread_length
  have hpart := readBytes?_part h.readBytes?_unread (i := k) (k := c.inleft - k) (by omega)
  have hleft : c.inlen - (c.inptr + k) = c.inleft - k := by unfold Common.inleft; omega
  rw [List.take_of_length_le (by rw [List.length_drop]; omega)] at hpart
  rw [Common.unread]
  simp only [hleft]
  rw [hpart]
  rfl

/-- Taking the next unit takes its bytes out of the unconsumed ones. -/
theorem unconsumed_tookUnit {m : Mem} (h : d.SharedLegal p) (hall : d.need ≤ d.remlen + d.inleft) (hrest : d.KeepsRest m) :
    (tookUnit d o m).unconsumed = d.unconsumed.drop d.need := by
  have hrem : (tookUnit d o m).remainder = d.remainder.drop d.need := by
    rw [Decoder.remainder]
    exact congrArg (Option.getD · []) hrest.2
  have hunread : (tookUnit d o m).unread = d.unread.drop (d.need - d.remlen) := unread_advance h.common (by omega)
  rw [Decoder.unconsumed_eq, hrem, hunread, d.unconsumed_eq, List.drop_append, h.range.remainder_length]

/-- A complete next unit is the first of the stream, however it goes on. -/
theorem outlook_nextUnit (h : d.SharedLegal p) (hm : d.main ≠ .zeroRange) (hall : d.need ≤ d.remlen + d.inleft)
    (more : List Byte) :
    d.outlook more = before (unitWord d.main d.nextUnit) (unitsFrom (unitMain d.main d.cnt d.nextUnit)
      (unitCnt d.main d.cnt d.nextUnit) (d.unconsumed.drop d.need ++ more)) := by
  have hpos : 1 ≤ d.need := one_le_syncBytes hm _
  have hl := h.unconsumed_length
  have hneed : syncBytes d ((d.unconsumed ++ more).headD 0#8) = d.need := by
    rw [Decoder.need]
    cases hu : d.unconsumed with
    | nil => rw [hu, List.length_nil] at hl; omega
    | cons b bs => rfl
  rw [Decoder.outlook, unitsFrom_unit hm (by rw [hneed, List.length_append]; omega), hneed,
    List.take_append_of_le_length (by omega), List.drop_append_of_le_length (by omega)]
  rfl

/-- A unit stores its word. -/
theorem decodes_tookUnit {m : Mem} (h : DecRunning p d o) (hm : d.main ≠ .zeroRange)
    (hall : d.need ≤ d.remlen + d.inleft) (hc : o + 8 ≤ d.cap) (hrest : d.KeepsRest m) :
    Decodes p d o (unitWord d.main d.nextUnit) (tookUnit d o m) := by
  have hl := unitWord_length hm (h.legal.nextUnit_needed hm hall)
  refine ⟨by rw [hl]; exact tookUnit_running h hm hall hc hrest, ⟨_, rfl⟩, h.stored _, fun more => ?_, fun hnil => ?_⟩
  · rw [outlook_nextUnit h.legal hm hall, Decoder.outlook_eq (tookUnit d o m), unconsumed_tookUnit h.legal hall hrest]
    rfl
  · rw [hnil, List.length_nil] at hl
    cases hl

/-- After interning the Remainder holds every unconsumed byte. -/
theorem readBytes?_interned (h : d.SharedLegal p) :
    readBytes? (interned d).rem 0 (interned d).remlen = some d.unconsumed := by
  have hread := readBytes?_writeBytes_append (bs := d.unread) h.range.readBytes?_remainder
  rwa [Nat.zero_add, h.common.unread_length] at hread

/-- Interning moves bytes into the Remainder and stores nothing. -/
theorem decodes_interned (h : DecRunning p d o) (hl : d.remlen + d.inleft ≤ 9) :
    Decodes p d o [] (interned d) := by
  have hend := h.legal.inptr_add_inleft
  obtain ⟨-, -, -, hmem, -⟩ := h.range
  have hlen := h.common.unread_length
  have hread := readBytes?_interned h.legal
  have hun : (interned d).unconsumed = d.unconsumed := by
    rw [(interned d).unconsumed_eq, Decoder.remainder, hread]
    simp [interned, Common.unread]
  have hheld : bytesHeld (interned d).rem 0 (interned d).remlen := by rw [bytesHeld, hread]; rfl
  have hmem' : memWithin (interned d).rem REM_CAP := memWithin_writeBytes hmem (by rw [hlen]; simp only [REM_CAP]; omega)
  refine ⟨h.setReader (Nat.le_refl _) hl hmem' hheld, ⟨_, rfl⟩, ?_, fun more => ?_, fun _ => ⟨hun, rfl, rfl, rfl⟩⟩
  · simp [interned]
  · rw [Decoder.outlook_eq, Decoder.outlook_eq, hun]
    rfl

/-! ### The whole run -/

/-- There is output to come whether the stream goes on or not: a zero range, or a complete unit. -/
abbrev Decoder.hasUnit (d : Decoder) : Prop := d.main = .zeroRange ∨ d.need ≤ d.remlen + d.inleft

theorem outlook_ne_nil (h : DecRunning p d o) (hunit : d.hasUnit) (more : List Byte) : (d.outlook more).1 ≠ [] := by
  by_cases hm : d.main = .zeroRange
  · obtain ⟨-, hrange, -⟩ := h.range
    obtain ⟨-, hcnt, -⟩ := hrange (by simp [hm])
    rw [Decoder.outlook_eq, hm, unitsFrom_zeroRange, before, ← List.length_pos_iff, List.length_append, zeros,
      List.length_replicate]
    omega
  · have hall := hunit.resolve_left hm
    have hl := unitWord_length hm (h.legal.nextUnit_needed hm hall)
    rw [outlook_nextUnit h.legal hm hall, before, ← List.length_pos_iff, List.length_append]
    omega

/-- Without a complete unit nothing is to come of the bytes there are, and they end at a group boundary exactly when the unit is
quiescent (R104, R107). -/
theorem outlook_of_not_hasUnit (h : DecRunning p d o) (hunit : ¬ d.hasUnit) : d.outlook [] = ([], d.quiescent) := by
  obtain ⟨hm, hall⟩ := not_or.mp hunit
  have hl := h.legal.unconsumed_length
  have hend := h.legal.inptr_add_inleft
  have hempty : d.unconsumed = [] ↔ d.remlen = 0 ∧ d.inptr = d.inlen := by
    rw [← List.length_eq_zero_iff, hl]; omega
  rw [Decoder.outlook_eq, List.append_nil, unitsFrom_incomplete hm (by rw [hl]; exact Nat.lt_of_not_le hall),
    Decoder.quiescent]
  simp only [hempty]

/-- How a run that returns leaves the unit: what is final has no complete unit left, else the chunk is consumed. -/
structure RunReturns (p : Params) (final : Bool) (d : Decoder) (o : Nat) (e : Decoder) (o' : Nat) : Prop where
  decodes : ∃ out, Decodes p d o out e ∧ o' = o + out.length
  drained : final = true → e.outlook [] = ([], e.quiescent)
  consumed : final = false → e.inptr = e.inlen

/-- How a run that ends because the output is full leaves the unit: with output still to come (R87). -/
structure RunFills (p : Params) (d : Decoder) (o : Nat) (e : Decoder) (o' : Nat) : Prop where
  decodes : ∃ out, Decodes p d o out e ∧ o' = o + out.length
  full : o' = e.cap
  owes : ∀ more, (e.outlook more).1 ≠ []

/-- A part of a run and the rest of it make a run. -/
theorem Decodes.then_run {final : Bool} (h : Decodes p d o out e)
    (hrest : (decRun p e (o + out.length) final).Meets (RunReturns p final e (o + out.length)) (RunFills p e (o + out.length))) :
    (decRun p e (o + out.length) final).Meets (RunReturns p final d o) (RunFills p d o) := by
  have hthen : ∀ {e' o'}, (∃ out', Decodes p e (o + out.length) out' e' ∧ o' = o + out.length + out'.length) →
      ∃ out', Decodes p d o out' e' ∧ o' = o + out'.length := by
    rintro e' o' ⟨out', h', ho'⟩
    exact ⟨out ++ out', h.trans h', by rw [ho', List.length_append, Nat.add_assoc]⟩
  exact hrest.mono (fun _ _ he => ⟨hthen he.decodes, he.drained, he.consumed⟩)
    (fun _ _ he => ⟨hthen he.decodes, he.full, he.owes⟩)

/-- A run decodes the complete units in stream order. By induction on the space left: each zero run and each unit takes some. -/
theorem decRun_decodes (final : Bool) {d : Decoder} {o : Nat} (h : DecRunning p d o) :
    (decRun p d o final).Meets (RunReturns p final d o) (RunFills p d o) := by
  induction hspace : d.cap - o using Nat.strong_induction_on generalizing d o with
  | _ space ih =>
  have hgoes : ∀ {e out}, Decodes p d o out e → out ≠ [] →
      (decRun p e (o + out.length) final).Meets (RunReturns p final d o) (RunFills p d o) := by
    intro e out he hne
    have hpos := List.length_pos_iff.mpr hne
    have hfits := he.running.fits
    rw [he.cap_eq] at hfits
    exact he.then_run (ih _ (by rw [he.cap_eq]; omega) he.running rfl)
  have hhere : ∃ out, Decodes p d o out d ∧ o = o + out.length := ⟨[], Decodes.refl h, rfl⟩
  have hfits := h.fits
  by_cases hm : d.main = .zeroRange
  · rw [decRun_zeroRange final h hm]
    obtain rfl | hc := Nat.eq_or_lt_of_le hfits
    · rw [zeroUnit_of_full]
      exact ⟨hhere, rfl, outlook_ne_nil h (.inl hm)⟩
    · rw [zeroUnit_of_space hc]
      obtain ⟨he, hne⟩ := decodes_paidZeros h hm hc
      have hrun := hgoes he hne
      rwa [zeros, List.length_replicate] at hrun
  by_cases ht : d.takesNext final
  · obtain ⟨hfull, he⟩ | ⟨hc, m, hrest, he⟩ := decRun_takes h hm ht <;> rw [he]
    · have hcap := h.cap_aligned
      have ho := h.aligned
      exact ⟨hhere, by omega, outlook_ne_nil h (.inr ht.1)⟩
    · have hl := unitWord_length hm (h.legal.nextUnit_needed hm ht.1)
      have hrun := hgoes (decodes_tookUnit h hm ht.1 hc hrest) (by rw [← List.length_pos_iff, hl]; omega)
      rwa [hl] at hrun
  cases final with
  | true =>
    have hshort : d.remlen + d.inleft < d.need := by
      by_contra hall
      exact ht ⟨by omega, .inl rfl⟩
    rw [decRun_flush_short h hm hshort]
    exact ⟨hhere, fun _ => outlook_of_not_hasUnit h (not_or.mpr ⟨hm, by omega⟩), nofun⟩
  | false =>
    rw [decRun_next_rest h hm ht]
    have hten : d.need ≤ 10 := syncBytes_le_ten _ _
    have hmargin : d.need ≤ d.margin ∧ d.margin ≤ 10 := ⟨d.need_le_margin, d.margin_le_ten⟩
    have hl : d.remlen + d.inleft ≤ 9 := by
      obtain hall | hgo := not_and_or.mp ht
      · omega
      · obtain ⟨-, hrem, hshort⟩ := by simpa only [not_or] using hgo
        omega
    exact ⟨⟨[], decodes_interned h hl, rfl⟩, nofun, fun _ => rfl⟩

end

end Sys2Proof.Machine

/-!
PROOFS for the decode machine family, part 6: what DEC.NEXT and DEC.FLUSH answer (R110, R111).
-/

namespace Sys2Proof.Machine

open Sys2Proof.Config

/-! ### The answers of DEC -/

theorem Flow.Meets.and {σ ε α : Type} {x : Flow σ ε α} {B B' : σ → α → Prop} {E E' : σ → ε → Prop} (h : x.Meets B E)
    (h' : x.Meets B' E') : x.Meets (fun u a => B u a ∧ B' u a) (fun u e => E u e ∧ E' u e) := by
  cases x with
  | back u a => exact ⟨h, h'⟩
  | ended u e => exact ⟨h, h'⟩
  | stop f => exact h

/-- The answer of a command that has decoded `out`: OUTPUT, or NONE where there is none (R88). -/
def outputOrNone (out : List Byte) : Response := if out = [] then .none else .output out

@[simp] theorem outputOrNone_data (out : List Byte) : (outputOrNone out).data = out := by
  unfold outputOrNone
  split
  next h => rw [h]; rfl
  next => rfl

section
variable {p : Params} {d e : Decoder} {out : List Byte}

/-- The output of a run from the start of the output memory can be read. -/
theorem Decodes.memRead_output (h : Decodes p d 0 out e) : memRead e.outm e.cap 0 out.length = .ok out := by
  have hfits := h.running.fits
  have hstored := h.stored
  rw [Nat.zero_add] at hfits hstored
  exact memRead_of_held (by omega) hstored

theorem Decodes.outputDec (h : Decodes p d 0 out e) : outputDec e out.length = .respond e (.output out) := by
  rw [Machine.outputDec, h.memRead_output, CommandEnd.access_ok]

theorem Decodes.emitDec (h : Decodes p d 0 out e) : emitDec e out.length = .respond e (outputOrNone out) := by
  unfold Machine.emitDec outputOrNone
  by_cases hnil : out = []
  · rw [hnil]; rfl
  · rw [if_pos (List.length_pos_iff.mpr hnil), if_neg hnil, h.outputDec]

/-- An OUTPUT is 8 bytes or more, whole words, and fits the buffer (R110, R111). -/
theorem Decodes.output_length (h : Decodes p d 0 out e) (hne : out ≠ []) :
    8 ≤ out.length ∧ out.length % 8 = 0 ∧ out.length ≤ d.cap := by
  have hpos := List.length_pos_iff.mpr hne
  have hfits := h.running.fits
  have haligned := h.running.aligned
  rw [h.cap_eq] at hfits
  omega

/-- A ready decoder's output memory has space for a word at least (R7). -/
theorem DecRunning.eight_le_cap {o : Nat} (h : DecRunning p d o) : 8 ≤ d.cap := by
  obtain ⟨-, hcap, -⟩ := h.legal
  exact (hcap h.ready.1).1

/-- A full output buffer of DEC holds output: it has space for a word at least (R7). -/
theorem RunFills.pos {o : Nat} (h : RunFills p d 0 e o) : 0 < o := by
  obtain ⟨out, he, ho⟩ := h.decodes
  have hcap := he.running.eight_le_cap
  have hfull := h.full
  omega

/-- DEC.NEXT emits what its run has decoded, whether the run returns or the output is full (R87, R110). -/
theorem decNextCommand_of_run {P : Decoder → Nat → Prop} (hready : d.Ready) (hrun : (decRun p d 0 false).Meets P P) :
    ∃ e o, decNextCommand p d = emitDec e o ∧ P e o := by
  rw [decNextCommand, (precheck_eq_none_iff _).mpr hready, checked_none]
  cases hend : decRun p d 0 false with
  | back e o => rw [hend] at hrun; exact ⟨e, o, rfl, hrun⟩
  | ended e o => rw [hend] at hrun; exact ⟨e, o, rfl, hrun⟩
  | stop f => rw [hend] at hrun; exact hrun.elim

/-- DEC.NEXT's run has decoded some output, or consumed its chunk. -/
structure NextProgress (p : Params) (d e : Decoder) (o : Nat) : Prop where
  decodes : ∃ out, Decodes p d 0 out e ∧ o = out.length
  consumed : o = 0 → e.inptr = e.inlen

/-- Each way DEC.NEXT's run ends, it has made progress. -/
theorem decRun_next_progress (h : d.Legal p) (hready : d.Ready) :
    (decRun p d 0 false).Meets (NextProgress p d) (NextProgress p d) :=
  (decRun_decodes false (h.running hready)).mono
    (fun _ _ he => ⟨by simpa only [Nat.zero_add] using he.decodes, fun _ => he.consumed rfl⟩)
    (fun _ _ he => ⟨by simpa only [Nat.zero_add] using he.decodes, fun hzero => by have := he.pos; omega⟩)

/-- DEC.NEXT answers the complete units it has decoded; it decodes none only when it has consumed its chunk (R110). -/
theorem decNextCommand_decodes (h : d.Legal p) (hready : d.Ready) :
    ∃ e out, decNextCommand p d = .respond e (outputOrNone out) ∧ Decodes p d 0 out e ∧
      (out = [] → e.inptr = e.inlen) := by
  obtain ⟨e, o, hcmd, ⟨out, he, rfl⟩, hend⟩ := decNextCommand_of_run hready (decRun_next_progress h hready)
  exact ⟨e, out, by rw [hcmd, he.emitDec], he, fun hnil => hend (by rw [hnil]; rfl)⟩

/-- DEC.FLUSH on a unit that has a complete unit left answers OUTPUT (R111). -/
theorem decFlushCommand_output (h : d.Legal p) (hready : d.Ready) (hne : (d.outlook []).1 ≠ []) :
    ∃ e out, out ≠ [] ∧ decFlushCommand p d = .respond e (.output out) ∧ Decodes p d 0 out e := by
  have hrun := decRun_decodes true (h.running hready)
  rw [decFlushCommand, (precheck_eq_none_iff _).mpr hready, checked_none]
  cases hend : decRun p d 0 true with
  | back e o =>
    rw [hend] at hrun
    obtain ⟨⟨out, he, ho⟩, hdrained, -⟩ := hrun
    rw [Nat.zero_add] at ho
    subst ho
    have hout : out ≠ [] := fun hnil => hne (by rw [he.units, hdrained rfl, hnil]; rfl)
    exact ⟨e, out, hout, by simp only [List.length_pos_iff.mpr hout, if_true, he.outputDec], he⟩
  | ended e o =>
    rw [hend] at hrun
    have hpos := RunFills.pos hrun
    obtain ⟨⟨out, he, ho⟩, -⟩ := hrun
    rw [Nat.zero_add] at ho
    subst ho
    have hout := List.length_pos_iff.mp hpos
    exact ⟨e, out, hout, by simp only [he.emitDec, outputOrNone, if_neg hout], he⟩
  | stop f => rw [hend] at hrun; exact hrun.elim

/-- DEC.FLUSH on a unit with no complete unit left answers DONE, or fails with MALFORMED, as the bytes left end at a group boundary
(R104, R111). -/
theorem decFlushCommand_end (h : d.Legal p) (hready : d.Ready) (hnil : (d.outlook []).1 = []) :
    decFlushCommand p d = if (d.outlook []).2 = true then .respond d .done else failDec .malformed 0#24 d := by
  have hrun := h.running hready
  have hunit : ¬ d.hasUnit := fun hunit => outlook_ne_nil hrun hunit [] hnil
  obtain ⟨hm, hall⟩ := not_or.mp hunit
  rw [outlook_of_not_hasUnit hrun hunit, decFlushCommand, (precheck_eq_none_iff _).mpr hready, checked_none,
    decRun_flush_short hrun hm (by omega)]
  rfl

/-- A run that takes its next unit decodes at least one word. -/
theorem decRun_takes_word {o : Nat} {final : Bool} (h : DecRunning p d o) (hm : d.main ≠ .zeroRange) (ht : d.takesNext final)
    (hc : o + 8 ≤ d.cap) : (decRun p d o final).Meets (fun _ o' => o + 8 ≤ o') (fun _ o' => o + 8 ≤ o') := by
  obtain ⟨hfull, -⟩ | ⟨-, m, hrest, he⟩ := decRun_takes h hm ht
  · omega
  rw [he]
  refine (decRun_decodes final (tookUnit_running h hm ht.1 hc hrest)).mono (fun e o' hend => ?_) (fun e o' hend => ?_) <;>
  · obtain ⟨out, -, ho⟩ := hend.decodes
    omega

end

/-! ### The statements on DEC -/

theorem lt_margin {d : Decoder} {n : Nat} (h : d.main = .start ∧ n < 10 ∨ d.main = .verbatimRange ∧ n < 8) :
    d.main ≠ .zeroRange ∧ n < d.margin := by
  obtain ⟨hm, hn⟩ | ⟨hm, hn⟩ := h <;> simpa [Decoder.margin, hm] using hn

theorem margin_le {d : Decoder} {n : Nat} (h : d.main = .start ∧ 10 ≤ n ∨ d.main = .verbatimRange ∧ 8 ≤ n) :
    d.main ≠ .zeroRange ∧ d.margin ≤ n := by
  obtain ⟨hm, hn⟩ | ⟨hm, hn⟩ := h <;> simpa [Decoder.margin, hm] using hn

section
variable {s : State}

theorem exec_decNext {d : Decoder} {r : Response} (h : decNextCommand s.params s.dec = .respond d r) :
    exec .decNext s = .next ((s.setDec d).deliver r) := congrArg s.closeDec h

theorem exec_decFlush {d : Decoder} {r : Response} (h : decFlushCommand s.params s.dec = .respond d r) :
    exec .decFlush s = .next ((s.setDec d).deliver r) := congrArg s.closeDec h

end

/-- Settles O32: what the run has decoded is the front of the outlook. -/
theorem decNextEmitsCompleteUnitsInOrder : Obligations.DecNextEmitsCompleteUnitsInOrder := by
  unfold Obligations.DecNextEmitsCompleteUnitsInOrder
  rintro s ⟨-, -, hdec, -⟩ hready
  obtain ⟨e, out, hcmd, he, hend⟩ := decNextCommand_decodes hdec hready
  refine ⟨e, outputOrNone out, exec_decNext hcmd, ?_, fun more => by rw [outputOrNone_data, he.units]⟩
  by_cases hnil : out = []
  · exact .inl ⟨if_pos hnil, hend hnil⟩
  · exact .inr ⟨out, if_neg hnil, he.output_length hnil⟩

/-- Settles O33: the outlook says which of the three ends the drain has. -/
theorem decFlushEmitsThenEndsInDoneOrMalformed : Obligations.DecFlushEmitsThenEndsInDoneOrMalformed := by
  unfold Obligations.DecFlushEmitsThenEndsInDoneOrMalformed
  rintro s ⟨-, -, hdec, -⟩ hready
  have hends (b : Bool) (hout : s.dec.outlook [] = ([], b)) := decFlushCommand_end hdec hready (by rw [hout])
  refine ⟨fun hne => ?_, fun hout => ?_, fun hout => ?_⟩
  · obtain ⟨e, out, hout, hcmd, he⟩ := decFlushCommand_output hdec hready hne
    obtain ⟨hlen, hwords, hfits⟩ := he.output_length hout
    exact ⟨e, out, exec_decFlush hcmd, hlen, hwords, hfits, he.units []⟩
  · have hcmd := hends true hout
    rw [hout, if_pos rfl] at hcmd
    exact exec_decFlush hcmd
  · have hcmd := hends false hout
    rw [hout, if_neg Bool.false_ne_true] at hcmd
    exact exec_decFlush hcmd

/-- Settles O35: a run with no output has been idle. -/
theorem decNoneMeansConsumedIntoTheRemainder : Obligations.DecNoneMeansConsumedIntoTheRemainder := by
  unfold Obligations.DecNoneMeansConsumedIntoTheRemainder
  rintro s t ⟨-, -, hdec, -⟩ hready hexec hdelivered
  obtain ⟨e, out, hcmd, he, hend⟩ := decNextCommand_decodes hdec hready
  rw [exec_decNext hcmd, Host.Outcome.next.injEq] at hexec
  subst hexec
  have hnone : outputOrNone out = .none := by simpa using hdelivered
  have hnil : out = [] := by
    by_contra hne
    rw [outputOrNone, if_neg hne] at hnone
    cases hnone
  exact ⟨hend hnil, he.idle hnil⟩

/-- Settles O57: below the margin the run interns, from it on the run takes the next unit. -/
theorem decNextInternsAShortChunk : Obligations.DecNextInternsAShortChunk := by
  unfold Obligations.DecNextInternsAShortChunk
  rintro s ⟨-, -, hdec, -⟩ hready hrem
  have hrun := hdec.running hready
  refine ⟨fun hbelow => ?_, fun hfrom => ?_⟩
  · obtain ⟨hm, hshort⟩ := lt_margin hbelow
    have hread := readBytes?_interned hrun.legal
    rw [hrun.legal.unconsumed_synced hrem] at hread
    refine ⟨interned s.dec, exec_decNext ?_, rfl, rfl, ?_, hread, rfl, rfl⟩
    · rw [decNextCommand, (precheck_eq_none_iff _).mpr hready, checked_none,
        decRun_next_interns hrun.legal hm hrun.fits hrem hshort]
      rfl
    · rw [interned, hrem, Nat.zero_add]
      rfl
  · obtain ⟨hm, hlong⟩ := margin_le hfrom
    have hcap := hrun.eight_le_cap
    have hword := decRun_takes_word hrun hm (Decoder.takesNext_of_margin_le false hlong) (by omega)
    obtain ⟨e, o, hcmd, ⟨⟨out, he, rfl⟩, -⟩, hpos⟩ :=
      decNextCommand_of_run hready ((decRun_next_progress hdec hready).and hword)
    have hne : out ≠ [] := List.length_pos_iff.mp (by omega)
    exact ⟨e, out, hne, exec_decNext (by rw [hcmd, he.emitDec, outputOrNone, if_neg hne])⟩

end Sys2Proof.Machine

/-!
PROOFS for the decode machine family, part 7: what DOS.SET and DOS.FINISH answer (R113, R114).
-/

namespace Sys2Proof.Machine

open Sys2Proof.Config

/-! ### A chunk installed in a decoder -/

/-- The decoder that has taken the chunk `s` (R46). -/
def Decoder.withChunk (d : Decoder) (s : List Byte) : Decoder :=
  { d with input := writeBytes d.input 0 s, inlen := s.length, inptr := 0 }

section
variable {p : Params} {d e : Decoder} {s out : List Byte} {o : Nat}

@[simp] theorem Decoder.withChunk_unread (d : Decoder) (s : List Byte) : (d.withChunk s).unread = s :=
  unread_installed d.input s d.toCommon

/-- The chunk goes behind the bytes of the Remainder, so what the stream goes on with follows it. -/
theorem Decoder.withChunk_outlook (hcur : d.inptr = d.inlen) (s more : List Byte) :
    (d.withChunk s).outlook more = d.outlook (s ++ more) := by
  have hread : d.unread = [] := by rw [Common.unread, hcur, Nat.sub_self]; rfl
  rw [Decoder.outlook_eq, Decoder.outlook_eq, Decoder.unconsumed_eq, Decoder.unconsumed_eq, withChunk_unread, hread,
    List.append_nil, List.append_assoc]
  rfl

/-! ### DOS.SET -/

/-- A ready DOS has consumed its chunk (R38, R113). -/
theorem Dos.Legal.consumed {u : Dos} (h : u.Legal p) (hready : u.Ready) : u.inptr = u.inlen := by
  obtain ⟨-, -, -, -, -, -, hcur⟩ := h
  exact hcur hready.2

/-- How DOS.SET ends after its run: OK, or CAPACITY where the output was full (R87, R113). -/
def dosSetEnd : DecFlow Nat → CommandEnd Dos
  | .back d o => .respond (dosAt d o) .ok
  | .ended d o => dosFull d o
  | .stop f => .stop f

/-- DOS.SET on a ready unit is the run over its chunk (R113). -/
theorem dosSetCommand_eq {u : Dos} (h : u.Legal p) (hready : u.Ready) (hs : s.length ≤ p.maxIn) :
    dosSetCommand p s u = dosSetEnd (decRun p (u.toDecoder.withChunk s) u.w false) := by
  have hpre : precheckSet p false s.length u.toCommon = none :=
    (precheckSet_eq_none_iff _ _ _ _).mpr ⟨hready, by rw [h.consumed hready], hs, nofun⟩
  rw [dosSetCommand, hpre, checked_none, installChunk_of_le _ hs, CommandEnd.access_ok]
  rfl

/-- DOS.SET refuses a chunk over `MAX_IN` (R142). -/
theorem dosSetCommand_tooLong {u : Dos} (h : u.Legal p) (hready : u.Ready) (hs : p.maxIn < s.length) :
    dosSetCommand p s u = .respond u (.error .config 0#24) := by
  have hbusy : ¬ u.inptr < u.inlen := by rw [h.consumed hready]; omega
  rw [dosSetCommand, precheckSet, (precheck_eq_none_iff _).mpr hready]
  simp only [if_neg hbusy, if_pos hs]
  rfl

/-- DOS.SET counts the units it has decoded; it answers OK, with its chunk consumed, or the target is full and output is still to
come (R87, R113). -/
theorem dosSetCommand_decodes {u : Dos} (h : u.Legal p) (hready : u.Ready) (hs : s.length ≤ p.maxIn) :
    ∃ e out, Decodes p (u.toDecoder.withChunk s) u.w out e ∧
      ((dosSetCommand p s u = .respond (dosAt e (u.w + out.length)) .ok ∧ e.inptr = e.inlen) ∨
        (dosSetCommand p s u = dosFull e (u.w + out.length) ∧ u.w + out.length = e.cap ∧ ∀ more, (e.outlook more).1 ≠ [])) := by
  have hrun : (decRun p (u.toDecoder.withChunk s) u.w false).Meets (RunReturns p false (u.toDecoder.withChunk s) u.w)
      (RunFills p (u.toDecoder.withChunk s) u.w) := decRun_decodes false ((h.running hready).installed hs)
  rw [dosSetCommand_eq h hready hs]
  cases hend : decRun p (u.toDecoder.withChunk s) u.w false with
  | back e o =>
    rw [hend] at hrun
    obtain ⟨⟨out, he, rfl⟩, -, hcons⟩ := hrun
    exact ⟨e, out, he, .inl ⟨rfl, hcons rfl⟩⟩
  | ended e o =>
    rw [hend] at hrun
    obtain ⟨⟨out, he, rfl⟩, hfull, howes⟩ := hrun
    exact ⟨e, out, he, .inr ⟨rfl, hfull, howes⟩⟩
  | stop f => rw [hend] at hrun; exact hrun.elim

/-- With target space for all complete units DOS.SET answers OK (R113). -/
theorem dosSetCommand_ok {u : Dos} {more : List Byte} (h : u.Legal p) (hready : u.Ready) (hs : s.length ≤ p.maxIn)
    (hspace : u.w + (u.outlook (s ++ more)).1.length ≤ u.cap) :
    ∃ e out, dosSetCommand p s u = .respond (dosAt e (u.w + out.length)) .ok ∧
      Decodes p (u.toDecoder.withChunk s) u.w out e ∧ e.inptr = e.inlen := by
  obtain ⟨e, out, he, ⟨hcmd, hend⟩ | ⟨-, hfull, howes⟩⟩ := dosSetCommand_decodes h hready hs
  · exact ⟨e, out, hcmd, he, hend⟩
  · have hmore := List.length_pos_iff.mpr (howes more)
    rw [← Decoder.withChunk_outlook (h.consumed hready), he.units, before, List.length_append] at hspace
    rw [he.cap_eq] at hfull
    have hfull : u.w + out.length = u.cap := hfull
    omega

/-! ### DOS.FINISH -/

/-- What a run has stored behind the output before it can be read, with it. -/
theorem Decodes.memRead_all (h : Decodes p d o out e) {old : List Byte} (hold : readBytes? d.outm 0 o = some old) :
    memRead e.outm e.cap 0 (o + out.length) = .ok (old ++ out) := by
  have hfits := h.running.fits
  have hstored := h.stored
  rw [hold] at hstored
  exact memRead_of_held (by omega) hstored

/-- With a target that holds all the complete units, DOS.FINISH answers the whole output if the stream ends at a group boundary, and
else fails with MALFORMED; without, it fails with CAPACITY (R114). -/
theorem dosFinishCommand_decodes {u : Dos} (h : u.Legal p) (hready : u.Ready) :
    ∃ e out, Decodes p u.toDecoder u.w out e ∧
      ((u.outlook [] = (out, e.quiescent) ∧ dosFinishCommand p u =
          if e.quiescent = true then .respond (dosAt e 0) (.result ((readBytes? u.outm 0 u.w).getD [] ++ out))
          else failDos .malformed 0#24 (dosAt e (u.w + out.length))) ∨
        (dosFinishCommand p u = dosFull e (u.w + out.length) ∧ u.w + out.length = e.cap ∧ (e.outlook []).1 ≠ [])) := by
  have hrun := decRun_decodes true (h.running hready)
  obtain ⟨old, hold⟩ := Option.isSome_iff_exists.mp (h.running hready).held
  rw [dosFinishCommand, (precheck_eq_none_iff _).mpr hready, checked_none, hold, Option.getD_some]
  cases hend : decRun p u.toDecoder u.w true with
  | back e o =>
    rw [hend] at hrun
    obtain ⟨⟨out, he, rfl⟩, hdrained, -⟩ := hrun
    refine ⟨e, out, he, .inl ⟨by rw [he.units, hdrained rfl, before, List.append_nil], ?_⟩⟩
    simp only [he.memRead_all hold, CommandEnd.access_ok]
  | ended e o =>
    rw [hend] at hrun
    obtain ⟨⟨out, he, rfl⟩, hfull, howes⟩ := hrun
    exact ⟨e, out, he, .inr ⟨rfl, hfull, howes []⟩⟩
  | stop f => rw [hend] at hrun; exact hrun.elim

end

/-! ### The statements on DOS -/

section
variable {s : State} {u : Dos} {r : Response}

theorem exec_dosSet {chunk : List Byte} (h : dosSetCommand s.params chunk s.dos = .respond u r) :
    exec (.dosSet chunk) s = .next ((s.setDos u).deliver r) := congrArg s.closeDos h

theorem exec_dosFinish (h : dosFinishCommand s.params s.dos = .respond u r) :
    exec .dosFinish s = .next ((s.setDos u).deliver r) := congrArg s.closeDos h

end

/-- Settles O38: the run that fills the target leaves output to come. -/
theorem dosCapacityKeepsTheUnitsThatFit : Obligations.DosCapacityKeepsTheUnitsThatFit := by
  unfold Obligations.DosCapacityKeepsTheUnitsThatFit
  rintro chunk s t ⟨-, -, -, hdos⟩ hready hexec hdelivered
  have hcur := hdos.consumed hready
  have hs : chunk.length ≤ s.params.maxIn := by
    by_contra hlong
    rw [exec_dosSet (dosSetCommand_tooLong hdos hready (by omega)), Host.Outcome.next.injEq] at hexec
    subst hexec
    simp at hdelivered
  obtain ⟨e, out, he, ⟨hcmd, -⟩ | ⟨hcmd, hfull, howes⟩⟩ := dosSetCommand_decodes hdos hready hs
  · rw [exec_dosSet hcmd, Host.Outcome.next.injEq] at hexec
    subst hexec
    simp at hdelivered
  · rw [exec_dosSet hcmd, Host.Outcome.next.injEq] at hexec
    subst hexec
    have hunits := he.units []
    rw [Decoder.withChunk_outlook hcur, List.append_nil] at hunits
    have hmore := List.length_pos_iff.mpr (howes [])
    have hcap : e.cap = s.dos.cap := he.cap_eq
    refine ⟨?_, rfl, rfl, hcap, hfull, out, he.stored, hunits⟩
    rw [hunits, before, List.length_append]
    omega

/-- Settles O39: the three ends of `dosFinishCommand_decodes`, told apart by the outlook. -/
theorem dosFinishAnswersTheResultOrFails : Obligations.DosFinishAnswersTheResultOrFails := by
  unfold Obligations.DosFinishAnswersTheResultOrFails
  rintro s ⟨-, -, -, hdos⟩ hready
  obtain ⟨e, out, he, ⟨hout, hcmd⟩ | ⟨hcmd, hfull, howes⟩⟩ := dosFinishCommand_decodes hdos hready
  · have hfits := he.running.fits
    have hcap : e.cap = s.dos.cap := he.cap_eq
    rw [hcap] at hfits
    simp only [hout]
    refine ⟨fun _ hq => ?_, fun _ hq => ?_, fun hfull => by omega⟩
    · rw [if_pos hq] at hcmd
      obtain ⟨hm, hrem, hend⟩ := of_decide_eq_true hq
      exact ⟨_, exec_dosFinish hcmd, rfl, hm, he.running.range.cnt_of_start hm, hrem, hend, he.running.ready, hcap⟩
    · rw [if_neg (by simp [hq])] at hcmd
      exact ⟨_, exec_dosFinish hcmd, rfl, rfl, rfl, he.stored⟩
  · have hunits := he.units []
    have hmore := List.length_pos_iff.mpr howes
    have hcap : e.cap = s.dos.cap := he.cap_eq
    have hlong : s.dos.cap < s.dos.w + (s.dos.outlook []).1.length := by
      rw [hunits, before, List.length_append]; omega
    refine ⟨fun hfits => by omega, fun hfits => by omega, fun _ => ?_⟩
    exact ⟨_, out, exec_dosFinish hcmd, rfl, rfl, hcap, hfull, he.stored, hunits⟩

/-- Settles O58: below the margin the run interns, from it on the run takes the next unit. -/
theorem dosSetInternsAShortChunk : Obligations.DosSetInternsAShortChunk := by
  unfold Obligations.DosSetInternsAShortChunk
  rintro chunk s ⟨-, -, -, hdos⟩ hready hrem hs
  have hrun : DecRunning s.params (s.dos.toDecoder.withChunk chunk) s.dos.w := (hdos.running hready).installed hs
  have hcmd := dosSetCommand_eq hdos hready hs
  refine ⟨fun hbelow => ?_, fun hfrom hspace => ?_⟩
  · obtain ⟨hm, hshort⟩ := lt_margin hbelow
    have hread := readBytes?_interned hrun.legal
    rw [hrun.legal.unconsumed_synced hrem, Decoder.withChunk_unread] at hread
    rw [decRun_next_interns hrun.legal hm hrun.fits hrem hshort] at hcmd
    refine ⟨_, exec_dosSet hcmd, rfl, rfl, rfl, ?_, hread, rfl, rfl⟩
    show s.dos.remlen + chunk.length = chunk.length
    rw [hrem, Nat.zero_add]
  · obtain ⟨hm, hlong⟩ := margin_le hfrom
    have hword := decRun_takes_word hrun hm (Decoder.takesNext_of_margin_le false hlong) hspace
    cases hend : decRun s.params (s.dos.toDecoder.withChunk chunk) s.dos.w false with
    | back e o => rw [hend] at hword hcmd; exact ⟨_, _, exec_dosSet hcmd, hword⟩
    | ended e o => rw [hend] at hword hcmd; exact ⟨_, _, exec_dosSet hcmd, hword⟩
    | stop f => rw [hend] at hword; exact hword.elim

end Sys2Proof.Machine

/-!
PROOFS for the decode machine family, part 8: whole streams through DEC and DOS, for every chunking (R77, R107).
-/

namespace Sys2Proof.Machine

open Sys2Proof.Config

/-! ### DEC: PUSH and FINALIZE -/

section
variable {p : Params} {d e : Decoder} {s out : List Byte}

/-- The output that is to come after some has been stored is shorter by it. -/
theorem Decodes.length_add {o : Nat} (h : Decodes p d o out e) (more : List Byte) :
    (d.outlook more).1.length = out.length + (e.outlook more).1.length := by
  rw [h.units, before, List.length_append]

/-- A legal ready unit stays legal and ready over what a run decodes. -/
theorem Decodes.legal_ready {o : Nat} (h : Decodes p d o out e) : e.Legal p ∧ e.Ready :=
  ⟨h.running.dec_legal, h.running.ready⟩

/-- DRAIN after a SET ends with NONE, with the chunk consumed, after at most one NEXT for each byte of output to come and one
more. -/
theorem collect_decNext (k : Nat) (more : List Byte) {d : Decoder} (h : d.Legal p) (hready : d.Ready)
    (hk : (d.outlook more).1.length < k) :
    ∃ out e, collect (decNextCommand p) k d = some (out, e, .none) ∧ (e.Legal p ∧ e.Ready ∧ e.inptr = e.inlen) ∧
      d.outlook more = before out (e.outlook more) := by
  induction k generalizing d with
  | zero => omega
  | succ k ih =>
    obtain ⟨e, out, hcmd, he, hend⟩ := decNextCommand_decodes h hready
    obtain ⟨hlegal, hready'⟩ := he.legal_ready
    by_cases hnil : out = []
    · have hunits := he.units more
      rw [outputOrNone, if_pos hnil] at hcmd
      rw [hnil] at hunits
      exact ⟨[], e, by rw [collect, hcmd], ⟨hlegal, hready', hend hnil⟩, hunits⟩
    · have hlen := he.length_add more
      have hpos := List.length_pos_iff.mpr hnil
      obtain ⟨out', e', hcollect, hleft, hunits⟩ := ih hlegal hready' (by omega)
      rw [outputOrNone, if_neg hnil] at hcmd
      refine ⟨out ++ out', e', ?_, hleft, by rw [he.units, hunits, before_before]⟩
      rw [collect, hcmd]
      simp only [hcollect, Option.map_some]

/-- The last answer of FINALIZE: DONE at a group boundary, else MALFORMED (R111). -/
def finalAnswer (finished : Bool) : Response := if finished = true then .done else .error .malformed 0#24

/-- FINALIZE collects all the output there is to come, and ends as the stream does (R111). -/
theorem collect_decFlush (k : Nat) {d : Decoder} (h : d.Legal p) (hready : d.Ready) (hk : (d.outlook []).1.length < k) :
    ∃ e, collect (decFlushCommand p) k d = some ((d.outlook []).1, e, finalAnswer (d.outlook []).2) := by
  induction k generalizing d with
  | zero => omega
  | succ k ih =>
    by_cases hnil : (d.outlook []).1 = []
    · have hcmd := decFlushCommand_end h hready hnil
      rw [hnil, finalAnswer]
      by_cases hfin : (d.outlook []).2 = true
      · rw [if_pos hfin] at hcmd ⊢
        exact ⟨d, by rw [collect, hcmd]⟩
      · rw [if_neg hfin] at hcmd ⊢
        exact ⟨failDecoder .malformed d, by rw [collect, hcmd]; rfl⟩
    · obtain ⟨e, out, hne, hcmd, he⟩ := decFlushCommand_output h hready hnil
      obtain ⟨hlegal, hready'⟩ := he.legal_ready
      have hlen := he.length_add []
      have hpos := List.length_pos_iff.mpr hne
      obtain ⟨e', hcollect⟩ := ih hlegal hready' (by omega)
      refine ⟨e', ?_⟩
      rw [collect, hcmd]
      simp only [hcollect, Option.map_some, he.units [], before]

/-- An accepted DEC.SET installs its chunk (R109). -/
theorem decSetCommand_eq (hready : d.Ready) (hcur : d.inptr = d.inlen) (hs : s.length ≤ p.maxIn) :
    decSetCommand p s d = .respond (d.withChunk s) .ok := by
  have hpre : precheckSet p false s.length d.toCommon = none :=
    (precheckSet_eq_none_iff _ _ _ _).mpr ⟨hready, by rw [hcur], hs, nofun⟩
  rw [decSetCommand, hpre, checked_none, installChunk_of_le _ hs, CommandEnd.access_ok]
  rfl

/-- PUSH of every chunk collects a front of the output of the whole stream; what is left of it is still to come. -/
theorem pushAll_dec (k : Nat) (chunks : List (List Byte)) {d : Decoder} (h : d.Legal p) (hready : d.Ready)
    (hcur : d.inptr = d.inlen) (hchunks : ∀ c ∈ chunks, c.length ≤ p.maxIn)
    (hk : (d.outlook chunks.flatten).1.length < k) :
    ∃ out e, pushAll (decSetCommand p) (decNextCommand p) k chunks d = some (out, e) ∧ (e.Legal p ∧ e.Ready) ∧
      d.outlook chunks.flatten = before out (e.outlook []) := by
  induction chunks generalizing d with
  | nil => exact ⟨[], d, rfl, ⟨h, hready⟩, rfl⟩
  | cons s chunks ih =>
    obtain ⟨hs, hchunks⟩ := List.forall_mem_cons.mp hchunks
    have hset := decSetCommand_eq (p := p) hready hcur hs
    have hinst : DecRunning p (d.withChunk s) 0 := (h.running hready).installed hs
    have hrest : (d.withChunk s).outlook chunks.flatten = d.outlook (s :: chunks).flatten := d.withChunk_outlook hcur s _
    obtain ⟨out, e, hcollect, ⟨hlegal, hready', hcur'⟩, hunits⟩ :=
      collect_decNext k chunks.flatten hinst.dec_legal hinst.ready (by rw [hrest]; exact hk)
    have hlen : (e.outlook chunks.flatten).1.length < k := by
      rw [← hrest, hunits, before, List.length_append] at hk; omega
    obtain ⟨out', e', hpush, hleft, hunits'⟩ := ih hlegal hready' hcur' hchunks hlen
    refine ⟨out ++ out', e', ?_, hleft, by rw [← hrest, hunits, hunits', before_before]⟩
    rw [pushAll, hset]
    simp only [hcollect, hpush, Option.map_some]

/-- A whole stream through DEC gives its complete units, and ends as the stream does. -/
theorem stream_dec (chunks : List (List Byte)) (h : d.Legal p) (hready : d.Ready) (hcur : d.inptr = d.inlen)
    (hchunks : ∀ c ∈ chunks, c.length ≤ p.maxIn) :
    ∃ k, stream (decSetCommand p) (decNextCommand p) (decFlushCommand p) k chunks d =
      some ((d.outlook chunks.flatten).1, finalAnswer (d.outlook chunks.flatten).2) := by
  have hk : (d.outlook chunks.flatten).1.length < (d.outlook chunks.flatten).1.length + 1 := Nat.lt_succ_self _
  obtain ⟨out, e, hpush, ⟨hlegal, hready'⟩, hunits⟩ := pushAll_dec _ chunks h hready hcur hchunks hk
  have hlen : (e.outlook []).1.length < (d.outlook chunks.flatten).1.length + 1 := by
    rw [hunits, before, List.length_append]; omega
  obtain ⟨e', hcollect⟩ := collect_decFlush _ hlegal hready' hlen
  refine ⟨(d.outlook chunks.flatten).1.length + 1, ?_⟩
  rw [stream, hpush]
  simp only [hcollect, Option.map_some]
  rw [hunits, before]

/-- What a quiescent unit has to come is the output of the stream that begins there (R107). -/
theorem outlook_of_quiescent (h : d.Legal p) (hq : d.quiescent = true) (more : List Byte) :
    d.outlook more = unitsFrom .start 0 more := by
  obtain ⟨hm, hrem, hcur⟩ := of_decide_eq_true hq
  have hun : d.unconsumed = [] := by
    rw [← List.length_eq_zero_iff, h.1.unconsumed_length, hrem, Common.inleft, hcur, Nat.sub_self]
  rw [Decoder.outlook_eq, hm, h.1.range.cnt_of_start hm, hun, List.nil_append]

end

/-- Settles O43: DEC's whole stream, and `unpack` as its complete units (O47). -/
theorem decoderOutputIsUnpackForEveryChunking : Obligations.DecoderOutputIsUnpackForEveryChunking := by
  unfold Obligations.DecoderOutputIsUnpackForEveryChunking
  intro p d chunks _ h hready hq hchunks
  obtain ⟨k, hstream⟩ := stream_dec chunks h hready (d.inptr_eq_of_quiescent hq) hchunks
  rw [outlook_of_quiescent h hq] at hstream
  rw [unpack_eq_finishedOutput, finishedOutput]
  split
  next hfin =>
    rw [hfin] at hstream
    exact ⟨fun x hx => ⟨k, by rw [hstream, Option.some_injective _ hx]; rfl⟩, nofun⟩
  next hfin =>
    rw [Bool.eq_false_iff.mpr hfin] at hstream
    exact ⟨nofun, fun _ => ⟨k, hstream⟩⟩

/-! ### DOS: SETs and FINISH -/

/-- The answer of FINISH to a stream whose complete units the target holds: the whole output, or MALFORMED (R114). -/
def resultOf (r : List Byte × Bool) : Response := if r.2 = true then .result r.1 else .error .malformed 0#24

section
variable {p : Params}

/-- SETs of every chunk, and FINISH, answer what the target held and the output of the stream, where the target has space for it. -/
theorem oneShot_dos (chunks : List (List Byte)) {u : Dos} {old : List Byte} (h : u.Legal p) (hready : u.Ready)
    (hchunks : ∀ c ∈ chunks, c.length ≤ p.maxIn) (hold : readBytes? u.outm 0 u.w = some old)
    (hspace : u.w + (u.outlook chunks.flatten).1.length ≤ u.cap) :
    ∃ u', oneShot (dosSetCommand p) (dosFinishCommand p) chunks u =
      .respond u' (resultOf (before old (u.outlook chunks.flatten))) := by
  induction chunks generalizing u old with
  | nil =>
    obtain ⟨e, out, he, ⟨hout, hcmd⟩ | ⟨-, hfull, howes⟩⟩ := dosFinishCommand_decodes h hready
    · rw [oneShot, List.flatten_nil, hout, hcmd, hold, resultOf, before, Option.getD_some]
      split
      · exact ⟨_, rfl⟩
      · exact ⟨_, rfl⟩
    · have hlen := he.length_add []
      have hmore := List.length_pos_iff.mpr howes
      have hcap : e.cap = u.cap := he.cap_eq
      rw [List.flatten_nil, hlen] at hspace
      omega
  | cons s chunks ih =>
    obtain ⟨hs, hchunks⟩ := List.forall_mem_cons.mp hchunks
    have hcur := h.consumed hready
    obtain ⟨e, out, hcmd, he, hend⟩ := dosSetCommand_ok h hready hs hspace
    have hrest := Decoder.withChunk_outlook hcur s chunks.flatten
    have hlen := he.length_add chunks.flatten
    have hcap : e.cap = u.cap := he.cap_eq
    have hold' := he.stored
    rw [List.flatten_cons, ← hrest] at hspace ⊢
    rw [show (u.toDecoder.withChunk s).outm = u.outm from rfl, hold] at hold'
    obtain ⟨u', hfinal⟩ := ih (u := dosAt e (u.w + out.length)) (he.running.dos_legal hend) he.running.ready hchunks hold'
      (show u.w + out.length + (e.outlook chunks.flatten).1.length ≤ e.cap by omega)
    refine ⟨u', ?_⟩
    rw [oneShot, hcmd, he.units, before_before]
    exact hfinal

end

/-- Settles O44: the SETs and FINISH from a DOS that INIT has left empty. -/
theorem oneShotResultIsUnpackForEveryChunking : Obligations.OneShotResultIsUnpackForEveryChunking := by
  unfold Obligations.OneShotResultIsUnpackForEveryChunking
  intro p cap chunks _ hcap hchunks hspace
  have hinit : dosInitCommand p cap = .respond (dosAt { Decoder.reset with cap := cap, cfg := true } 0) .ok := by
    rw [dosInitCommand, initDecoder, if_pos hcap]
  have hrun := DecRunning.configured (p := p) hcap
  have hout := outlook_of_quiescent hrun.dec_legal rfl chunks.flatten
  obtain ⟨u', hfinal⟩ := oneShot_dos chunks (old := []) (u := dosAt { Decoder.reset with cap := cap, cfg := true } 0)
    (hrun.dos_legal rfl) hrun.ready hchunks rfl (by rw [dosAt_toDecoder, hout, dosAt_w, Nat.zero_add]; exact hspace)
  refine ⟨_, u', hinit, ?_⟩
  rw [hfinal, dosAt_toDecoder, hout, before_nil, unpack_eq_finishedOutput, finishedOutput, resultOf]
  split <;> rfl

end Sys2Proof.Machine

/-!
PROOFS for the decode engine family, part 1: the INITs of DEC and DOS, an accepted DEC.SET, and a DOS.SET whose target has
space (R108, R109, R112, R113).
-/

namespace Sys2Proof.Machine

open Sys2Proof.Config

/-! ### INIT (R108, R112) -/

/-- What INIT leaves of the fields DEC and DOS share, and its answer: every field at its reset value, but for `CFG` and `CAP` when
the capacity is legal (R108). -/
theorem initDecoder_spec (p : Params) (cap : Nat) :
    (initDecoder p cap).1.ResetButConfig ∧
      (decCapLegal p cap →
        (initDecoder p cap).1.cfg = true ∧ (initDecoder p cap).1.cap = cap ∧ (initDecoder p cap).2 = .ok) ∧
      (¬ decCapLegal p cap →
        (initDecoder p cap).1.cfg = false ∧ (initDecoder p cap).1.cap = 0 ∧
          (initDecoder p cap).2 = .error .config 0#24) := by
  have hreset : Decoder.reset.ResetButConfig := ⟨rfl, rfl, rfl, rfl, rfl, rfl, rfl⟩
  unfold initDecoder
  split
  next hcap => exact ⟨hreset, fun _ => ⟨rfl, rfl, rfl⟩, fun hn => absurd hcap hn⟩
  next hcap => exact ⟨hreset, fun h => absurd h hcap, fun _ => ⟨rfl, rfl, rfl⟩⟩

/-- INIT of DEC leaves what `initDecoder` says, and answers it. -/
theorem exec_decInit (cap : BitVec 24) (s : State) :
    exec (.decInit cap) s = .next ((s.setDec (initDecoder s.params cap.toNat).1).deliver (initDecoder s.params cap.toNat).2) :=
  rfl

/-- INIT of DOS does the same to the fields it shares with DEC, and empties the target. -/
theorem exec_dosInit (cap : BitVec 24) (s : State) :
    exec (.dosInit cap) s =
      .next ((s.setDos (dosAt (initDecoder s.params cap.toNat).1 0)).deliver (initDecoder s.params cap.toNat).2) :=
  rfl

/-- Settles O20: `initDecoder` is all there is to DEC.INIT. -/
theorem decInitResetsThenConfiguresOrRaisesConfig : Obligations.DecInitResetsThenConfiguresOrRaisesConfig := by
  unfold Obligations.DecInitResetsThenConfiguresOrRaisesConfig
  intro cap s
  obtain ⟨hreset, hlegal, hillegal⟩ := initDecoder_spec s.params cap.toNat
  refine ⟨decodeOfEncodeGivesTheCommandBack (.decInit cap) trivial, _, hreset, fun hcap => ?_, fun hcap => ?_⟩
  · obtain ⟨hcfg, hset, hok⟩ := hlegal hcap
    exact ⟨hcfg, hset, by rw [exec_decInit, hok]⟩
  · obtain ⟨hcfg, hset, herr⟩ := hillegal hcap
    exact ⟨hcfg, hset, by rw [exec_decInit, herr]⟩

/-- Settles O21: DOS.INIT is `initDecoder` on the shared fields, with `DOS.W` at 0. -/
theorem dosInitResetsThenConfiguresOrRaisesConfig : Obligations.DosInitResetsThenConfiguresOrRaisesConfig := by
  unfold Obligations.DosInitResetsThenConfiguresOrRaisesConfig
  intro cap s
  obtain ⟨hreset, hlegal, hillegal⟩ := initDecoder_spec s.params cap.toNat
  refine ⟨decodeOfEncodeGivesTheCommandBack (.dosInit cap) trivial, dosAt _ 0, hreset, rfl, fun hcap => ?_, fun hcap => ?_⟩
  · obtain ⟨hcfg, hset, hok⟩ := hlegal hcap
    exact ⟨hcfg, hset, by rw [exec_dosInit, hok]⟩
  · obtain ⟨hcfg, hset, herr⟩ := hillegal hcap
    exact ⟨hcfg, hset, by rw [exec_dosInit, herr]⟩

/-! ### SET (R109, R113) -/

/-- Settles O23: the checks pass, and the chunk is copied. -/
theorem decSetInstallsTheChunk : Obligations.DecSetInstallsTheChunk := by
  unfold Obligations.DecSetInstallsTheChunk
  intro chunk s hready hcur hs
  have hpre : precheckSet s.params false chunk.length s.dec.toCommon = none :=
    (precheckSet_eq_none_iff _ _ _ _).mpr ⟨hready, hcur, hs, nofun⟩
  have hcmd : decSetCommand s.params chunk s.dec = .respond (s.dec.withChunk chunk) .ok := by
    rw [decSetCommand, hpre, checked_none, installChunk_of_le _ hs, CommandEnd.access_ok]
    rfl
  exact congrArg s.closeDec hcmd

/-- Settles O37: with space for every complete unit the run over the chunk returns, and what it has decoded is the front of the
outlook. -/
theorem dosSetAppendsCompleteUnitsToTheTarget : Obligations.DosSetAppendsCompleteUnitsToTheTarget := by
  unfold Obligations.DosSetAppendsCompleteUnitsToTheTarget
  rintro chunk s ⟨-, -, -, hdos⟩ hready hs hspace
  obtain ⟨e, out, hcmd, he, hend⟩ :=
    dosSetCommand_ok (more := []) hdos hready hs (by rw [List.append_nil]; exact hspace)
  have hinlen : e.inlen = chunk.length := by
    obtain ⟨q, hq⟩ := he.moved
    rw [hq]
    rfl
  have hunits := he.units []
  rw [Decoder.withChunk_outlook (hdos.consumed hready), List.append_nil] at hunits
  exact ⟨_, out, exec_dosSet hcmd, hinlen, hend.trans hinlen, he.stored, hunits⟩

end Sys2Proof.Machine

/-!
PROOFS for the decode engine family, part 2: what DEC.NEXT, DEC.FLUSH, DOS.SET and DOS.FINISH leave unchanged (R110, R111, R113,
R114). Whatever a run does, it moves the cursor forward, writes no other common field, and stores only behind the output it
started with.
-/

namespace Sys2Proof.Machine

open Sys2Proof.Config

/-! ### The frame of a run -/

/-- What the three things a run does all keep, the whole run keeps. By induction on the space left, as for `decRun_decodes`. -/
theorem decRun_keeps {p : Params} {Inv : Decoder → Nat → Prop} (final : Bool)
    (zeroRun : ∀ {d o}, Inv d o → Inv (paidZeros d o) (o + zerosPaid d o))
    (unit : ∀ {d o m}, d.main ≠ .zeroRange → d.nextUnit.length = syncBytes d (d.nextUnit.headD 0#8) → Inv d o →
      Inv (tookUnit d o m) (o + 8))
    (intern : ∀ {d o}, d.inptr ≤ d.inlen → Inv d o → Inv (interned d) o)
    {d : Decoder} {o : Nat} (h : DecRunning p d o) (hinv : Inv d o) : (decRun p d o final).Meets Inv Inv := by
  induction hspace : d.cap - o using Nat.strong_induction_on generalizing d o with
  | _ space ih =>
  have hfits := h.fits
  by_cases hm : d.main = .zeroRange
  · rw [decRun_zeroRange final h hm]
    obtain rfl | hc := Nat.eq_or_lt_of_le hfits
    · rw [zeroUnit_of_full]
      exact hinv
    · rw [zeroUnit_of_space hc]
      obtain ⟨he, hne⟩ := decodes_paidZeros h hm hc
      have hpos := List.length_pos_iff.mpr hne
      rw [zeros, List.length_replicate] at hpos
      exact ih _ (by rw [he.cap_eq]; omega) (paidZeros_running h hm hc) (zeroRun hinv) rfl
  by_cases ht : d.takesNext final
  · obtain ⟨hfull, he⟩ | ⟨hc, m, hrest, he⟩ := decRun_takes h hm ht <;> rw [he]
    · exact hinv
    · have hneeded := h.legal.nextUnit_needed hm ht.1
      exact ih _ (by rw [(decodes_tookUnit h hm ht.1 hc hrest).cap_eq]; omega) (tookUnit_running h hm ht.1 hc hrest)
        (unit hm hneeded hinv) rfl
  cases final with
  | true =>
    have hshort : d.remlen + d.inleft < d.need := by
      by_contra hall
      exact ht ⟨by omega, .inl rfl⟩
    rw [decRun_flush_short h hm hshort]
    exact hinv
  | false =>
    rw [decRun_next_rest h hm ht]
    exact intern h.common.1 hinv

/-- From `d` at the output offset `o` a run has come to `e` at `o'`: the cursor has not moved back, no other common field has
changed, and every byte of the output memory outside `[o, o')` is as it was. -/
structure RunFrame (d : Decoder) (o : Nat) (e : Decoder) (o' : Nat) : Prop where
  advanced : ∃ q, d.inptr ≤ q ∧ e.toCommon = { d.toCommon with inptr := q }
  offset_le : o ≤ o'
  outside : ∀ a, a < o ∨ o' ≤ a → readByte? e.outm a = readByte? d.outm a

section
variable {p : Params} {d e f : Decoder} {o o' : Nat}

theorem RunFrame.refl (d : Decoder) (o : Nat) : RunFrame d o d o where
  advanced := ⟨d.inptr, Nat.le_refl _, rfl⟩
  offset_le := Nat.le_refl _
  outside _ _ := rfl

/-- Moving the cursor forward, and changing fields that the frame does not speak of. -/
theorem RunFrame.advance (h : RunFrame d o e o') {q : Nat} (hq : e.inptr ≤ q)
    (hcommon : f.toCommon = { e.toCommon with inptr := q }) (hout : f.outm = e.outm) : RunFrame d o f o' where
  advanced := by
    obtain ⟨q₀, hq₀, he⟩ := h.advanced
    rw [he] at hq hcommon
    exact ⟨q, Nat.le_trans hq₀ hq, hcommon⟩
  offset_le := h.offset_le
  outside a ha := by rw [hout, h.outside a ha]

/-- Storing output directly behind the output there is. -/
theorem RunFrame.store (h : RunFrame d o e o') (bs : List Byte) :
    RunFrame d o { e with outm := writeBytes e.outm o' bs } (o' + bs.length) where
  advanced := h.advanced
  offset_le := Nat.le_add_right_of_le h.offset_le
  outside a ha := by
    have hle := h.offset_le
    rw [readByte?_writeBytes_outside (by omega), h.outside a (by omega)]

/-- Every run stays within its frame: a zero run and a unit store behind the output, and interning moves the cursor to the chunk's
end. -/
theorem decRun_frame (final : Bool) (h : DecRunning p d o) : (decRun p d o final).Meets (RunFrame d o) (RunFrame d o) := by
  refine decRun_keeps final (fun {e o'} hframe => ?_) (fun {e o' m} hm hneeded hframe => ?_)
    (fun {e o'} hcur hframe => hframe.advance hcur rfl rfl) h (RunFrame.refl d o)
  · have hstored := hframe.store (zeros (zerosPaid e o'))
    rw [zeros, List.length_replicate] at hstored
    exact hstored.advance (Nat.le_refl _) (payRange_toCommon _ _) (payRange_outm _ _)
  · have hstored := hframe.store (unitWord e.main e.nextUnit)
    rw [unitWord_length hm hneeded] at hstored
    exact hstored.advance (Nat.le_add_right _ _) rfl rfl

end

/-! ### The frame of a command -/

/-- From `d` at the output offset `o` a command has left `e` and answered `r`: CFG and CAP are unchanged, FAILED and ERR have changed
only for one of the errors `fatal`, and the bytes of the output memory outside `[o, top)` are as they were. -/
structure CommandFrame (fatal : List ErrCode) (d : Decoder) (o : Nat) (e : Decoder) (top : Nat) (r : Response) : Prop where
  cfg : e.cfg = d.cfg
  cap : e.cap = d.cap
  failed : (∀ c ∈ fatal, r ≠ .error c 0#24) → e.failed = d.failed ∧ e.err = d.err
  outside : ∀ a, a < o ∨ top ≤ a → readByte? e.outm a = readByte? d.outm a

/-- The frame of a command that also leaves the chunk alone, and at most reads on in it. -/
structure ReadingFrame (fatal : List ErrCode) (d : Decoder) (o : Nat) (e : Decoder) (top : Nat) (r : Response) : Prop
    extends CommandFrame fatal d o e top r where
  input : e.input = d.input
  inlen : e.inlen = d.inlen
  inptr_le : d.inptr ≤ e.inptr

section
variable {p : Params} {fatal : List ErrCode} {d e : Decoder} {o o' top : Nat} {r : Response} {s : List Byte}

/-- A command that leaves the unit as its run did. -/
theorem RunFrame.answers (h : RunFrame d o e o') (htop : o' ≤ top) : ReadingFrame fatal d o e top r := by
  obtain ⟨⟨q, hq, he⟩, -, hout⟩ := h
  refine ⟨⟨?_, ?_, fun _ => ⟨?_, ?_⟩, fun a ha => hout a (by omega)⟩, ?_, ?_, ?_⟩ <;> rw [he]
  exact hq

/-- A command that fails after its run. -/
theorem RunFrame.fails (h : RunFrame d o e o') (htop : o' ≤ top) {c : ErrCode} (hc : c ∈ fatal) :
    ReadingFrame fatal d o (failDecoder c e) top (.error c 0#24) := by
  obtain ⟨⟨hcfg, hcap, -, hout⟩, hinput, hinlen, hptr⟩ := h.answers (fatal := fatal) (r := .ok) htop
  exact ⟨⟨hcfg, hcap, fun hne => absurd rfl (hne c hc), hout⟩, hinput, hinlen, hptr⟩

/-- The chunk a SET installs is no part of its frame. -/
theorem CommandFrame.of_withChunk (h : CommandFrame fatal (d.withChunk s) o e top r) : CommandFrame fatal d o e top r :=
  ⟨h.cfg, h.cap, h.failed, h.outside⟩

/-! ### DEC.NEXT and DEC.FLUSH -/

/-- What a command of DEC leaves, with as many data bytes answered as its run has produced. -/
abbrev DecFramed (d e : Decoder) (r : Response) : Prop := ReadingFrame [.malformed] d 0 e r.data.length r

theorem RunFrame.outputDec (h : RunFrame d 0 e o) : (outputDec e o).Leaves (DecFramed d) :=
  CommandEnd.leaves_access fun _ hbs => h.answers (memRead_length hbs).ge

theorem RunFrame.emitDec (h : RunFrame d 0 e o) : (emitDec e o).Leaves (DecFramed d) := by
  unfold Machine.emitDec
  split
  · exact h.outputDec
  next hnone => exact h.answers (Nat.le_of_not_lt hnone)

/-- A refused command of DEC has left the unit as it was. -/
theorem decFramed_refused (d : Decoder) (r : Response) : DecFramed d d r := (RunFrame.refl d 0).answers (Nat.zero_le _)

theorem decNextCommand_framed (h : d.Legal p) : (decNextCommand p d).Leaves (DecFramed d) :=
  checked_leaves (fun r _ => decFramed_refused d r) fun hpre => by
    have hrun := decRun_frame false (h.running ((precheck_eq_none_iff _).mp hpre))
    cases hend : decRun p d 0 false with
    | back e o => rw [hend] at hrun; exact RunFrame.emitDec hrun
    | ended e o => rw [hend] at hrun; exact RunFrame.emitDec hrun
    | stop f => trivial

theorem decFlushCommand_framed (h : d.Legal p) : (decFlushCommand p d).Leaves (DecFramed d) :=
  checked_leaves (fun r _ => decFramed_refused d r) fun hpre => by
    have hrun := decRun_frame true (h.running ((precheck_eq_none_iff _).mp hpre))
    cases hend : decRun p d 0 true with
    | back e o =>
      rw [hend] at hrun
      have hrun : RunFrame d 0 e o := hrun
      simp only
      split
      · exact hrun.outputDec
      next hnone =>
        split
        · exact hrun.answers (Nat.le_of_not_lt hnone)
        · exact hrun.fails (Nat.le_of_not_lt hnone) (List.mem_singleton_self _)
    | ended e o => rw [hend] at hrun; exact RunFrame.emitDec hrun
    | stop f => trivial

/-! ### DOS.SET and DOS.FINISH -/

/-- The fatal errors of DOS's own runs (R113, R114). -/
abbrev dosFatal : List ErrCode := [.malformed, .capacity]

/-- Where the output of a command of DOS ends: at the new `DOS.W`, or, after a RESULT has set it to 0, at the result's length. -/
def dosTop (v : Dos) (r : Response) : Nat := max v.w r.data.length

/-- OutFull in DOS fails with `DOS.W` at the output's end (R87). -/
theorem RunFrame.dosFull (h : RunFrame d o e o') :
    (dosFull e o').Leaves fun v r => ReadingFrame dosFatal d o v.toDecoder (dosTop v r) r :=
  h.fails (Nat.le_max_left _ _) (.tail _ (List.mem_singleton_self _))

/-- DOS.SET keeps its frame: a chunk that is too long is refused, and any other is decoded behind `DOS.W`. -/
theorem dosSetCommand_framed {u : Dos} (h : u.Legal p) (hready : u.Ready) (s : List Byte) :
    (dosSetCommand p s u).Leaves fun v r => CommandFrame dosFatal u.toDecoder u.w v.toDecoder (dosTop v r) r := by
  obtain hlong | hs := Nat.lt_or_ge p.maxIn s.length
  · rw [dosSetCommand_tooLong h hready hlong]
    exact ((RunFrame.refl u.toDecoder u.w).answers (Nat.le_max_left _ _)).toCommandFrame
  · have hinst : DecRunning p (u.toDecoder.withChunk s) u.w := (h.running hready).installed hs
    have hrun := decRun_frame false hinst
    rw [dosSetCommand_eq h hready hs]
    cases hend : decRun p (u.toDecoder.withChunk s) u.w false with
    | back e o =>
      rw [hend] at hrun
      exact (RunFrame.answers hrun (Nat.le_max_left _ _)).toCommandFrame.of_withChunk
    | ended e o =>
      rw [hend] at hrun
      exact (RunFrame.dosFull hrun).mono fun _ _ hframe => hframe.toCommandFrame.of_withChunk
    | stop f => trivial

/-- DOS.FINISH keeps its frame; a RESULT carries all the bytes before the output's end. -/
theorem dosFinishCommand_framed {u : Dos} (h : u.Legal p) :
    (dosFinishCommand p u).Leaves fun v r => ReadingFrame dosFatal u.toDecoder u.w v.toDecoder (dosTop v r) r :=
  checked_leaves (fun _ _ => (RunFrame.refl u.toDecoder u.w).answers (Nat.le_max_left _ _)) fun hpre => by
    have hrun := decRun_frame true (h.running ((precheck_eq_none_iff _).mp hpre))
    cases hend : decRun p u.toDecoder u.w true with
    | back e o =>
      rw [hend] at hrun
      have hrun : RunFrame u.toDecoder u.w e o := hrun
      simp only
      split
      · exact CommandEnd.leaves_access fun bs hbs =>
          hrun.answers ((memRead_length hbs).ge.trans (Nat.le_max_right _ _))
      · exact hrun.fails (Nat.le_max_left _ _) (.head _)
    | ended e o => rw [hend] at hrun; exact RunFrame.dosFull hrun
    | stop f => trivial

end

/-! ### The statements -/

/-- Settles O34: both commands keep the frame of DEC's run. -/
theorem decNextAndFlushFrame : Obligations.DecNextAndFlushFrame := by
  unfold Obligations.DecNextAndFlushFrame
  rintro i s t hi ⟨-, -, hdec, -⟩ - hexec
  have hcmd : ∃ c : CommandEnd Decoder, s.closeDec c = .next t ∧ c.Leaves (DecFramed s.dec) := by
    obtain rfl | rfl := hi
    · exact ⟨_, hexec, decNextCommand_framed hdec⟩
    · exact ⟨_, hexec, decFlushCommand_framed hdec⟩
  obtain ⟨c, hclose, hframe⟩ := hcmd
  obtain ⟨e, r, rfl, rfl⟩ := State.closeDec_eq_next hclose
  obtain ⟨⟨hcfg, hcap, hfailed, hout⟩, hinput, hinlen, hptr⟩ := hframe
  exact ⟨r, rfl, rfl, rfl, rfl, rfl, hcfg, hcap, hinput, hinlen, hptr,
    fun hne => hfailed (List.forall_mem_singleton.mpr hne), fun a ha => hout a (.inr ha)⟩

/-- Settles O40: DOS.SET keeps the frame of its run but for the chunk it installs, and DOS.FINISH keeps the chunk too. -/
theorem dosSetAndFinishFrame : Obligations.DosSetAndFinishFrame := by
  unfold Obligations.DosSetAndFinishFrame
  rintro i s t hi ⟨-, -, -, hdos⟩ hready hexec
  have hcmd : ∃ c : CommandEnd Dos, s.closeDos c = .next t ∧ c.Leaves fun v r =>
      CommandFrame dosFatal s.dos.toDecoder s.dos.w v.toDecoder (dosTop v r) r ∧
        (i = .dosFinish → v.input = s.dos.input ∧ v.inlen = s.dos.inlen) := by
    obtain ⟨chunk, rfl⟩ | rfl := hi
    · exact ⟨_, hexec, (dosSetCommand_framed hdos hready chunk).mono fun _ _ hframe => ⟨hframe, nofun⟩⟩
    · exact ⟨_, hexec, (dosFinishCommand_framed hdos).mono fun _ _ hframe =>
        ⟨hframe.toCommandFrame, fun _ => ⟨hframe.input, hframe.inlen⟩⟩⟩
  obtain ⟨c, hclose, hleaves⟩ := hcmd
  obtain ⟨v, r, rfl, rfl⟩ := State.closeDos_eq_next hclose
  obtain ⟨⟨hcfg, hcap, hfailed, hout⟩, hchunk⟩ := hleaves
  refine ⟨r, rfl, rfl, rfl, rfl, rfl, hcfg, hcap, fun hmal hfull => hfailed ?_, hchunk, fun a ha => hout a ?_⟩
  · exact List.forall_mem_cons.mpr ⟨hmal, List.forall_mem_singleton.mpr hfull⟩
  · exact ha.imp_right max_le_iff.mpr

end Sys2Proof.Machine

/-!
PROOFS for the encode family, part 1: the packed stream one word at a time (R129), and an open range one word at a time
(R119, R122).
-/

namespace Sys2Proof.Machine

open Sys2Proof.Config

/-! ### The words of a range (R129) -/

section
variable {joins : List Byte → Bool} {w x : List Byte}

theorem take_word_add (hw : w.length = 8) (k : Nat) : (w ++ x).take (8 + k) = w ++ x.take k := by
  rw [← hw, List.take_length_add_append]

theorem drop_word_add (hw : w.length = 8) (k : Nat) : (w ++ x).drop (8 + k) = x.drop k := by
  rw [← hw, List.drop_length_add_append]

theorem rangeBytes_nil (k : Nat) : rangeBytes joins k [] = 0 := by
  cases k with
  | zero => rfl
  | succ k => rw [rangeBytes, if_neg (by simp)]

theorem rangeBytes_joins (hw : w.length = 8) (hj : joins w = true) (k : Nat) :
    rangeBytes joins (k + 1) (w ++ x) = 8 + rangeBytes joins k x := by
  have hne : w ++ x ≠ [] := List.ne_nil_of_length_pos (by rw [List.length_append]; omega)
  rw [rangeBytes, List.take_left' hw, List.drop_left' hw, if_pos ⟨hne, hj⟩]

theorem rangeBytes_ends (hw : w.length = 8) (hj : joins w = false) (k : Nat) : rangeBytes joins k (w ++ x) = 0 := by
  cases k with
  | zero => rfl
  | succ k => rw [rangeBytes, List.take_left' hw, if_neg (by simp [hj])]

end

/-! ### An open range -/

section
variable {w x copied : List Byte} {n : Nat}

/-- A zero range takes a zero word. -/
theorem finishZero_joins (hw : w.length = 8) (hz : tag w = TAG_ZERO) (hn : n % 8 = 0) (hlt : n < MAX_EXTRA) :
    finishZero n (w ++ x) = finishZero (n + 8) x := by
  have hleft : MAX_COUNT - n / 8 = MAX_COUNT - (n + 8) / 8 + 1 := by simp only [MAX_COUNT, MAX_EXTRA] at hlt ⊢; omega
  have hj : isZeroWord w = true := decide_eq_true hz
  simp only [finishZero, hleft, rangeBytes_joins hw hj, drop_word_add hw, Nat.add_assoc]

/-- A zero range that takes no more words is its count byte. -/
theorem finishZero_ended (h : rangeBytes isZeroWord (MAX_COUNT - n / 8) x = 0) :
    finishZero n x = countByte n :: pack x := by
  simp only [finishZero, h, Nat.add_zero, List.drop_zero]

/-- A verbatim range takes a word with at most one zero byte. -/
theorem finishVerbatim_joins (hw : w.length = 8) (hj : joinsVerbatim w = true) (hn : copied.length % 8 = 0)
    (hlt : copied.length < MAX_EXTRA) : finishVerbatim copied (w ++ x) = finishVerbatim (copied ++ w) x := by
  have hleft : MAX_COUNT - copied.length / 8 = MAX_COUNT - (copied.length + 8) / 8 + 1 := by
    simp only [MAX_COUNT, MAX_EXTRA] at hlt ⊢; omega
  simp only [finishVerbatim, List.length_append, hw, hleft, rangeBytes_joins hw hj, take_word_add hw, drop_word_add hw,
    Nat.add_assoc, List.append_assoc]

/-- A verbatim range that takes no more words is its count byte and its words. -/
theorem finishVerbatim_ended (h : rangeBytes joinsVerbatim (MAX_COUNT - copied.length / 8) x = 0) :
    finishVerbatim copied x = countByte copied.length :: (copied ++ pack x) := by
  simp only [finishVerbatim, h, Nat.add_zero, List.drop_zero, List.take_zero, List.append_nil]

/-- A verbatim range that has yet to take its first word (R121). -/
theorem finishVerbatim_nil (x : List Byte) :
    finishVerbatim [] x = countByte (rangeBytes joinsVerbatim MAX_COUNT x) ::
      (x.take (rangeBytes joinsVerbatim MAX_COUNT x) ++ pack (x.drop (rangeBytes joinsVerbatim MAX_COUNT x))) := by
  simp only [finishVerbatim, List.length_nil, Nat.zero_div, Nat.sub_zero, Nat.zero_add, List.nil_append]

end

/-! ### The packed stream -/

/-- What follows the packed word of a group whose word has the class `c`, in the packed stream of a word and then `x` (R129). -/
def packRest : TagClass → List Byte → List Byte
  | .zero, x => finishZero 0 x
  | .verb, x => finishVerbatim [] x
  | .lit, x => pack x

/-- The bound on the groups does not matter once it covers the bytes. -/
theorem packAux_fuel (f g : Nat) (x : List Byte) (hf : x.length ≤ f) (hg : x.length ≤ g) : packAux f x = packAux g x := by
  induction f generalizing g x with
  | zero =>
    obtain rfl := List.eq_nil_of_length_eq_zero (Nat.le_zero.mp hf)
    cases g <;> rfl
  | succ f ih =>
    by_cases hnil : x = []
    · subst hnil
      cases g <;> rfl
    have hpos := List.length_pos_iff.mpr hnil
    obtain _ | g := g
    · omega
    have hrest (n : Nat) : packAux f ((x.drop 8).drop n) = packAux g ((x.drop 8).drop n) :=
      ih g _ (by simp only [List.length_drop]; omega) (by simp only [List.length_drop]; omega)
    rw [packAux, packAux, if_neg hnil, if_neg hnil]
    simp only [hrest]
    rw [← List.drop_zero (l := x.drop 8), hrest]

@[simp] theorem pack_nil : pack [] = [] := rfl

/-- The packed stream begins with the packed form of its first word; what follows it is as the word's class says (R129). -/
theorem pack_append {w : List Byte} (hw : w.length = 8) (x : List Byte) :
    pack (w ++ x) = packWord w ++ packRest (tagClass (tag w)) x := by
  have hlen : (w ++ x).length = 7 + x.length + 1 := by rw [List.length_append]; omega
  have hne : w ++ x ≠ [] := List.ne_nil_of_length_pos (by omega)
  have hpack (n : Nat) : packAux (7 + x.length) (x.drop n) = pack (x.drop n) :=
    packAux_fuel _ _ _ (by rw [List.length_drop]; omega) (Nat.le_refl _)
  rw [pack, hlen, packAux, if_neg hne]
  simp only [List.take_left' hw, List.drop_left' hw, hpack]
  cases tagClass (tag w) with
  | zero => simp only [packRest, finishZero, Nat.zero_div, Nat.sub_zero, Nat.zero_add]
  | verb => simp only [packRest, finishVerbatim_nil]
  | lit => exact congrArg (packWord w ++ ·) (hpack 0)

end Sys2Proof.Machine

/-!
PROOFS for the encode family, part 2: what a part of an encode run has done. Whatever it has written is the front of what the
unit owed, and the rest is still owed, however the stream goes on (the argument of R130).
-/

namespace Sys2Proof.Machine

open Sys2Proof.Config

/-! ### What a unit owes in each of its states (R119, R121 to R123) -/

/-- The words a continuation has copied behind its count byte (R31). -/
def Enc.copied (u : Enc) : List Byte := (readBytes? u.out 1 (u.cend - 1)).getD []

section
variable {u : Enc}

theorem Enc.owes_start (hm : u.main = .start) (hc : u.cont = .none) (x : List Byte) : u.owes x = pack x := by
  simp [Enc.owes, hm, hc]

theorem Enc.owes_initializing (hm : u.main = .start) (hc : u.cont = .initializing) (x : List Byte) :
    u.owes x = finishVerbatim [] x := by
  simp [Enc.owes, hm, hc]

theorem Enc.owes_continuing (hm : u.main = .start) (hc : u.cont = .continuing) (x : List Byte) :
    u.owes x = finishVerbatim u.copied x := by
  simp [Enc.owes, hm, hc, Enc.copied]

theorem Enc.owes_zero (hm : u.main = .zeroRangeWriting) (x : List Byte) : u.owes x = finishZero u.mcnt x := by
  simp [Enc.owes, hm]

theorem Enc.owes_verbatim (hm : u.main = .verbatimRangeWriting) (x : List Byte) :
    u.owes x = x.take u.mcnt ++ pack (x.drop u.mcnt) := by
  simp [Enc.owes, hm]

/-- Bytes of a verbatim range that are copied out are the front of those it owes. -/
theorem take_append_pack_drop {bs x : List Byte} {n : Nat} (h : bs.length ≤ n) :
    (bs ++ x).take n ++ pack ((bs ++ x).drop n) =
      bs ++ (x.take (n - bs.length) ++ pack (x.drop (n - bs.length))) := by
  rw [List.take_append, List.drop_append, List.take_of_length_le h, List.drop_eq_nil_of_le h, List.nil_append,
    List.append_assoc]

end

/-! ### Reading on in the chunk -/

section
variable {p : Params} {c : Common}

theorem unread_of_consumed (h : c.inptr = c.inlen) : c.unread = [] := by
  rw [Common.unread, h, Nat.sub_self]; rfl

/-- Bytes read at the cursor are the front of the unread ones. -/
theorem unread_of_readChunk (h : c.Legal p) {k : Nat} {bs : List Byte} (hk : c.inptr + k ≤ c.inlen)
    (hread : readChunk p c c.inptr k = .ok bs) : c.unread = bs ++ Common.unread { c with inptr := c.inptr + k } := by
  have hleft : k ≤ c.inleft := by unfold Common.inleft; omega
  obtain ⟨-, hbs⟩ := (memRead_eq_ok_iff _ _ _ _ _).mp hread
  have hfront := readBytes?_part h.readBytes?_unread (i := 0) (k := k) (by omega)
  rw [Nat.add_zero, List.drop_zero, hbs, Option.some_inj] at hfront
  rw [unread_advance h hleft, hfront, List.take_append_drop]

end

/-! ### Where a range ends -/

/-- What may follow the current chunk: any bytes in a NEXT, none in a FLUSH. -/
abbrev mayFollow (final : Bool) (more : List Byte) : Prop := final = true → more = []

/-- A range with `n` extra bytes takes no more words, whatever follows the current chunk. -/
def rangeEnds (joins : List Byte → Bool) (final : Bool) (n : Nat) (c : Common) : Prop :=
  ∀ more, mayFollow final more → rangeBytes joins (MAX_COUNT - n / 8) (c.unread ++ more) = 0

section
variable {joins : List Byte → Bool} {final : Bool} {c : Common} {n : Nat}

/-- The longest range takes no more words. -/
theorem rangeEnds_longest (hn : n = MAX_EXTRA) : rangeEnds joins final n c := by
  intro more _
  rw [hn]
  rfl

/-- At the end of the stream there are no more words. -/
theorem rangeEnds_consumed (h : c.inptr = c.inlen) : rangeEnds joins true n c := by
  intro more hmore
  rw [unread_of_consumed h, hmore rfl]
  exact rangeBytes_nil _

/-- A word of another kind ends the range. -/
theorem rangeEnds_word {w x : List Byte} (hw : w.length = 8) (hj : joins w = false) (h : c.unread = w ++ x) :
    rangeEnds joins final n c := by
  intro more _
  rw [h, List.append_assoc]
  exact rangeBytes_ends hw hj _

end

/-! ### What a part of a run has done -/

/-- From `u` a part of a run has come to `v`: the cursor has not moved back, no other common field has changed, and every byte of
`ENC.OUT` from `top` on is as it was; however the stream goes on, what `u` owed is `out` and then what `v` owes. -/
structure EncProgress (final : Bool) (u : Enc) (out : List Byte) (v : Enc) (top : Nat) : Prop where
  advanced : ∃ q, u.inptr ≤ q ∧ v.toCommon = { u.toCommon with inptr := q }
  outside : ∀ a, top ≤ a → readByte? v.out a = readByte? u.out a
  owes : ∀ more, mayFollow final more → u.owes (u.unread ++ more) = out ++ v.owes (v.unread ++ more)

/-- From `u` a run has come to `v` and written `OUT[0..o)`, which is the front of what `u` owed. -/
def Encoded (final : Bool) (u v : Enc) (o : Nat) : Prop :=
  ∃ out, readBytes? v.out 0 o = some out ∧ EncProgress final u out v o

/-- The states in which a command that has produced nothing leaves the unit: its chunk is consumed, no continuation has yet to
begin, and after a FLUSH nothing is open at all (R116). -/
def Enc.Waiting (final : Bool) (u : Enc) : Prop :=
  u.inptr = u.inlen ∧ u.cont ≠ .initializing ∧ (final = true → u.main = .start ∧ u.cont = .none)

/-- From `u` a run has ended the command in `v`, and answers with the front of what `u` owed. -/
structure EncEnds (final : Bool) (u v : Enc) (r : Response) : Prop where
  progress : EncProgress final u r.data v (max r.data.length v.cend)
  fits : r.data.length ≤ u.cap
  waits : r.data = [] → v.Waiting final

section
variable {p : Params} {final : Bool} {u v w : Enc} {o top top' q : Nat} {out bs : List Byte}

theorem EncProgress.refl (u : Enc) (top : Nat) : EncProgress final u [] u top where
  advanced := ⟨u.inptr, Nat.le_refl _, rfl⟩
  outside _ _ := rfl
  owes _ _ := rfl

theorem EncProgress.trans (h : EncProgress final u out v top) (h' : EncProgress final v bs w top') (htop : top ≤ top') :
    EncProgress final u (out ++ bs) w top' where
  advanced := by
    obtain ⟨q, hq, hv⟩ := h.advanced
    obtain ⟨q', hq', hw⟩ := h'.advanced
    rw [hv] at hq' hw
    exact ⟨q', Nat.le_trans hq hq', hw⟩
  outside a ha := by rw [h'.outside a ha, h.outside a (Nat.le_trans htop ha)]
  owes more hmore := by rw [h.owes more hmore, h'.owes more hmore, List.append_assoc]

theorem EncProgress.mono (h : EncProgress final u out v top) (htop : top ≤ top') : EncProgress final u out v top' where
  advanced := h.advanced
  outside a ha := h.outside a (Nat.le_trans htop ha)
  owes := h.owes

theorem EncProgress.cap_eq (h : EncProgress final u out v top) : v.cap = u.cap := by
  obtain ⟨q, -, hv⟩ := h.advanced
  rw [hv]

/-- Writing `bs` at an offset, and reading on, when `bs` is the front of what the unit owes. -/
theorem EncProgress.put (hq : v.inptr ≤ q) (hcommon : w.toCommon = { v.toCommon with inptr := q })
    (hout : w.out = writeBytes v.out o bs)
    (howes : ∀ more, mayFollow final more → v.owes (v.unread ++ more) = out ++ w.owes (w.unread ++ more)) :
    EncProgress final v out w (o + bs.length) where
  advanced := ⟨q, hq, hcommon⟩
  outside a ha := by rw [hout, readByte?_writeBytes_outside (.inr ha)]
  owes := howes

/-- Writing the next bytes that the unit owes behind the output. -/
theorem Encoded.put (h : Encoded final u v o) (hq : v.inptr ≤ q) (hcommon : w.toCommon = { v.toCommon with inptr := q })
    (hout : w.out = writeBytes v.out o bs)
    (howes : ∀ more, mayFollow final more → v.owes (v.unread ++ more) = bs ++ w.owes (w.unread ++ more)) :
    Encoded final u w (o + bs.length) := by
  obtain ⟨out, hread, hprogress⟩ := h
  have happ := readBytes?_writeBytes_append (bs := bs) hread
  rw [Nat.zero_add] at happ
  exact ⟨out ++ bs, by rw [hout, happ], hprogress.trans (.put hq hcommon hout howes) (Nat.le_add_right _ _)⟩

/-- Reading on without writing, when the unit owes the same. -/
theorem Encoded.move (h : Encoded final u v o) (hq : v.inptr ≤ q) (hcommon : w.toCommon = { v.toCommon with inptr := q })
    (hout : w.out = v.out)
    (howes : ∀ more, mayFollow final more → v.owes (v.unread ++ more) = w.owes (w.unread ++ more)) :
    Encoded final u w o := by
  obtain ⟨out, hread, hprogress⟩ := h
  have hstep : EncProgress final v [] w o := ⟨⟨q, hq, hcommon⟩, fun a _ => by rw [hout], howes⟩
  exact ⟨out, by rw [hout, hread], List.append_nil out ▸ hprogress.trans hstep (Nat.le_refl _)⟩

/-- A run that has written nothing owes what it owed. -/
theorem Encoded.refl (u : Enc) : Encoded final u u 0 := ⟨[], rfl, .refl u 0⟩

/-- Ending the command answers what the run has written; with nothing written the unit must be waiting (R116). -/
theorem Encoded.emit {α : Type} {B : Enc → α → Prop} (h : Encoded final u v o) (hfits : o ≤ v.cap)
    (hwaits : o = 0 → v.Waiting final) : (emitE v o final : EncFlow α).Meets B (EncEnds final u) := by
  obtain ⟨out, hread, hprogress⟩ := h
  have hlen := readBytes?_length hread
  by_cases ho : 0 < o
  · rw [emitE_output final ho hfits hread]
    refine ⟨hprogress.mono ?_, ?_, fun hnil => ?_⟩
    · exact hlen ▸ Nat.le_max_left _ _
    · rw [← hprogress.cap_eq]; exact hlen ▸ hfits
    · have hnil : out = [] := hnil
      rw [hnil] at hlen
      exact absurd hlen (Nat.ne_of_lt ho)
  · obtain rfl := Nat.eq_zero_of_not_pos ho
    obtain rfl := List.eq_nil_of_length_eq_zero hlen
    have hdata : (if final = true then Response.done else Response.none).data = [] := by split <;> rfl
    rw [emitE_nothing]
    refine ⟨?_, ?_, fun _ => hwaits rfl⟩ <;> rw [hdata]
    · exact hprogress.mono (Nat.zero_le _)
    · exact Nat.zero_le _

end

end Sys2Proof.Machine

/-!
PROOFS for the encode family, part 3: what each procedure of the encode machine writes (R117 to R123).
-/

namespace Sys2Proof.Machine

open Sys2Proof.Config

section
variable {p : Params} {final : Bool} {u v : Enc} {o : Nat}

/-! ### The continuation (R118, R119) -/

/-- A byte written in front of bytes that are held. -/
theorem readBytes?_writeBytes_front {m : Mem} {b : Byte} {n : Nat} {bs : List Byte} (h : readBytes? m 1 n = some bs) :
    readBytes? (writeBytes m 0 [b]) 0 (1 + n) = some (b :: bs) := by
  have hfirst : readBytes? (writeBytes m 0 [b]) 0 1 = some [b] := readBytes?_writeBytes_self m 0 [b]
  have hrest : readBytes? (writeBytes m 0 [b]) 1 n = some bs :=
    (readBytes?_writeBytes_outside (.inr (Nat.le_refl _))).trans h
  rw [readBytes?_add, hfirst, Option.bind_some, hrest]
  rfl

theorem EncContinuing.readBytes?_copied (h : EncContinuing p v v.cend) :
    readBytes? v.out 1 (v.cend - 1) = some v.copied := by
  obtain ⟨bs, hbs⟩ := Option.isSome_iff_exists.mp h.held
  rw [Enc.copied, hbs]
  rfl

theorem EncContinuing.copied_length (h : EncContinuing p v v.cend) : v.copied.length = v.cend - 1 :=
  readBytes?_length h.readBytes?_copied

/-- The unit after a word `w` of the chunk has joined its continuation. -/
def contTook (v : Enc) (w : List Byte) : Enc :=
  { v with out := writeBytes v.out v.cend w, inptr := v.inptr + 8, cend := v.cend + 8 }

section
variable {w : List Byte}

/-- The word is behind the words copied before. -/
theorem readBytes?_contTook (h : EncContinuing p v v.cend) (hw : w.length = 8) :
    readBytes? (contTook v w).out 1 ((contTook v w).cend - 1) = some (v.copied ++ w) := by
  have hwords := h.words
  have happ := readBytes?_writeBytes_append (bs := w) h.readBytes?_copied
  have hend : 1 + (v.cend - 1) = v.cend := by omega
  have hlen : v.cend - 1 + w.length = v.cend + 8 - 1 := by omega
  rwa [hend, hlen] at happ

theorem contTook_continuing (h : EncContinuing p v v.cend) (hmore : v.cend - 1 ≠ MAX_EXTRA) (hlt : v.inptr + 8 ≤ v.inlen)
    (hw : w.length = 8) : EncContinuing p (contTook v w) (contTook v w).cend := by
  have hwords := h.words
  have hbound := h.bound
  have hcursor := h.cursor
  have hcap : 2048 ≤ v.cap := h.base.cap.1
  have hheld := congrArg Option.isSome (readBytes?_contTook h hw)
  simp only [MAX_EXTRA] at hmore
  exact ⟨(h.base.put (by omega)).moved hlt, h.main, h.mcnt, h.cont, by simp only [contTook]; omega,
    by simp only [contTook]; omega, by simp only [contTook]; omega, hheld⟩

/-- A word that joins the continuation is owed before and after: it has moved from the chunk behind the words copied. -/
theorem contTook_progress (h : EncContinuing p v v.cend) (hmore : v.cend - 1 ≠ MAX_EXTRA) (hlt : v.inptr + 8 ≤ v.inlen)
    (hread : readChunk p v.toCommon v.inptr 8 = .ok w) (hj : joinsVerbatim w = true) :
    EncProgress final v [] (contTook v w) (contTook v w).cend := by
  have hw : w.length = 8 := memRead_length hread
  have hwords := h.words
  have hbound := h.bound
  have hlen := h.copied_length
  have hcopied : (contTook v w).copied = v.copied ++ w := congrArg (Option.getD · []) (readBytes?_contTook h hw)
  simp only [MAX_EXTRA] at hmore
  have hput : EncProgress final v [] (contTook v w) (v.cend + w.length) :=
    .put (Nat.le_add_right _ 8) rfl rfl fun more _ => by
      rw [Enc.owes_continuing h.main h.cont, unread_of_readChunk h.base.common hlt hread, List.append_assoc,
        finishVerbatim_joins hw hj (by omega) (by simp only [MAX_EXTRA]; omega), Enc.owes_continuing, hcopied]
      exacts [rfl, h.main, h.cont]
  rwa [hw] at hput

end

/-- How the scan of a continuation that began in `u` leaves the unit: at the end of its range, with everything still owed. -/
structure ContScanned (p : Params) (final : Bool) (u v : Enc) (e : Nat) : Prop where
  cend : v.cend = e
  continuing : EncContinuing p v v.cend
  progress : EncProgress final u [] v v.cend
  ends : rangeEnds joinsVerbatim final (v.cend - 1) v.toCommon

/-- The scan of a continuation owes what it owed, whether the range ends or the chunk runs out first (R119). -/
theorem contLoop_encodes (fuel : Nat) (v : Enc) (h : EncContinuing p v v.cend) (hprogress : EncProgress final u [] v v.cend)
    (hf : (2041 - v.cend) / 8 < fuel) :
    (contLoop p final fuel v v.cend).Meets (ContScanned p final u) (EncEnds final u) := by
  induction fuel generalizing v with
  | zero => omega
  | succ fuel ih =>
    have hwords := h.words
    have hbound := h.bound
    have hcap : 2048 ≤ v.cap := h.base.cap.1
    by_cases hfull : v.cend - 1 = MAX_EXTRA
    · rw [contLoop_full p final fuel v _ hfull]
      exact ⟨rfl, h, hprogress, rangeEnds_longest hfull⟩
    by_cases hi : v.inptr = v.inlen
    · rw [contLoop_drained p final fuel v _ hfull hi]
      cases final with
      | true => exact ⟨rfl, h, hprogress, rangeEnds_consumed hi⟩
      | false =>
        exact ⟨hprogress.mono (Nat.le_max_right _ _), Nat.zero_le _, fun _ => ⟨hi, by simp [h.cont], nofun⟩⟩
    obtain ⟨hlt, w, hread, hw⟩ := h.base.read_word h.cursor hi
    have hspace := hfull
    simp only [MAX_EXTRA] at hspace
    rw [contLoop_word hfull hi hread (by omega)]
    split
    next hj =>
      exact ih (contTook v w) (contTook_continuing h hfull hlt hw)
        (hprogress.trans (contTook_progress h hfull hlt hread hj) (Nat.le_add_right _ _)) (by simp only [contTook]; omega)
    next hj =>
      exact ⟨rfl, h, hprogress, rangeEnds_word hw (Bool.eq_false_of_not_eq_true hj)
        (unread_of_readChunk h.base.common hlt hread)⟩

/-- A continuation that has ended has written its count byte and its words (R119). -/
theorem contScan_encodes (h : EncContinuing p v v.cend) (hprogress : EncProgress final u [] v v.cend) :
    (contScan p v final).Meets (Encoded final u) (EncEnds final u) := by
  refine (contLoop_encodes scanFuel v h hprogress (by simp only [scanFuel, MAX_COUNT]; omega)).bind
    (fun v e hv => ?_) (fun _ _ he => he)
  obtain ⟨rfl, h, hprogress, hends⟩ := hv
  have hwords := h.words
  have hbound := h.bound
  have hcap : 2048 ≤ v.cap := h.base.cap.1
  have hend : 1 + (v.cend - 1) = v.cend := by omega
  have hlen := h.copied_length
  have hread := readBytes?_writeBytes_front (b := countByte (v.cend - 1)) h.readBytes?_copied
  rw [hend] at hread
  rw [putOut_of_le _ (by simp only [List.length_singleton]; omega)]
  refine ⟨_, hread, hprogress.trans (.mono (.put (Nat.le_refl v.inptr) rfl rfl fun more hmore => ?_)
    (by simp only [List.length_singleton]; omega)) (Nat.le_refl _)⟩
  have hnone := hends more hmore
  rw [← hlen] at hnone
  rw [Enc.owes_continuing h.main h.cont, finishVerbatim_ended hnone, hlen, Enc.owes_start]
  exacts [rfl, h.main, rfl]

/-- The continuation part of a run (R117). -/
theorem contPhase_encodes (hl : u.Legal p) (hready : u.Ready) :
    (contPhase p u final).Meets (Encoded final u) (EncEnds final u) := by
  obtain ⟨hcommon, -, hcap, hwords, hout, hmain, ⟨hstart, -, hcont⟩, -⟩ := hl
  have hbase : EncBase p u.toCommon u.out := ⟨hcommon, hready, hcap hready.1, hwords, hout⟩
  cases hc : u.cont with
  | none =>
    rw [contPhase_none p u final hc]
    exact Encoded.refl u
  | initializing =>
    have hm := hstart (by simp [hc])
    obtain ⟨hn, hi⟩ := hmain.1 hm
    rw [contPhase, hc]
    refine contScan_encodes ⟨hbase, hm, hn, rfl, hi, rfl, by rw [contEnter_cend]; omega, rfl⟩
      ⟨⟨u.inptr, Nat.le_refl _, rfl⟩, fun _ _ => rfl, fun more _ => ?_⟩
    rw [Enc.owes_initializing hm hc, Enc.owes_continuing]
    exacts [rfl, hm, rfl]
  | continuing =>
    have hm := hstart (by simp [hc])
    obtain ⟨hn, hi⟩ := hmain.1 hm
    obtain ⟨he, hle, hheld⟩ := hcont hc
    rw [contPhase, hc]
    exact contScan_encodes ⟨hbase, hm, hn, hc, hi, he, by omega, hheld⟩ (EncProgress.refl u u.cend)

/-! ### Opening a verbatim range (R121) -/

/-- The peek counts the words that join the range: those of the whole stream, unless it stops at the chunk's end with more to
follow and the range is not the longest one. -/
theorem peekVerb_counts {c : Common} (hc : c.Legal p) (hwords : c.inlen % 8 = 0) {more : List Byte} {k e : Nat}
    (fuel j q : Nat) (hq : q % 8 = 0) (hle : q ≤ c.inlen) (hj : j % 8 = 0) (hmax : j ≤ MAX_EXTRA)
    (hpeek : peekVerb p c fuel j q = .ok (k, e)) (hend : k = MAX_EXTRA ∨ e < c.inlen ∨ more = []) :
    k = j + rangeBytes joinsVerbatim (MAX_COUNT - j / 8) (Common.unread { c with inptr := q } ++ more) := by
  induction fuel generalizing j q with
  | zero => cases hpeek
  | succ fuel ih =>
    have hlegal : Common.Legal p { c with inptr := q } := hc.advanced hle
    rw [peekVerb] at hpeek
    simp only [MAX_EXTRA] at hmax hend hpeek
    split at hpeek
    next hgo =>
      obtain ⟨hlt, hin⟩ := hgo
      have hin8 : q + 8 ≤ c.inlen := by omega
      obtain ⟨w, hread, -, hw⟩ := readChunk_of_legal hc hin8
      have hunread := unread_of_readChunk hlegal hin8 hread
      rw [hread] at hpeek
      simp only at hpeek
      rw [hunread, List.append_assoc]
      split at hpeek
      next hjoins =>
        have hcount : MAX_COUNT - j / 8 = MAX_COUNT - (j + 8) / 8 + 1 := by simp only [MAX_COUNT]; omega
        rw [ih (j + 8) (q + 8) (by omega) hin8 (by omega) (by simp only [MAX_EXTRA]; omega) hpeek, hcount,
          rangeBytes_joins hw hjoins, Nat.add_assoc]
      next hother =>
        obtain ⟨rfl, rfl⟩ := by simpa using hpeek
        rw [rangeBytes_ends hw (Bool.eq_false_of_not_eq_true hother), Nat.add_zero]
    next hstop =>
      obtain ⟨rfl, rfl⟩ := by simpa using hpeek
      by_cases hfull : j = 2040
      · rw [hfull]; rfl
      · have hcur : q = c.inlen := by omega
        have hnil : more = [] := by
          obtain h | h | h := hend
          · omega
          · omega
          · exact h
        rw [unread_of_consumed hcur, hnil, List.append_nil, rangeBytes_nil, Nat.add_zero]

/-- `StartVerb` writes the count byte of the range that is owed, or leaves the range to the next command (R121). -/
theorem startVerb_encodes (h : EncBase p v.toCommon v.out) (hi : v.inptr % 8 = 0) (hm : v.main = .start)
    (hcont : v.cont = .none) (ho : 0 < o) (hc : o + 1 ≤ v.cap) (henc : Encoded final u { v with cont := .initializing } o) :
    (startVerb p v o final).Meets (Encoded final u) (EncEnds final u) := by
  obtain ⟨j, hpeek, -⟩ := peekVerb_ok h.common h.words hi scanFuel 0 rfl (Nat.zero_le _) h.common.1 (by decide)
  by_cases hend : j = MAX_EXTRA ∨ v.inptr + j < v.inlen ∨ final = true
  · have hcount : ∀ more, mayFollow final more → j = rangeBytes joinsVerbatim MAX_COUNT (v.unread ++ more) :=
      fun more hmore => (peekVerb_counts h.common h.words scanFuel 0 v.inptr hi h.common.1 rfl (Nat.zero_le _) hpeek
        (hend.imp_right (Or.imp_right hmore))).trans (Nat.zero_add _)
    have howed : ∀ more, mayFollow final more → Enc.owes { v with cont := .initializing } (v.unread ++ more) =
        [countByte j] ++ ((v.unread ++ more).take j ++ pack ((v.unread ++ more).drop j)) := fun more hmore => by
      rw [Enc.owes_initializing, finishVerbatim_nil, ← hcount more hmore]
      exacts [rfl, hm, rfl]
    rw [startVerb_closed hpeek hend hc]
    split
    next =>
      refine henc.put (bs := [countByte j]) (Nat.le_refl _) rfl rfl fun more hmore => ?_
      rw [howed more hmore, Enc.owes_verbatim]
      rfl
    next hnone =>
      obtain rfl : j = 0 := by omega
      refine henc.put (bs := [countByte 0]) (Nat.le_refl _) rfl rfl fun more hmore => ?_
      rw [howed more hmore, Enc.owes_start]
      exacts [rfl, hm, hcont]
  · obtain ⟨hne, hge, hfinal⟩ := not_or.mp hend |>.imp_right not_or.mp
    rw [Bool.eq_false_of_not_eq_true hfinal] at henc ⊢
    rw [startVerb_open hpeek hne (by omega)]
    exact henc.emit (Nat.le_of_succ_le hc) fun hzero => absurd hzero (Nat.ne_of_gt ho)

/-! ### The main machine (R120, R122, R123) -/

/-- A full output buffer of ENC holds output: it has space for a head at least (R7). -/
theorem EncBase.offset_ne_zero {c : Common} {m : Mem} {n : Nat} (h : EncBase p c m) (hfull : c.cap < o + n) (hn : n ≤ 10) :
    o ≠ 0 := by
  have hcap : 2048 ≤ c.cap := h.cap.1
  omega

/-- `StartWord` writes the packed word, and goes on with what follows it in its group (R120). -/
theorem startWord_encodes (h : EncRunning p v o) (hm : v.main = .start) (henc : Encoded final u v o) :
    (startWord p v o final).Meets (Encoded final u) (EncEnds final u) := by
  obtain ⟨-, hi⟩ := h.main.1 hm
  by_cases hne : v.inptr = v.inlen
  · rw [startWord_drained p v o final hne]
    exact henc.emit h.fits fun _ => ⟨hne, by simp [h.cont], fun _ => ⟨hm, h.cont⟩⟩
  obtain ⟨hlt, w, hread, hw⟩ := h.base.read_word hi hne
  rw [startWord_word hne hread]
  split
  next hfull => exact henc.emit h.fits fun hzero => absurd hzero (h.base.offset_ne_zero hfull (head_le_ten _))
  next hspace =>
  have hlen := packWord_length_add_count hw
  have hfit : o + (packWord w).length ≤ v.cap := by omega
  have howed (more : List Byte) : v.owes (v.unread ++ more) =
      packWord w ++ packRest (tagClass (tag w)) (Common.unread { v.toCommon with inptr := v.inptr + 8 } ++ more) := by
    rw [Enc.owes_start hm h.cont, unread_of_readChunk h.base.common hlt hread, List.append_assoc, pack_append hw]
  rw [putOut_of_le _ hfit]
  cases hclass : tagClass (tag w) with
  | zero =>
    refine henc.put (Nat.le_add_right _ 8) rfl rfl fun more _ => ?_
    rw [howed, hclass, Enc.owes_zero]
    exacts [rfl, rfl]
  | verb =>
    rw [hclass, if_neg (by simp)] at hlen
    have hpos := List.length_pos_iff.mpr (packWord_ne_nil w)
    refine startVerb_encodes ((h.base.put hfit).moved hlt) (by simp only; omega) hm h.cont (by omega) (by simp only; omega) ?_
    refine henc.put (Nat.le_add_right _ 8) rfl rfl fun more _ => ?_
    rw [howed, hclass, Enc.owes_initializing]
    exacts [rfl, hm, rfl]
  | lit =>
    refine henc.put (Nat.le_add_right _ 8) rfl rfl fun more _ => ?_
    rw [howed, hclass, Enc.owes_start]
    exacts [rfl, hm, h.cont]

/-- The unit after a zero word of the chunk has joined its zero range. -/
def zeroTook (v : Enc) : Enc := { v with inptr := v.inptr + 8, mcnt := v.mcnt + 8 }

theorem zeroTook_scan (h : EncZeroScan p v o v.mcnt) (hmax : v.mcnt ≠ MAX_EXTRA) (hlt : v.inptr + 8 ≤ v.inlen) :
    EncZeroScan p (zeroTook v) o (zeroTook v).mcnt := by
  obtain ⟨-, hi⟩ := h.running.main.1 rfl
  have hwords := h.words
  have hbound := h.bound
  simp only [MAX_EXTRA] at hmax hbound
  have hmoved := h.running.moved (q := v.inptr + 8) hlt (Enc.mainLegal_start rfl rfl (by simp only at hi ⊢; omega)) (by simp)
  exact ⟨hmoved, h.main, rfl, by simp only [zeroTook]; omega, by simp only [zeroTook, MAX_EXTRA]; omega, h.space⟩

/-- The scan of a zero range owes what it owed, whether the range ends or the chunk runs out first (R122). -/
theorem zLoop_encodes (fuel : Nat) (v : Enc) (h : EncZeroScan p v o v.mcnt) (henc : Encoded final u v o)
    (hf : (MAX_EXTRA - v.mcnt) / 8 < fuel) :
    (zLoop p o final fuel v v.mcnt).Meets
      (fun v n => EncZeroScan p v o n ∧ Encoded final u v o ∧ rangeEnds isZeroWord final n v.toCommon) (EncEnds final u) := by
  induction fuel generalizing v with
  | zero => omega
  | succ fuel ih =>
    rw [zLoop]
    split
    next hmax => exact ⟨h, henc, rangeEnds_longest hmax⟩
    next hmax =>
    split
    next hi =>
      cases final with
      | true => exact ⟨h, henc, rangeEnds_consumed hi⟩
      | false => exact henc.emit h.running.fits fun _ => ⟨hi, by simp [show v.cont = .none from h.running.cont], nofun⟩
    next hne =>
    obtain ⟨-, hi⟩ := h.running.main.1 rfl
    obtain ⟨hlt, w, hread, hw⟩ := h.running.base.read_word hi hne
    have hunread := unread_of_readChunk h.running.base.common hlt hread
    rw [show readChunk p v.toCommon v.inptr 8 = .ok w from hread, Flow.access_ok]
    split
    next hother => exact ⟨h, henc, rangeEnds_word hw (decide_eq_false hother) hunread⟩
    next hzero =>
      have hwords := h.words
      have hbound := h.bound
      refine ih (zeroTook v) (zeroTook_scan h hmax hlt) (henc.move (Nat.le_add_right _ 8) rfl rfl fun more _ => ?_) ?_
      · have howed : v.unread ++ more = w ++ ((zeroTook v).unread ++ more) := by
          rw [← List.append_assoc]
          exact congrArg (· ++ more) hunread
        rw [Enc.owes_zero h.main, Enc.owes_zero (u := zeroTook v) h.main, howed,
          finishZero_joins hw (not_not.mp hzero) hwords (by omega)]
        rfl
      · simp only [zeroTook, MAX_EXTRA] at hmax hbound hf ⊢
        omega

/-- `ZScan` writes the count byte of the range that is owed (R122). -/
theorem zScan_encodes (h : EncRunning p v o) (hm : v.main = .zeroRangeWriting) (henc : Encoded final u v o) :
    (zScan p v o final).Meets (Encoded final u) (EncEnds final u) := by
  obtain ⟨hw, hn, hi⟩ := h.main.2.1 hm
  have hscan : EncZeroScan p v o v.mcnt :=
    ⟨h.moved h.base.common.1 (Enc.mainLegal_start rfl rfl hi) (by simp), hm, rfl, hw,
      by simp only [MAX_EXTRA]; omega, h.space hm⟩
  refine (zLoop_encodes scanFuel v hscan henc (by simp only [MAX_EXTRA, scanFuel, MAX_COUNT]; omega)).bind
    (fun v n hv => ?_) (fun _ _ he => he)
  obtain ⟨hscan, henc, hends⟩ := hv
  obtain rfl := hscan.mcnt
  have hspace := hscan.space
  rw [if_neg (by omega), putOut_of_le _ (by simp only [List.length_singleton]; omega)]
  refine henc.put (bs := [countByte v.mcnt]) (Nat.le_refl _) rfl rfl fun more hmore => ?_
  rw [Enc.owes_zero hscan.main, finishZero_ended (hends more hmore), Enc.owes_start]
  exacts [rfl, rfl, hscan.running.cont]

/-- `VWrite` copies the next bytes of its range (R123). -/
theorem vWrite_encodes (h : EncRunning p v o) (hm : v.main = .verbatimRangeWriting) (henc : Encoded final u v o) :
    (vWrite p v o final).Meets (Encoded final u) (EncEnds final u) := by
  obtain ⟨hpos, hmax, hin, hwords⟩ := h.main.2.2 hm
  have hcur := h.base.common.1
  have hfits := h.fits
  by_cases hk : min v.mcnt (v.cap - o) = 0
  · rw [vWrite_no_space p v o final hk]
    exact henc.emit h.fits fun hzero => absurd hzero (h.base.offset_ne_zero (n := 1) (by omega) (by decide))
  have hall : v.inptr + min v.mcnt (v.cap - o) ≤ v.inlen := by omega
  obtain ⟨bs, hread, -, hl⟩ := readChunk_of_legal h.base.common hall
  have howed (more : List Byte) : v.owes (v.unread ++ more) =
      bs ++ ((Common.unread { v.toCommon with inptr := v.inptr + bs.length } ++ more).take (v.mcnt - bs.length) ++
        pack ((Common.unread { v.toCommon with inptr := v.inptr + bs.length } ++ more).drop (v.mcnt - bs.length))) := by
    rw [Enc.owes_verbatim hm, unread_of_readChunk h.base.common hall hread, List.append_assoc,
      take_append_pack_drop (by omega), hl]
  rw [vWrite_some (by omega) hread, putOut_of_le _ (by omega), ← hl]
  simp only
  split
  next hsome =>
    refine (henc.put (Nat.le_add_right _ bs.length) rfl rfl fun more _ => ?_).emit (by simp only; omega) (by omega)
    rw [howed, Enc.owes_verbatim]
    exact hm
  next hnone =>
    refine henc.put (Nat.le_add_right _ bs.length) rfl rfl fun more _ => ?_
    have hrest : v.mcnt - bs.length = 0 := by omega
    rw [howed, hrest, Enc.owes_start]
    exacts [rfl, rfl, h.cont]

/-- Every pass of the main machine writes the next bytes that are owed (R117). -/
theorem encPass_encodes (h : EncRunning p v o) (henc : Encoded final u v o) :
    (encPass p v o final).Meets (Encoded final u) (EncEnds final u) := by
  rw [encPass]
  cases hm : v.main with
  | start => exact startWord_encodes h hm henc
  | zeroRangeWriting => exact zScan_encodes h hm henc
  | verbatimRangeWriting => exact vWrite_encodes h hm henc

theorem encLoop_encodes (fuel : Nat) (v : Enc) (o : Nat) (h : EncRunning p v o) (henc : Encoded final u v o)
    (hf : encPassesLeft v < fuel) : (encLoop p final fuel v o).Meets (fun _ _ => False) (EncEnds final u) := by
  induction fuel generalizing v o with
  | zero => omega
  | succ fuel ih =>
    rw [encLoop]
    refine ((encPass_meets h).and (encPass_encodes h henc)).bind (fun v' o' hv => ?_) (fun _ _ he => he.2)
    obtain ⟨⟨hrun, hlt⟩, henc'⟩ := hv
    exact ih v' o' hrun henc' (by omega)

/-- A run answers with the front of what the unit owes, and leaves the rest to be answered (R130). -/
theorem encRun_encodes (hl : u.Legal p) (hready : u.Ready) :
    (encRun p u final).Meets (fun _ _ => False) (EncEnds final u) :=
  ((contPhase_meets hl hready).and (contPhase_encodes hl hready)).bind
    (fun v o hv => encLoop_encodes _ v o hv.1 hv.2 (encPassesLeft_lt_encodeFuel v)) (fun _ _ he => he.2)

end

end Sys2Proof.Machine

/-!
PROOFS for the encode family, part 4: what ENC.NEXT and ENC.FLUSH answer and leave (R125 to R128).
-/

namespace Sys2Proof.Machine

open Sys2Proof.Config

section
variable {p : Params} {final : Bool} {u v : Enc} {r : Response}

/-! ### The answers of a run -/

/-- The answer of a run with nothing to output (R116). -/
def idleAnswer (final : Bool) : Response := if final = true then .done else .none

/-- A run answers its data, or, with none, that it is idle. -/
theorem runAnswer.eq_output_or_idle (h : runAnswer final r) :
    (r = .output r.data ∧ r.data ≠ []) ∨ (r = idleAnswer final ∧ r.data = []) := by
  obtain ⟨d, rfl, hne⟩ | rfl := h
  · exact .inl ⟨rfl, hne⟩
  · exact .inr ⟨rfl, by split <;> rfl⟩

/-- A command of a legal ready unit answers the front of what the unit owes, and leaves it legal and ready (R126, R127). -/
theorem encRunCommand_encodes (final : Bool) (h : u.Legal p) (hready : u.Ready) :
    ∃ v r, encRunCommand p final u = .respond v r ∧ (v.Legal p ∧ v.Ready) ∧ EncEnds final u v r ∧
      ((r = .output r.data ∧ r.data ≠ []) ∨ (r = idleAnswer final ∧ r.data = [])) := by
  have hlegal := encRun_meets (final := final) h hready
  have hends := encRun_encodes (final := final) h hready
  have hanswer := encRun_answers (p := p) (final := final) u
  cases hrun : encRun p u final with
  | back v o => rw [hrun] at hends; exact hends.elim
  | stop f => rw [hrun] at hends; exact hends.elim
  | ended v r =>
    rw [hrun] at hlegal hends hanswer
    have hends : EncEnds final u v r := hends
    have hanswer : runAnswer final r := hanswer
    have hcmd : encRunCommand p final u = .respond v r :=
      (encRunCommand_eq_respond_iff p final u v r).mpr (.inr ⟨(precheck_eq_none_iff _).mpr hready, hrun⟩)
    have hready' : v.Ready := by
      obtain ⟨q, -, hv⟩ := hends.progress.advanced
      rw [hv]
      exact hready
    exact ⟨v, r, hcmd, ⟨hlegal, hready'⟩, hends, hanswer.eq_output_or_idle⟩

/-- What a command leaves owed is what was owed without its data. -/
theorem EncEnds.owes_drop (h : EncEnds final u v r) {more : List Byte} (hmore : mayFollow final more) :
    u.owes (u.unread ++ more) = r.data ++ v.owes (v.unread ++ more) := h.progress.owes more hmore

/-! ### Waiting (R116, R128) -/

/-- A zero range whose chunk runs out ends in a FLUSH, and ends the command in a NEXT. -/
theorem zLoop_drained (p : Params) (o : Nat) (final : Bool) (fuel : Nat) (u : Enc) {n : Nat} (h : n ≠ MAX_EXTRA)
    (hi : u.inptr = u.inlen) :
    zLoop p o final (fuel + 1) u n = if final then .back u n else emitE u o final := by
  rw [zLoop, if_neg h, if_pos hi]

/-- A NEXT of a unit that waits for more of the stream answers NONE and changes nothing, in whatever state it waits. -/
theorem encNextCommand_of_waiting (h : u.Legal p) (hready : u.Ready) (hwaits : u.Waiting false) :
    encNextCommand p u = .respond u .none := by
  obtain ⟨hcur, hinit, -⟩ := hwaits
  obtain ⟨-, -, -, -, -, ⟨-, hzero, hverb⟩, ⟨-, -, hcont⟩, -⟩ := h
  have hfuel : encodeFuel u = u.inleft + 3 + 1 := rfl
  refine (encRunCommand_eq_respond_iff p false u u .none).mpr (.inr ⟨(precheck_eq_none_iff _).mpr hready, ?_⟩)
  rw [encRun]
  cases hc : u.cont with
  | initializing => exact absurd hc hinit
  | continuing =>
    obtain ⟨-, hle, -⟩ := hcont hc
    rw [contPhase, hc]
    simp only [contScan]
    rw [contLoop_drained p false MAX_COUNT u _ (by simp only [MAX_EXTRA]; omega) hcur]
    rfl
  | none =>
    rw [contPhase_none p u false hc, Flow.bind_back, hfuel, encLoop, encPass]
    cases hm : u.main with
    | start =>
      simp only [startWord_drained p u 0 false hcur, emitE_nothing]
      rfl
    | zeroRangeWriting =>
      obtain ⟨-, hle, -⟩ := hzero hm
      simp only [zScan]
      rw [zLoop_drained p 0 false MAX_COUNT u (by simp only [MAX_EXTRA]; omega) hcur, if_neg (by simp), emitE_nothing]
      rfl
    | verbatimRangeWriting =>
      obtain ⟨hpos, -, hleft, -⟩ := hverb hm
      omega

/-- A unit that owes nothing at the end of the stream has nothing open and nothing unread. -/
theorem Enc.nothing_owed (h : u.Legal p) (hnil : u.owes u.unread = []) :
    u.main = .start ∧ u.cont = .none ∧ u.inptr = u.inlen := by
  obtain ⟨hcommon, -, -, hwords, -, ⟨hstart, -, hverb⟩, -⟩ := h
  have hlen := hcommon.unread_length
  have hcur := hcommon.1
  unfold Common.inleft at hlen
  cases hm : u.main with
  | zeroRangeWriting => rw [Enc.owes_zero hm] at hnil; cases hnil
  | verbatimRangeWriting =>
    obtain ⟨hpos, -, hleft, -⟩ := hverb hm
    rw [Enc.owes_verbatim hm, List.append_eq_nil_iff] at hnil
    have htake := congrArg List.length hnil.1
    rw [List.length_take, List.length_nil] at htake
    omega
  | start =>
    cases hc : u.cont with
    | initializing => rw [Enc.owes_initializing hm hc] at hnil; cases hnil
    | continuing => rw [Enc.owes_continuing hm hc] at hnil; cases hnil
    | none =>
      obtain ⟨-, hi⟩ := hstart hm
      refine ⟨rfl, rfl, ?_⟩
      by_contra hne
      have hword : (u.unread.take 8).length = 8 := by rw [List.length_take]; omega
      rw [Enc.owes_start hm hc, ← List.take_append_drop 8 u.unread, pack_append hword] at hnil
      exact packWord_ne_nil _ (List.append_eq_nil_iff.mp hnil).1

/-- With nothing owed a FLUSH answers DONE and changes nothing (R127). -/
theorem encFlushCommand_done (h : u.Legal p) (hready : u.Ready) (hnil : u.owes u.unread = []) :
    encFlushCommand p u = .respond u .done := by
  obtain ⟨hm, hc, hcur⟩ := Enc.nothing_owed h hnil
  have hfuel : encodeFuel u = u.inleft + 3 + 1 := rfl
  refine (encRunCommand_eq_respond_iff p true u u .done).mpr (.inr ⟨(precheck_eq_none_iff _).mpr hready, ?_⟩)
  rw [encRun, contPhase_none p u true hc, Flow.bind_back, hfuel, encLoop, encPass, hm]
  simp only [startWord_drained p u 0 true hcur, emitE_nothing]
  rfl

/-- A unit that waits after a FLUSH owes nothing. -/
theorem Enc.Waiting.owes_nil (h : u.Waiting true) : u.owes u.unread = [] := by
  obtain ⟨hcur, -, hstart⟩ := h
  obtain ⟨hm, hc⟩ := hstart rfl
  rw [Enc.owes_start hm hc, unread_of_consumed hcur, pack_nil]

/-- With something owed a FLUSH answers some of it (R127). -/
theorem encFlushCommand_output (h : u.Legal p) (hready : u.Ready) (hne : u.owes u.unread ≠ []) :
    ∃ v d, encFlushCommand p u = .respond v (.output d) ∧ d ≠ [] ∧ (v.Legal p ∧ v.Ready) ∧
      EncEnds true u v (.output d) := by
  obtain ⟨v, r, hcmd, hleft, hends, ⟨hr, hdata⟩ | ⟨-, hdata⟩⟩ := encRunCommand_encodes true h hready
  · rw [hr] at hcmd hends
    exact ⟨v, r.data, hcmd, hdata, hleft, hends⟩
  · have howes := hends.owes_drop (more := []) fun _ => rfl
    rw [List.append_nil, List.append_nil, hdata, (hends.waits hdata).owes_nil] at howes
    exact absurd howes hne

/-- A NEXT answers some of what is owed, or NONE with the unit waiting for more of the stream (R126). -/
theorem encNextCommand_encodes (h : u.Legal p) (hready : u.Ready) :
    ∃ v r, encNextCommand p u = .respond v r ∧ (v.Legal p ∧ v.Ready) ∧ EncEnds false u v r ∧
      ((r = .output r.data ∧ r.data ≠ []) ∨ (r = .none ∧ v.Waiting false)) := by
  obtain ⟨v, r, hcmd, hleft, hends, hanswer⟩ := encRunCommand_encodes false h hready
  exact ⟨v, r, hcmd, hleft, hends, hanswer.imp_right fun ⟨hr, hdata⟩ => ⟨hr, hends.waits hdata⟩⟩

end

/-! ### The statements on NEXT and FLUSH -/

section
variable {s : State} {u : Enc} {r : Response}

theorem exec_encNext (h : encNextCommand s.params s.enc = .respond u r) :
    exec .encNext s = .next ((s.setEnc u).deliver r) := congrArg s.closeEnc h

theorem exec_encFlush (h : encFlushCommand s.params s.enc = .respond u r) :
    exec .encFlush s = .next ((s.setEnc u).deliver r) := congrArg s.closeEnc h

end

/-- Settles O28: the run's answer is the front of what the unit owes, and without one the unit waits. -/
theorem encNextEmitsWhatTheEncoderOwes : Obligations.EncNextEmitsWhatTheEncoderOwes := by
  unfold Obligations.EncNextEmitsWhatTheEncoderOwes
  rintro s ⟨-, henc, -⟩ hready
  obtain ⟨u, r, hcmd, -, hends, hanswer⟩ := encNextCommand_encodes henc hready
  refine ⟨u, r, exec_encNext hcmd, ?_, fun more _ => hends.owes_drop nofun⟩
  obtain ⟨hr, hdata⟩ | ⟨hr, hcur, -⟩ := hanswer
  · exact .inr ⟨r.data, hr, List.length_pos_iff.mpr hdata, hends.fits⟩
  · exact .inl ⟨hr, hcur⟩

/-- Settles O29: whether anything is owed decides between the two ends of a FLUSH. -/
theorem encFlushEmitsWhatTheEncoderOwesOrIsDone : Obligations.EncFlushEmitsWhatTheEncoderOwesOrIsDone := by
  unfold Obligations.EncFlushEmitsWhatTheEncoderOwesOrIsDone
  rintro s ⟨-, henc, -⟩ hready
  refine ⟨fun hnil => exec_encFlush (encFlushCommand_done henc hready hnil), fun hne => ?_⟩
  obtain ⟨u, d, hcmd, hd, -, hends⟩ := encFlushCommand_output henc hready hne
  have howes := hends.owes_drop (more := []) fun _ => rfl
  rw [List.append_nil, List.append_nil] at howes
  exact ⟨u, d, exec_encFlush hcmd, List.length_pos_iff.mpr hd, hends.fits, howes⟩

/-- Settles O30: a run moves the cursor forward, and writes below its output's end or its continuation's end alone. -/
theorem encNextAndFlushFrame : Obligations.EncNextAndFlushFrame := by
  unfold Obligations.EncNextAndFlushFrame
  rintro i s t hi ⟨-, henc, -⟩ hready hexec
  obtain ⟨final, hrun⟩ : ∃ final, s.closeEnc (encRunCommand s.params final s.enc) = .next t := by
    obtain rfl | rfl := hi
    · exact ⟨false, hexec⟩
    · exact ⟨true, hexec⟩
  obtain ⟨u, r, hcmd, -, ⟨⟨⟨q, hq, hu⟩, hout, -⟩, -⟩, -⟩ := encRunCommand_encodes final henc hready
  rw [hcmd] at hrun
  cases hrun
  refine ⟨r, rfl, rfl, rfl, rfl, rfl, ?_, ?_, ?_, ?_, ?_, ?_, ?_,
    fun a hlen hcend => hout a (Nat.max_le.mpr ⟨hlen, hcend⟩)⟩ <;>
    simp only [State.deliver_enc, State.setEnc_enc, hu]
  exact hq

/-- Settles O31: NONE leaves the unit waiting, and a waiting unit answers NONE again. -/
theorem encNoneMeansConsumedAndRepeats : Obligations.EncNoneMeansConsumedAndRepeats := by
  unfold Obligations.EncNoneMeansConsumedAndRepeats
  rintro s t ⟨-, henc, -⟩ hready hexec hnone
  obtain ⟨u, r, hcmd, ⟨hlegal, hready'⟩, hends, hanswer⟩ := encNextCommand_encodes henc hready
  rw [exec_encNext hcmd] at hexec
  cases hexec
  obtain rfl : r = .none := by simpa using hnone
  obtain ⟨-, hdata⟩ | ⟨-, hwaits⟩ := hanswer
  · exact absurd rfl hdata
  · exact ⟨hwaits.1, exec_encNext (encNextCommand_of_waiting hlegal hready' hwaits)⟩

end Sys2Proof.Machine

/-!
PROOFS for the encode family, part 5: ENC.INIT and an accepted ENC.SET (R124, R125), and whole streams through ENC, for every
chunking (R77, R130).
-/

namespace Sys2Proof.Machine

open Sys2Proof.Config

/-! ### INIT (R124) -/

section
variable {p : Params} {cap : Nat}

/-- ENC right after an INIT with the legal capacity `cap`. -/
def Enc.configured (cap : Nat) : Enc := { Enc.reset with cap := cap, cfg := true }

theorem encInitCommand_of_legal (h : encCapLegal p cap) : encInitCommand p cap = .respond (Enc.configured cap) .ok := if_pos h

theorem encInitCommand_of_illegal (h : ¬ encCapLegal p cap) :
    encInitCommand p cap = .respond Enc.reset (.error .config 0#24) := if_neg h

end

/-- Settles O19: the capacity decides between the two ends of INIT, and every field is at its reset value in both. -/
theorem encInitResetsThenConfiguresOrRaisesConfig : Obligations.EncInitResetsThenConfiguresOrRaisesConfig := by
  unfold Obligations.EncInitResetsThenConfiguresOrRaisesConfig
  intro cap s
  refine ⟨decodeOfEncodeGivesTheCommandBack (.encInit cap) trivial, ?_⟩
  by_cases hcap : encCapLegal s.params cap.toNat
  · exact ⟨Enc.configured cap.toNat, ⟨rfl, rfl, rfl, rfl, rfl, rfl, rfl, rfl⟩,
      fun _ => ⟨rfl, rfl, congrArg s.closeEnc (encInitCommand_of_legal hcap)⟩, fun hn => absurd hcap hn⟩
  · exact ⟨Enc.reset, ⟨rfl, rfl, rfl, rfl, rfl, rfl, rfl, rfl⟩, fun h => absurd h hcap,
      fun _ => ⟨rfl, rfl, congrArg s.closeEnc (encInitCommand_of_illegal hcap)⟩⟩

/-! ### SET (R125) -/

/-- ENC with the chunk `s` installed. -/
def Enc.withChunk (u : Enc) (s : List Byte) : Enc :=
  { u with input := writeBytes u.input 0 s, inlen := s.length, inptr := 0 }

section
variable {p : Params} {u : Enc} {s : List Byte}

/-- An accepted ENC.SET installs its chunk (R125). -/
theorem encSetCommand_eq (hready : u.Ready) (hcur : u.inlen ≤ u.inptr) (hs : s.length ≤ p.maxIn) (hwords : s.length % 8 = 0) :
    encSetCommand p s u = .respond (u.withChunk s) .ok := by
  have hpre : precheckSet p true s.length u.toCommon = none :=
    (precheckSet_eq_none_iff _ _ _ _).mpr ⟨hready, hcur, hs, fun _ => hwords⟩
  rw [encSetCommand, hpre, checked_none, installChunk_of_le _ hs, CommandEnd.access_ok]
  rfl

/-- The chunk installed is what a unit that has consumed its chunk goes on with. -/
theorem Enc.withChunk_owes (hcur : u.inptr = u.inlen) (more : List Byte) :
    (u.withChunk s).owes ((u.withChunk s).unread ++ more) = u.owes (u.unread ++ (s ++ more)) := by
  have hunread : (u.withChunk s).unread = s := unread_installed _ _ u.toCommon
  rw [hunread, unread_of_consumed hcur]
  rfl

end

/-- Settles O22: the checks pass, and the chunk is copied. -/
theorem encSetInstallsTheChunk : Obligations.EncSetInstallsTheChunk := by
  unfold Obligations.EncSetInstallsTheChunk
  intro chunk s hready hcur hs hwords
  exact congrArg s.closeEnc (encSetCommand_eq hready hcur hs hwords)

/-! ### PUSH and FINALIZE (R77) -/

section
variable {p : Params}

/-- What is owed is shorter by the data answered. -/
theorem EncEnds.length_add {final : Bool} {u v : Enc} {r : Response} (h : EncEnds final u v r) {more : List Byte}
    (hmore : mayFollow final more) :
    (u.owes (u.unread ++ more)).length = r.data.length + (v.owes (v.unread ++ more)).length := by
  rw [h.owes_drop hmore, List.length_append]

/-- DRAIN after a SET ends with NONE, with the chunk consumed, after at most one NEXT for each byte owed and one more. -/
theorem collect_encNext (k : Nat) (more : List Byte) {u : Enc} (h : u.Legal p) (hready : u.Ready)
    (hk : (u.owes (u.unread ++ more)).length < k) :
    ∃ out v, collect (encNextCommand p) k u = some (out, v, .none) ∧ (v.Legal p ∧ v.Ready ∧ v.inptr = v.inlen) ∧
      u.owes (u.unread ++ more) = out ++ v.owes (v.unread ++ more) := by
  induction k generalizing u with
  | zero => omega
  | succ k ih =>
    obtain ⟨v, r, hcmd, ⟨hlegal, hready'⟩, hends, hanswer⟩ := encNextCommand_encodes h hready
    have howes := hends.owes_drop (more := more) nofun
    obtain ⟨hr, hdata⟩ | ⟨rfl, hcur, -⟩ := hanswer
    · have hlen := hends.length_add (more := more) nofun
      have hpos := List.length_pos_iff.mpr hdata
      obtain ⟨out, v', hcollect, hleft, howes'⟩ := ih hlegal hready' (by omega)
      refine ⟨r.data ++ out, v', ?_, hleft, by rw [howes, howes', List.append_assoc]⟩
      rw [collect, hcmd, hr]
      simp only [hcollect, Option.map_some, Response.data]
    · exact ⟨[], v, by rw [collect, hcmd], ⟨hlegal, hready', hcur⟩, howes⟩

/-- FINALIZE collects everything that is owed at the end of the stream, and ends with DONE. -/
theorem collect_encFlush (k : Nat) {u : Enc} (h : u.Legal p) (hready : u.Ready) (hk : (u.owes u.unread).length < k) :
    ∃ v, collect (encFlushCommand p) k u = some (u.owes u.unread, v, .done) := by
  induction k generalizing u with
  | zero => omega
  | succ k ih =>
    by_cases hnil : u.owes u.unread = []
    · exact ⟨u, by rw [collect, encFlushCommand_done h hready hnil, hnil]⟩
    · obtain ⟨v, d, hcmd, hd, ⟨hlegal, hready'⟩, hends⟩ := encFlushCommand_output h hready hnil
      have howes := hends.owes_drop (more := []) fun _ => rfl
      rw [List.append_nil, List.append_nil] at howes
      have hpos := List.length_pos_iff.mpr hd
      rw [howes, Response.data, List.length_append] at hk
      obtain ⟨v', hcollect⟩ := ih hlegal hready' (by omega)
      refine ⟨v', ?_⟩
      rw [collect, hcmd, howes]
      simp only [hcollect, Option.map_some, Response.data]

/-- PUSH of every chunk collects a front of what is owed for the whole stream; the rest is owed at its end. -/
theorem pushAll_enc (k : Nat) (chunks : List (List Byte)) {u : Enc} (h : u.Legal p) (hready : u.Ready)
    (hcur : u.inptr = u.inlen) (hchunks : ∀ c ∈ chunks, c.length % 8 = 0 ∧ c.length ≤ p.maxIn)
    (hk : (u.owes (u.unread ++ chunks.flatten)).length < k) :
    ∃ out v, pushAll (encSetCommand p) (encNextCommand p) k chunks u = some (out, v) ∧ (v.Legal p ∧ v.Ready) ∧
      u.owes (u.unread ++ chunks.flatten) = out ++ v.owes v.unread := by
  induction chunks generalizing u with
  | nil => exact ⟨[], u, rfl, ⟨h, hready⟩, by rw [List.flatten_nil, List.append_nil, List.nil_append]⟩
  | cons s chunks ih =>
    obtain ⟨⟨hwords, hs⟩, hchunks⟩ := List.forall_mem_cons.mp hchunks
    have hset := encSetCommand_eq hready hcur.ge hs hwords
    have hlegal : (u.withChunk s).Legal p := by
      have hleaves := encSetCommand_legal h s
      rwa [hset] at hleaves
    have hrest := Enc.withChunk_owes (s := s) hcur chunks.flatten
    rw [List.flatten_cons] at hk ⊢
    rw [← hrest] at hk ⊢
    obtain ⟨out, v, hcollect, ⟨hlegal', hready', hcur'⟩, howes⟩ := collect_encNext k chunks.flatten hlegal hready hk
    rw [howes, List.length_append] at hk
    obtain ⟨out', v', hpush, hleft, howes'⟩ := ih hlegal' hready' hcur' hchunks (by omega)
    refine ⟨out ++ out', v', ?_, hleft, by rw [howes, howes', List.append_assoc]⟩
    rw [pushAll, hset]
    simp only [hcollect, hpush, Option.map_some]

/-- A whole stream through ENC gives what the unit owes for it, and ends with DONE. -/
theorem stream_enc (chunks : List (List Byte)) {u : Enc} (h : u.Legal p) (hready : u.Ready) (hcur : u.inptr = u.inlen)
    (hchunks : ∀ c ∈ chunks, c.length % 8 = 0 ∧ c.length ≤ p.maxIn) :
    ∃ k, stream (encSetCommand p) (encNextCommand p) (encFlushCommand p) k chunks u =
      some (u.owes (u.unread ++ chunks.flatten), .done) := by
  refine ⟨(u.owes (u.unread ++ chunks.flatten)).length + 1, ?_⟩
  obtain ⟨out, v, hpush, ⟨hlegal, hready'⟩, howes⟩ := pushAll_enc _ chunks h hready hcur hchunks (Nat.lt_succ_self _)
  obtain ⟨v', hcollect⟩ := collect_encFlush ((u.owes (u.unread ++ chunks.flatten)).length + 1) hlegal hready'
    (by rw [howes, List.length_append]; omega)
  rw [stream, hpush]
  simp only [hcollect, Option.map_some]
  rw [howes]

end

/-- Settles O42: right after INIT a unit owes the packed stream of whatever follows. -/
theorem encoderOutputIsPackForEveryChunking : Obligations.EncoderOutputIsPackForEveryChunking := by
  unfold Obligations.EncoderOutputIsPackForEveryChunking
  intro p cap chunks _ hcap hchunks
  obtain ⟨k, hstream⟩ := stream_enc chunks (Enc.configured_legal hcap) ⟨rfl, rfl⟩ rfl hchunks
  exact ⟨Enc.configured cap, k, encInitCommand_of_legal hcap, hstream⟩

end Sys2Proof.Machine

/-!
PROOFS for the control family, part 1: decoding gives back the stream that was packed (R106, R129, R135). A group of the packed
stream decodes to the words its head stands for, whatever follows it.
-/

namespace Sys2Proof.Machine

open Sys2Proof.Config

/-! ### The words a range takes (R79, R129) -/

/-- A sequence of whole words that is not empty begins with a word. -/
theorem exists_word_append {x : List Byte} (hx : x.length % 8 = 0) (hne : x ≠ []) :
    ∃ w y, x = w ++ y ∧ w.length = 8 ∧ y.length % 8 = 0 := by
  have hpos := List.length_pos_iff.mpr hne
  exact ⟨x.take 8, x.drop 8, (List.take_append_drop 8 x).symm, by rw [List.length_take]; omega,
    by rw [List.length_drop]; omega⟩

/-- The word with tag `0x00` is the zero word: its population count is 0. -/
theorem eq_zeros_of_tag {w : List Byte} (hw : w.length = 8) (hz : tag w = TAG_ZERO) : w = zeros 8 := by
  have hcount : w.countP (fun b => b ≠ 0x00#8) = 0 := by rw [← popcount_tag hw, hz]; decide
  refine List.eq_replicate_iff.mpr ⟨hw, fun b hb => ?_⟩
  simpa using List.countP_eq_zero.mp hcount b hb

section
variable {joins : List Byte → Bool} {x : List Byte}

/-- A range takes whole words, no more than it may, and no more than there are. -/
theorem rangeBytes_bounds (k : Nat) (hx : x.length % 8 = 0) :
    rangeBytes joins k x % 8 = 0 ∧ rangeBytes joins k x ≤ 8 * k ∧ rangeBytes joins k x ≤ x.length := by
  induction k generalizing x with
  | zero => exact ⟨rfl, Nat.le_refl _, Nat.zero_le _⟩
  | succ k ih =>
    by_cases hne : x = []
    · rw [hne, rangeBytes_nil]; omega
    obtain ⟨w, y, rfl, hw, hy⟩ := exists_word_append hx hne
    cases hj : joins w with
    | false => rw [rangeBytes_ends hw hj]; omega
    | true =>
      have hrest := ih hy
      rw [rangeBytes_joins hw hj, List.length_append]
      omega

/-- What a zero range takes is zero. -/
theorem take_rangeBytes_isZeroWord (k : Nat) (hx : x.length % 8 = 0) :
    x.take (rangeBytes isZeroWord k x) = zeros (rangeBytes isZeroWord k x) := by
  induction k generalizing x with
  | zero => rfl
  | succ k ih =>
    by_cases hne : x = []
    · rw [hne, rangeBytes_nil]; rfl
    obtain ⟨w, y, rfl, hw, hy⟩ := exists_word_append hx hne
    cases hj : isZeroWord w with
    | false => rw [rangeBytes_ends hw hj]; rfl
    | true =>
      rw [rangeBytes_joins hw hj, take_word_add hw, ih hy, eq_zeros_of_tag hw (of_decide_eq_true hj), zeros_append]

end

/-- The count byte of a range says how many bytes the range takes. -/
theorem countByte_toNat {n : Nat} (hn : n % 8 = 0) (hle : n ≤ MAX_EXTRA) : 8 * (countByte n).toNat = n := by
  have hlt : n / 8 < 2 ^ 8 := by simp only [MAX_EXTRA] at hle; omega
  rw [countByte, BitVec.toNat_ofNat, Nat.mod_eq_of_lt hlt]
  omega

/-! ### Decoding a group of the packed stream (R83, R84, R106) -/

section
variable {w : List Byte}

/-- Decoding the head of a packed word: the word, and the range its class opens with the count byte behind it (R83). -/
theorem unpackHead_packWord (hw : w.length = 8) (c : List Byte) :
    (tagClass (tag w) = .lit → unpackHead (packWord w ++ c) = { word := w, main := .start, cnt := 0 }) ∧
    (tagClass (tag w) = .zero → unpackHead (packWord w ++ c) = rangeState .zeroRange (c.headD 0#8) w) ∧
    (tagClass (tag w) = .verb → unpackHead (packWord w ++ c) = rangeState .verbatimRange (c.headD 0#8) w) := by
  have hspread : spreadPayload (tagBits (tag w)) (w.filter (· ≠ 0#8) ++ c) = (w, c) := by
    rw [tagBits_tag hw, spreadPayload_filter]
  simp only [unpackHead, packWord, List.cons_append, List.headD_cons, List.tail_cons, hspread]
  refine ⟨fun h => ?_, fun h => ?_, fun h => ?_⟩ <;> rw [h]

/-- The length of a word's head is that of its packed form, and one more where a count byte belongs to it (R81). -/
theorem head_tag (hw : w.length = 8) :
    head (tag w) = (packWord w).length + if tagClass (tag w) = .lit then 0 else 1 := by
  have hlit := tagClass_eq_lit_iff (tag w)
  rw [head, packWord_length hw]
  by_cases hrange : tag w = TAG_ZERO ∨ tag w = TAG_VERB
  · rw [if_pos hrange, if_neg fun h => not_or.mpr (hlit.mp h) hrange]
  · rw [if_neg hrange, if_pos (hlit.mpr (not_or.mp hrange))]

/-- A whole head at a group boundary is the first unit of the stream, and what follows is decoded in the state it leaves. -/
theorem unitsFrom_head {g : List Byte} (hg : g.length = head (g.headD 0#8)) (s : List Byte) :
    unitsFrom .start 0 (g ++ s) =
      before (unpackHead g).word (unitsFrom (unpackHead g).main (unpackHead g).cnt s) := by
  have hpos := one_le_head (g.headD 0#8)
  have hhead : syncBytes Decoder.reset ((g ++ s).headD 0#8) = g.length := by
    obtain _ | ⟨t, g⟩ := g
    · rw [List.length_nil] at hg; omega
    · exact hg.symm
  have hunit := unitsFrom_unit (d := Decoder.reset) (s := g ++ s) nofun
    (by rw [hhead, List.length_append]; exact Nat.le_add_right _ _)
  rw [hhead, List.take_left, List.drop_left] at hunit
  exact hunit

/-- A packed word with no count byte decodes to the word. -/
theorem unitsFrom_packWord_lit (hw : w.length = 8) (hl : tagClass (tag w) = .lit) (s : List Byte) :
    unitsFrom .start 0 (packWord w ++ s) = before w (unitsFrom .start 0 s) := by
  obtain ⟨hdecoded, -, -⟩ := unpackHead_packWord hw []
  rw [List.append_nil] at hdecoded
  rw [unitsFrom_head (show (packWord w).length = head (tag w) by rw [head_tag hw, if_pos hl]; rfl), hdecoded hl]

/-- A packed word with a count byte decodes to the word, and what follows is decoded in the range the count byte opens. -/
theorem unitsFrom_packWord_range (hw : w.length = 8) {m : DecMain}
    (hm : tagClass (tag w) = .zero ∧ m = .zeroRange ∨ tagClass (tag w) = .verb ∧ m = .verbatimRange)
    (c : Byte) (s : List Byte) :
    unitsFrom .start 0 (packWord w ++ c :: s) =
      before w (unitsFrom (rangeState m c w).main (rangeState m c w).cnt s) := by
  have hclass : tagClass (tag w) ≠ .lit := by obtain ⟨h, -⟩ | ⟨h, -⟩ := hm <;> rw [h] <;> nofun
  have hlen : (packWord w ++ [c]).length = head (tag w) := by
    rw [head_tag hw, if_neg hclass, List.length_append, List.length_singleton]
  have hdecoded : unpackHead (packWord w ++ [c]) = rangeState m c w := by
    obtain ⟨-, hzero, hverb⟩ := unpackHead_packWord hw [c]
    obtain ⟨h, rfl⟩ | ⟨h, rfl⟩ := hm
    · exact hzero h
    · exact hverb h
  rw [← List.singleton_append, ← List.append_assoc, unitsFrom_head hlen, unpackHead_packWord_word hw, hdecoded]

/-- A zero range decodes to as many zero words as its count byte says. -/
theorem unitsFrom_zeroRange_count (c : Byte) (w s : List Byte) :
    unitsFrom (rangeState .zeroRange c w).main (rangeState .zeroRange c w).cnt s =
      before (zeros (8 * c.toNat)) (unitsFrom .start 0 s) := by
  unfold rangeState
  split
  · exact unitsFrom_zeroRange _ s
  next hc => rw [Nat.eq_zero_of_not_pos hc]; rfl

/-- A word of a verbatim range is its own output, and 8 bytes less are owed behind it (R90). -/
theorem unitsFrom_verbatimRange_word (hw : w.length = 8) (n : Nat) (s : List Byte) :
    unitsFrom .verbatimRange n (w ++ s) =
      before w (unitsFrom (if n - 8 = 0 then .start else .verbatimRange) (n - 8) s) := by
  have hunit := unitsFrom_unit (d := { Decoder.reset with main := .verbatimRange, cnt := n }) (s := w ++ s) nofun
    (by rw [List.length_append, hw]; exact Nat.le_add_right 8 _)
  simp only [syncBytes, List.take_left' hw, List.drop_left' hw] at hunit
  exact hunit

/-- A verbatim range decodes to its bytes, one word after another. -/
theorem unitsFrom_verbatimRange (k : Nat) {bs : List Byte} (hbs : bs.length = 8 * (k + 1)) (s : List Byte) :
    unitsFrom .verbatimRange (8 * (k + 1)) (bs ++ s) = before bs (unitsFrom .start 0 s) := by
  induction k generalizing bs with
  | zero => exact unitsFrom_verbatimRange_word hbs 8 s
  | succ k ih =>
    obtain ⟨w, bs, rfl, hw, -⟩ := exists_word_append (x := bs) (by omega) (List.ne_nil_of_length_pos (by omega))
    rw [List.length_append, hw] at hbs
    have hleft : 8 * (k + 1 + 1) - 8 = 8 * (k + 1) := by omega
    rw [List.append_assoc, unitsFrom_verbatimRange_word hw, hleft, if_neg (by omega), ih (by omega), before_before]

/-- A verbatim range decodes to as many of the words that follow as its count byte says. -/
theorem unitsFrom_verbatimRange_count (c : Byte) (w : List Byte) {bs : List Byte} (hbs : bs.length = 8 * c.toNat)
    (s : List Byte) :
    unitsFrom (rangeState .verbatimRange c w).main (rangeState .verbatimRange c w).cnt (bs ++ s) =
      before bs (unitsFrom .start 0 s) := by
  unfold rangeState
  split
  next hc =>
    obtain ⟨k, hk⟩ := Nat.exists_eq_succ_of_ne_zero hc.ne'
    rw [hk] at hbs ⊢
    exact unitsFrom_verbatimRange k hbs s
  next hc =>
    rw [Nat.eq_zero_of_not_pos hc] at hbs
    rw [List.eq_nil_of_length_eq_zero hbs]
    rfl

end

/-! ### The packed stream decodes to the stream (R135) -/

/-- The units of a packed stream are the words of the stream, with nothing left over: by induction on the stream, one group at a
time. -/
theorem unitsFrom_pack {x : List Byte} (hx : x.length % 8 = 0) : unitsFrom .start 0 (pack x) = (x, true) := by
  induction hn : x.length using Nat.strong_induction_on generalizing x with
  | _ n ih =>
    subst hn
    by_cases hne : x = []
    · rw [hne]; rfl
    obtain ⟨w, y, rfl, hw, hy⟩ := exists_word_append hx hne
    have htail (j : Nat) (hj : j % 8 = 0) : unitsFrom .start 0 (pack (y.drop j)) = (y.drop j, true) :=
      ih _ (by rw [List.length_append, List.length_drop]; omega) (by rw [List.length_drop]; omega) rfl
    rw [pack_append hw]
    cases hclass : tagClass (tag w) with
    | lit =>
      have hrest : unitsFrom .start 0 (pack y) = (y, true) := htail 0 rfl
      rw [packRest, unitsFrom_packWord_lit hw hclass, hrest]
      rfl
    | zero =>
      obtain ⟨hwords, hle, -⟩ := rangeBytes_bounds (joins := isZeroWord) MAX_COUNT hy
      rw [packRest, finishZero, Nat.zero_div, Nat.sub_zero, Nat.zero_add,
        unitsFrom_packWord_range hw (.inl ⟨hclass, rfl⟩), unitsFrom_zeroRange_count, countByte_toNat hwords hle,
        htail _ hwords, ← take_rangeBytes_isZeroWord MAX_COUNT hy, before, before, List.take_append_drop]
    | verb =>
      obtain ⟨hwords, hle, hall⟩ := rangeBytes_bounds (joins := joinsVerbatim) MAX_COUNT hy
      have hcount := countByte_toNat hwords hle
      rw [packRest, finishVerbatim_nil, unitsFrom_packWord_range hw (.inr ⟨hclass, rfl⟩),
        unitsFrom_verbatimRange_count _ w (by rw [List.length_take, hcount]; omega), htail _ hwords, before, before,
        List.take_append_drop]

/-- Settles O45: `unpack` is the output of the complete units (O47). -/
theorem unpackInvertsPack : Obligations.UnpackInvertsPack := by
  unfold Obligations.UnpackInvertsPack
  intro x hx
  rw [unpack_eq_finishedOutput, unitsFrom_pack hx]
  rfl

/-- Settles O46: ENC's stream is `pack` of the whole (O42), DEC's is `unpack` of that (O43), and `unpack` inverts `pack` (O45). -/
theorem roundTripThroughEncoderAndDecoder : Obligations.RoundTripThroughEncoderAndDecoder := by
  unfold Obligations.RoundTripThroughEncoderAndDecoder
  refine ⟨unpackInvertsPack, fun p ecap dcap xs ys hp hecap hdcap hxs hys => ?_⟩
  obtain ⟨e, k, heinit, hpacked⟩ := encoderOutputIsPackForEveryChunking p ecap xs hp hecap hxs
  have hdinit : decInitCommand p dcap = .respond { Decoder.reset with cap := dcap, cfg := true } .ok := by
    rw [decInitCommand, initDecoder, if_pos hdcap]
  have hrun := DecRunning.configured hdcap
  have hwords : xs.flatten.length % 8 = 0 := by
    rw [List.length_flatten]
    exact Nat.mod_eq_zero_of_dvd (List.dvd_sum (by simpa using fun c hc => Nat.dvd_of_mod_eq_zero (hxs c hc).1))
  refine ⟨e, _, k, _, heinit, hdinit, hpacked, fun hflat => ?_⟩
  obtain ⟨hstream, -⟩ := decoderOutputIsUnpackForEveryChunking p _ ys hp hrun.dec_legal hrun.ready rfl hys
  exact hstream _ (by rw [hflat, unpackInvertsPack _ hwords])

end Sys2Proof.Machine

/-!
PROOFS for the control family, part 2: STATUS, ABORT, the smallest buffers, and a NEXT with nothing pending (R133, R134, R137,
R138).
-/

namespace Sys2Proof.Machine

open Sys2Proof.Config

/-! ### A NEXT with nothing pending (R138) -/

/-- Writing no bytes at the front of a memory changes nothing. -/
theorem writeBytes_zero_nil (m : Mem) : writeBytes m 0 [] = m := by simp [writeBytes, cellsAt]

section
variable {p : Params} {d : Decoder}

/-- With the chunk consumed and the Remainder empty there is nothing to intern. -/
theorem interned_of_consumed (hcur : d.inptr = d.inlen) (hrem : d.remlen = 0) : interned d = d := by
  have hleft : d.inleft = 0 := by rw [Common.inleft, hcur, Nat.sub_self]
  have hwrite : writeBytes d.rem d.remlen [] = d.rem := by rw [hrem, writeBytes_zero_nil]
  rw [interned, unread_of_consumed hcur, hleft, hwrite, Nat.add_zero]
  exact congrArg (fun q => { d with inptr := q }) hcur.symm

/-- A DEC.NEXT at a group boundary, with nothing unconsumed, answers NONE and changes nothing. -/
theorem decNextCommand_of_idle (h : d.Legal p) (hready : d.Ready) (hcur : d.inptr = d.inlen) (hm : d.main = .start)
    (hrem : d.remlen = 0) : decNextCommand p d = .respond d .none := by
  have hshort : d.inleft < d.margin := by rw [Common.inleft, hcur, Nat.sub_self, Decoder.margin, if_pos hm]; decide
  have hrun : decRun p d 0 false = .back (interned d) 0 :=
    decRun_next_interns h.1 (by rw [hm]; nofun) (Nat.zero_le _) hrem hshort
  rw [decNextCommand, (precheck_eq_none_iff _).mpr hready, checked_none, hrun, interned_of_consumed hcur hrem]
  rfl

end

/-- Settles O36: ENC waits, with nothing open; DEC's run has nothing to intern. -/
theorem nextWithNothingPendingChangesNothing : Obligations.NextWithNothingPendingChangesNothing := by
  unfold Obligations.NextWithNothingPendingChangesNothing
  rintro s ⟨-, henc, hdec, -⟩
  refine ⟨fun hready hcur _ hcont => ?_, fun hready hcur hm hrem => ?_⟩
  · have hwaits : s.enc.Waiting false := ⟨hcur, by rw [hcont]; nofun, nofun⟩
    exact exec_encNext (encNextCommand_of_waiting henc hready hwaits)
  · exact exec_decNext (decNextCommand_of_idle hdec hready hcur hm hrem)

/-! ### ABORT (R134) -/

section
variable {s : State}

/-- ABORT of a ready unit fails it with UPSTREAM. -/
theorem exec_encAbort (code : BitVec 24) (hready : s.enc.Ready) :
    exec (.encAbort code) s =
      .next ((s.setEnc { s.enc with failed := true, err := 4#4 }).deliver (.error .upstream code)) := by
  have hcmd : encAbortCommand code s.enc = failEnc .upstream code s.enc := by
    rw [encAbortCommand, (precheck_eq_none_iff _).mpr hready, checked_none]
  exact congrArg s.closeEnc hcmd

theorem exec_decAbort (code : BitVec 24) (hready : s.dec.Ready) :
    exec (.decAbort code) s =
      .next ((s.setDec { s.dec with failed := true, err := 4#4 }).deliver (.error .upstream code)) := by
  have hcmd : decAbortCommand code s.dec = failDec .upstream code s.dec := by
    rw [decAbortCommand, (precheck_eq_none_iff _).mpr hready, checked_none]
  exact congrArg s.closeDec hcmd

theorem exec_dosAbort (code : BitVec 24) (hready : s.dos.Ready) :
    exec (.dosAbort code) s =
      .next ((s.setDos { s.dos with failed := true, err := 4#4 }).deliver (.error .upstream code)) := by
  have hcmd : dosAbortCommand code s.dos = failDos .upstream code s.dos := by
    rw [dosAbortCommand, (precheck_eq_none_iff _).mpr hready, checked_none]
  exact congrArg s.closeDos hcmd

end

/-- Every ABORT needs a ready unit (R142). -/
theorem needsReady_abort {code : BitVec 24} {i : Instr} (hi : i ∈ [Instr.encAbort code, .decAbort code, .dosAbort code]) :
    needsReady i = true := by
  simp only [List.mem_cons, List.not_mem_nil, or_false] at hi
  obtain rfl | rfl | rfl := hi <;> rfl

/-- Settles O25: the refusals are those of every command that needs a ready unit (O16), and the encoding is that of O1. -/
theorem abortFailsTheUnitAndForwardsTheCode : Obligations.AbortFailsTheUnitAndForwardsTheCode := by
  unfold Obligations.AbortFailsTheUnitAndForwardsTheCode
  intro code s
  exact ⟨exec_encAbort code, exec_decAbort code, exec_dosAbort code,
    fun i hi => unreadyUnitsRefuseCommands i s (needsReady_abort hi),
    decodeOfEncodeGivesTheCommandBack (.encAbort code) trivial, decodeOfEncodeGivesTheCommandBack (.decAbort code) trivial,
    decodeOfEncodeGivesTheCommandBack (.dosAbort code) trivial, rfl⟩

/-! ### STATUS (R133) -/

/-- With every other field at its reset value the status register of ENC has the bit CFG alone (R39). -/
theorem encStatus_of_resetButConfig {u : Enc} (h : u.ResetButConfig) (hcfg : u.cfg = true) : encStatus u = 0x10#64 := by
  obtain ⟨hfailed, herr, hinlen, hinptr, hmain, hmcnt, hcont, hcend⟩ := h
  simp only [encStatus, Common.inleft, Common.inpend, hfailed, herr, hinlen, hinptr, hmain, hmcnt, hcont, hcend, hcfg]
  rfl

/-- The same of the register DEC and DOS share, with 0 in its top field (R40). -/
theorem decoderStatus_of_resetButConfig {d : Decoder} (h : d.ResetButConfig) (hcfg : d.cfg = true) :
    decoderStatus 0 d = 0x10#64 := by
  obtain ⟨hfailed, herr, hinlen, hinptr, hmain, hcnt, hrem⟩ := h
  simp only [decoderStatus, Common.inpend, hfailed, herr, hinlen, hinptr, hmain, hcnt, hrem, hcfg]
  rfl

/-- Settles O26: STATUS puts back the unit it has read. -/
theorem statusAnswersTheRegisterAndChangesNothing : Obligations.StatusAnswersTheRegisterAndChangesNothing := by
  unfold Obligations.StatusAnswersTheRegisterAndChangesNothing
  refine ⟨fun s => ⟨rfl, rfl, rfl⟩, by decide, by decide, by decide, fun u h hcfg => encStatus_of_resetButConfig h hcfg,
    fun d h hcfg => ?_, fun u h hw hcfg => ?_⟩
  · have hleft : d.inleft = 0 := by
      obtain ⟨-, -, hinlen, -⟩ := h
      rw [Common.inleft, hinlen, Nat.zero_sub]
    rw [decStatus, hleft]
    exact decoderStatus_of_resetButConfig h hcfg
  · rw [dosStatus, hw]
    exact decoderStatus_of_resetButConfig h hcfg

/-! ### The smallest buffers (R137) -/

/-- Settles O27: INIT says which capacities it accepts (O19 to O21), and legal parameters allow the smallest ones (R6). -/
theorem minimalBuffersAreTheSmallestLegalOnes : Obligations.MinimalBuffersAreTheSmallestLegalOnes := by
  unfold Obligations.MinimalBuffersAreTheSmallestLegalOnes
  rintro s ⟨⟨hmax, -⟩, -⟩
  refine ⟨fun cap hcap => ?_, fun cap hcap => ?_, ?_, ?_, ?_⟩
  · have hillegal : ¬ (8 ≤ cap.toNat ∧ cap.toNat % 8 = 0 ∧ cap.toNat ≤ s.params.maxCap) := by
      obtain hlt | rfl := hcap
      · omega
      · exact fun ⟨_, hwords, _⟩ => absurd hwords (by decide)
    obtain ⟨-, d, -, -, hdec⟩ := decInitResetsThenConfiguresOrRaisesConfig cap s
    obtain ⟨-, u, -, -, -, hdos⟩ := dosInitResetsThenConfiguresOrRaisesConfig cap s
    obtain ⟨hdcfg, -, hdexec⟩ := hdec hillegal
    obtain ⟨hucfg, -, huexec⟩ := hdos hillegal
    exact ⟨⟨_, hdexec, rfl, hdcfg⟩, ⟨_, huexec, rfl, hucfg⟩⟩
  · obtain ⟨-, u, -, -, hinit⟩ := encInitResetsThenConfiguresOrRaisesConfig cap s
    obtain ⟨hcfg, -, hexec⟩ := hinit (by omega)
    exact ⟨_, hexec, rfl, hcfg⟩
  · obtain ⟨-, d, -, hinit, -⟩ := decInitResetsThenConfiguresOrRaisesConfig 8#24 s
    obtain ⟨hcfg, hcap, hexec⟩ := hinit ⟨by decide, by decide, le_trans (by decide) hmax⟩
    exact ⟨_, hexec, rfl, hcfg, hcap⟩
  · obtain ⟨-, u, -, -, hinit, -⟩ := dosInitResetsThenConfiguresOrRaisesConfig 8#24 s
    obtain ⟨hcfg, hcap, hexec⟩ := hinit ⟨by decide, by decide, le_trans (by decide) hmax⟩
    exact ⟨_, hexec, rfl, hcfg, hcap⟩
  · obtain ⟨-, u, -, hinit, -⟩ := encInitResetsThenConfiguresOrRaisesConfig 2048#24 s
    obtain ⟨hcfg, hcap, hexec⟩ := hinit ⟨by decide, hmax⟩
    exact ⟨_, hexec, rfl, hcfg, hcap⟩

end Sys2Proof.Machine

/-!
PROOFS for the exception family: a step with nothing sent (R149, R153), and the refusals of a SET to a ready unit (R140, R142).
-/

namespace Sys2Proof.Machine

open Sys2Proof.Config

/-! ### The step with an empty queue (R149) -/

/-- With nothing sent the machine finds no event. -/
theorem arrival_of_pending_nil {s : State} (h : s.pending = []) : s.arrival = .idle := by
  rw [State.arrival, h]

/-- Settles O6: the machine finds no event, so it takes none and runs no command. -/
theorem idleStepChangesNothing : Obligations.IdleStepChangesNothing := by
  unfold Obligations.IdleStepChangesNothing
  intro s hpending
  rw [step, arrival_of_pending_nil hpending]

/-! ### Refusals of a SET (R142 steps 4 and 5) -/

section
variable {p : Params} {whole : Bool} {len : Nat} {c : Common}

/-- BUSY comes before every check of the chunk's length. -/
theorem precheckSet_of_unconsumed (hready : c.Ready) (hbusy : c.inptr < c.inlen) :
    precheckSet p whole len c = some (.error .busy 0#24) := by
  rw [precheckSet, (precheck_eq_none_iff c).mpr hready]
  exact if_pos hbusy

/-- With the chunk consumed, a length the unit does not accept is refused with CONFIG: the checks do not pass (so they refuse), and
neither the first checks nor BUSY refuse a ready unit that has consumed its chunk. -/
theorem precheckSet_of_badLength (hready : c.Ready) (hcur : c.inlen ≤ c.inptr)
    (hlen : p.maxIn < len ∨ (whole = true ∧ len % 8 ≠ 0)) :
    precheckSet p whole len c = some (.error .config 0#24) := by
  cases hcheck : precheckSet p whole len c with
  | none =>
    obtain ⟨-, -, hmax, hwords⟩ := (precheckSet_eq_none_iff p whole len c).mp hcheck
    obtain hlong | ⟨hwhole, hpart⟩ := hlen
    · exact absurd hlong hmax.not_gt
    · exact absurd (hwords hwhole) hpart
  | some r =>
    obtain hpre | ⟨-, hbusy, -⟩ | ⟨-, -, hr, -⟩ := precheckSet_some hcheck
    · rw [(precheck_eq_none_iff c).mpr hready] at hpre
      cases hpre
    · exact absurd hbusy hcur.not_gt
    · rw [hr]

end

/-- Settles O17: what the checks of a SET refuse is delivered and changes nothing else; ENC alone asks for whole words. -/
theorem setsAreRefusedInTheOrderOfChecks : Obligations.SetsAreRefusedInTheOrderOfChecks := by
  unfold Obligations.SetsAreRefusedInTheOrderOfChecks
  intro s chunk
  refine ⟨fun hready => ⟨fun hbusy => ?_, fun hcur hlen => ?_⟩, fun hready => ⟨fun hbusy => ?_, fun hcur hlong => ?_⟩,
    fun hready => ⟨fun hbusy => ?_, fun hcur hlong => ?_⟩⟩
  · exact State.closeEnc_refused (precheckSet_of_unconsumed hready hbusy)
  · exact State.closeEnc_refused (precheckSet_of_badLength hready hcur (hlen.imp_right fun hpart => ⟨rfl, hpart⟩))
  · exact State.closeDec_refused (precheckSet_of_unconsumed hready hbusy)
  · exact State.closeDec_refused (precheckSet_of_badLength hready hcur (.inl hlong))
  · exact State.closeDos_refused (precheckSet_of_unconsumed hready hbusy)
  · exact State.closeDos_refused (precheckSet_of_badLength hready hcur (.inl hlong))

end Sys2Proof.Machine

/-!
PROOFS for the reset family: the step on a reset event, and the reset values of the units (R44, R154).
-/

namespace Sys2Proof.Machine

/-! ### The units at reset (R44) -/

/-- The registers of ENC at reset, `CFG` and `CAP` aside. -/
theorem Enc.reset_resetButConfig : Enc.reset.ResetButConfig := ⟨rfl, rfl, rfl, rfl, rfl, rfl, rfl, rfl⟩

/-- The registers DEC and DOS share, at reset. -/
theorem Decoder.reset_resetButConfig : Decoder.reset.ResetButConfig := ⟨rfl, rfl, rfl, rfl, rfl, rfl, rfl⟩

/-! ### The step on a reset event (R154) -/

section
variable {s : State} {rest : List HostEvent}

/-- What the machine finds when the host's next event is a reset. -/
theorem arrival_of_pending_reset (h : s.pending = .reset :: rest) : s.arrival = .reset := by
  rw [State.arrival, h]

/-- A step on a reset event takes it from the queue and resets the units of the state. -/
theorem step_of_pending_reset (h : s.pending = .reset :: rest) :
    step s = .next { s with pending := rest }.resetUnits := by
  rw [step, arrival_of_pending_reset h, State.accept_of_pending h]

end

/-- Settles O7: the step replaces the three units by their reset states and keeps everything but the event. -/
theorem resetEventResetsEveryUnit : Obligations.ResetEventResetsEveryUnit := by
  unfold Obligations.ResetEventResetsEveryUnit
  intro s rest hpending
  have hstep := step_of_pending_reset hpending
  exact ⟨_, hstep, rfl, rfl, rfl,
    rfl, rfl, Enc.reset_resetButConfig,
    rfl, rfl, Decoder.reset_resetButConfig,
    rfl, rfl, Decoder.reset_resetButConfig, rfl⟩

end Sys2Proof.Machine
